-- ==== Sys2Proof/Word.lean ====
section
/-! DEFINITION. The widths the spec gives its words: 32-bit interface words (R15, R90) and 8-bit memory cells (R41). -/

namespace Sys2Proof

/-- A 32-bit word: CMD, OPA, OPB, RESULT, addresses, lengths and cursors (R15, R35, R37). -/
abbrev Word := BitVec 32

/-- An 8-bit cell of the buffer memory (R41). -/
abbrev Byte := BitVec 8

end Sys2Proof
end

