-- ==== Sys2Proof/Config.lean ====
section
/-! DEFINITION. The block's parameters (00_scope.md section 4) and the model's two choices for the state after reset. -/

namespace Sys2Proof.Config

/-- MAX_WIDTH: the widest bit field of one get or set (R9). -/
def maxWidth : Nat := 32

/-- MAX_BIT_CAP: the largest capacity in bytes of a Bit Stream context (R12). -/
def maxBitCap : Nat := 2 ^ 29 - 1

/-- The least MEM_BYTES (R11). -/
def memBytesMin : Nat := 1

/-- The greatest MEM_BYTES (R11). -/
def memBytesMax : Nat := 2 ^ 32

/-- MEM_BYTES of `State.reset`. DESIGN CHOICE (log 3): R11 leaves MEM_BYTES open. The model carries it as the size of
the memory array, and this is only the size that `State.reset` shows: the one 95_test_vectors.md uses. Unsafe for a
claim about `State.reset` alone. -/
def resetMemBytes : Nat := 0x1000

/-- What an address of MEM that the memory list does not name reads as. DESIGN CHOICE (log 4): R45 leaves MEM after
reset unspecified. Unsafe for a claim about `State.reset`'s memory; every content of MEM is some `State`. -/
def unlistedByte : Byte := 0

/-- A free value (log 10): what BT.BASE holds where the sum of R171 is 2^32, which its 32 bits do not hold and for which
no rule states a value. Nothing constrains it. -/
opaque freeWord : Nat → Word

end Sys2Proof.Config
end

