-- ==== Sys2Proof/Syntax.lean ====
section
/-! DEFINITION. The command triple (R90) and the instructions: one constructor per row of the opcode table (R94). -/

namespace Sys2Proof

/-- Construction mode, field M of BY_INIT and BT_INIT (R91): 0 decode, 1 encode. -/
inductive Mode where
  | decode
  | encode
deriving DecidableEq, Repr

/-- A command as the host presents it: three 32-bit words (R4, R90). -/
structure Command where
  cmd : Word
  opa : Word
  opb : Word
deriving DecidableEq, Repr

/-- The 37 commands of R94 with the operands each one uses. An operand word is held whole, also where the command uses
only its low bits (R92); an operand word the command does not name is not held, since it is ignored (R95). Indices and
widths are numbers, whose bounds `Instr.wf` checks. -/
inductive Instr where
  -- Slice Arithmetic (40_slice.md)
  | slGetByteSlice (ixBegin ixEnd : Nat) (x : Word)
  | slSetByteSlice (ixBegin ixEnd : Nat) (x v : Word)
  | slGetShortSlice (ixBegin ixEnd : Nat) (x : Word)
  | slGetIntSlice (ixBegin ixEnd : Nat) (x : Word)
  -- Byte Stream (41_byte_stream.md)
  | byInit (mode : Mode) (base len : Word)
  | byForward (n : Word)
  | byBack (n : Word)
  | byGetByte
  | byGetWord
  | byGetDword
  | bySetByte (v : Word)
  | bySetWord (v : Word)
  | bySetDword (v : Word)
  | bySetByteSlice (ixBegin ixEnd : Nat) (v : Word)
  | byGetByteByPos (pos : Word)
  | byGetWordByPos (pos : Word)
  | byGetDwordByPos (pos : Word)
  | bySetByteByPos (pos v : Word)
  | bySetWordByPos (pos v : Word)
  | bySetDwordByPos (pos v : Word)
  | byGetBitStream (n : Word)
  | byGetPos
  | byGetError
  | byGetLength
  | byGetBuffer
  -- Bit Stream (42_bit_stream.md)
  | btInit (mode : Mode) (base len : Word)
  | btForward (n : Word)
  | btBack (n : Word)
  | btGetBit (n : Nat)
  | btSetBit (n : Nat) (v : Word)
  | btGetBitByPos (n : Nat) (pos : Word)
  | btSetBitByPos (n : Nat) (pos v : Word)
  | btGetPos
  | btGetBytePos
  | btGetError
  | btGetLength
  | btGetBuffer
deriving DecidableEq, Repr

end Sys2Proof
end

