-- ==== Sys2Proof/WellFormed.lean ====
section
/-! DEFINITION. Well-formed instructions: every operand fits its CMD field (R91; what the assembler of R99 refuses). -/

namespace Sys2Proof

/-- A slice index fits the 5-bit fields BEGIN and END (R91, R97). -/
def indexFits (ix : Nat) : Bool := ix < 32

/-- A field width fits the 8-bit field N (R91, R97): 0 and 33..255 are legal encodings. -/
def widthFits (n : Nat) : Bool := n < 256

/-- Every operand of the instruction fits its field of the command (R91, R97, R99). -/
def Instr.wf : Instr → Bool
  | .slGetByteSlice b e _ => indexFits b && indexFits e
  | .slSetByteSlice b e _ _ => indexFits b && indexFits e
  | .slGetShortSlice b e _ => indexFits b && indexFits e
  | .slGetIntSlice b e _ => indexFits b && indexFits e
  | .byInit _ _ _ => true
  | .byForward _ => true
  | .byBack _ => true
  | .byGetByte => true
  | .byGetWord => true
  | .byGetDword => true
  | .bySetByte _ => true
  | .bySetWord _ => true
  | .bySetDword _ => true
  | .bySetByteSlice b e _ => indexFits b && indexFits e
  | .byGetByteByPos _ => true
  | .byGetWordByPos _ => true
  | .byGetDwordByPos _ => true
  | .bySetByteByPos _ _ => true
  | .bySetWordByPos _ _ => true
  | .bySetDwordByPos _ _ => true
  | .byGetBitStream _ => true
  | .byGetPos => true
  | .byGetError => true
  | .byGetLength => true
  | .byGetBuffer => true
  | .btInit _ _ _ => true
  | .btForward _ => true
  | .btBack _ => true
  | .btGetBit n => widthFits n
  | .btSetBit n _ => widthFits n
  | .btGetBitByPos n _ => widthFits n
  | .btSetBitByPos n _ _ => widthFits n
  | .btGetPos => true
  | .btGetBytePos => true
  | .btGetError => true
  | .btGetLength => true
  | .btGetBuffer => true

end Sys2Proof
end

