-- ==== Sys2Proof/Decode.lean ====
section
/-! DEFINITION. Decoding a command (R91, R92, R94, R95, R98), total and rejecting by name, and after it the encoder
(R91, R99), written from the same table of fields. -/

namespace Sys2Proof

/-- Why a command does not decode. Both are ILLEGAL (R259). -/
inductive DecodeError where
  /-- Cause I1: OP is in no row of R94 (R96). -/
  | reservedOp
  /-- Cause I2: RSV, or a CMD field the opcode does not use, is nonzero (R95). -/
  | reservedField
deriving DecidableEq, Repr

/-- What decoding answers. -/
inductive Decoded where
  | instr (i : Instr)
  | illegal (e : DecodeError)
deriving DecidableEq, Repr

/-- Which CMD fields beside OP a row of R94 lists. -/
inductive FieldUse where
  /-- no field -/
  | bare
  /-- BEGIN and END -/
  | slice
  /-- M -/
  | mode
  /-- N -/
  | width
deriving DecidableEq, Repr

/-! ### The fields of CMD (R91, R92) -/

/-- OP = CMD[7:0]. -/
def cmdOp (cmd : Word) : Byte := cmd.extractLsb' 0 8

/-- N = CMD[15:8], unsigned. -/
def cmdN (cmd : Word) : Nat := (cmd.extractLsb' 8 8).toNat

/-- BEGIN = CMD[20:16], unsigned. -/
def cmdBegin (cmd : Word) : Nat := (cmd.extractLsb' 16 5).toNat

/-- END = CMD[25:21], unsigned. -/
def cmdEnd (cmd : Word) : Nat := (cmd.extractLsb' 21 5).toNat

/-- M = CMD[26]. -/
def cmdMode (cmd : Word) : Mode := if cmd.getLsbD 26 then .encode else .decode

/-- RSV = CMD[31:27]. -/
def cmdRsv (cmd : Word) : Nat := (cmd.extractLsb' 27 5).toNat

/-- RSV and every CMD field the row does not use are 0 (R95, R98). -/
def unusedFieldsZero (uses : FieldUse) (cmd : Word) : Bool :=
  decide (cmdRsv cmd = 0)
    && (decide (uses = .width) || decide (cmdN cmd = 0))
    && (decide (uses = .slice) || (decide (cmdBegin cmd = 0) && decide (cmdEnd cmd = 0)))
    && (decide (uses = .mode) || decide (cmdMode cmd = .decode))

/-! ### The opcode table (R94) -/

/-- A row of R94: the opcode, the CMD fields it uses, and the instruction it stands for. -/
structure OpRow where
  op : Byte
  uses : FieldUse
  build : Command → Instr

/-- 0x01-0x04, Slice Arithmetic (R93, R94). -/
def sliceRows : List OpRow := [
  ⟨0x01, .slice, fun c => .slGetByteSlice (cmdBegin c.cmd) (cmdEnd c.cmd) c.opa⟩,
  ⟨0x02, .slice, fun c => .slSetByteSlice (cmdBegin c.cmd) (cmdEnd c.cmd) c.opa c.opb⟩,
  ⟨0x03, .slice, fun c => .slGetShortSlice (cmdBegin c.cmd) (cmdEnd c.cmd) c.opa⟩,
  ⟨0x04, .slice, fun c => .slGetIntSlice (cmdBegin c.cmd) (cmdEnd c.cmd) c.opa⟩]

/-- 0x10-0x24, Byte Stream (R93, R94). -/
def byteRows : List OpRow := [
  ⟨0x10, .mode, fun c => .byInit (cmdMode c.cmd) c.opa c.opb⟩,
  ⟨0x11, .bare, fun c => .byForward c.opa⟩,
  ⟨0x12, .bare, fun c => .byBack c.opa⟩,
  ⟨0x13, .bare, fun _ => .byGetByte⟩,
  ⟨0x14, .bare, fun _ => .byGetWord⟩,
  ⟨0x15, .bare, fun _ => .byGetDword⟩,
  ⟨0x16, .bare, fun c => .bySetByte c.opa⟩,
  ⟨0x17, .bare, fun c => .bySetWord c.opa⟩,
  ⟨0x18, .bare, fun c => .bySetDword c.opa⟩,
  ⟨0x19, .slice, fun c => .bySetByteSlice (cmdBegin c.cmd) (cmdEnd c.cmd) c.opa⟩,
  ⟨0x1A, .bare, fun c => .byGetByteByPos c.opa⟩,
  ⟨0x1B, .bare, fun c => .byGetWordByPos c.opa⟩,
  ⟨0x1C, .bare, fun c => .byGetDwordByPos c.opa⟩,
  ⟨0x1D, .bare, fun c => .bySetByteByPos c.opa c.opb⟩,
  ⟨0x1E, .bare, fun c => .bySetWordByPos c.opa c.opb⟩,
  ⟨0x1F, .bare, fun c => .bySetDwordByPos c.opa c.opb⟩,
  ⟨0x20, .bare, fun c => .byGetBitStream c.opa⟩,
  ⟨0x21, .bare, fun _ => .byGetPos⟩,
  ⟨0x22, .bare, fun _ => .byGetError⟩,
  ⟨0x23, .bare, fun _ => .byGetLength⟩,
  ⟨0x24, .bare, fun _ => .byGetBuffer⟩]

/-- 0x30-0x3B, Bit Stream (R93, R94). -/
def bitRows : List OpRow := [
  ⟨0x30, .mode, fun c => .btInit (cmdMode c.cmd) c.opa c.opb⟩,
  ⟨0x31, .bare, fun c => .btForward c.opa⟩,
  ⟨0x32, .bare, fun c => .btBack c.opa⟩,
  ⟨0x33, .width, fun c => .btGetBit (cmdN c.cmd)⟩,
  ⟨0x34, .width, fun c => .btSetBit (cmdN c.cmd) c.opa⟩,
  ⟨0x35, .width, fun c => .btGetBitByPos (cmdN c.cmd) c.opa⟩,
  ⟨0x36, .width, fun c => .btSetBitByPos (cmdN c.cmd) c.opa c.opb⟩,
  ⟨0x37, .bare, fun _ => .btGetPos⟩,
  ⟨0x38, .bare, fun _ => .btGetBytePos⟩,
  ⟨0x39, .bare, fun _ => .btGetError⟩,
  ⟨0x3A, .bare, fun _ => .btGetLength⟩,
  ⟨0x3B, .bare, fun _ => .btGetBuffer⟩]

/-- The opcode table of R94. -/
def opTable : List OpRow := sliceRows ++ byteRows ++ bitRows

/-- The row of R94 with this OP. -/
def rowOf (op : Byte) : Option OpRow := opTable.find? (fun r => r.op == op)

/-- Decode (R98), with the operand words the row names. -/
def decode (c : Command) : Decoded :=
  match rowOf (cmdOp c.cmd) with
  | none => .illegal .reservedOp
  | some r => if unusedFieldsZero r.uses c.cmd then .instr (r.build c) else .illegal .reservedField

/-! ### The encoder (R91, R94, R99) -/

/-- OP of each instruction (R94). -/
def Instr.opcode : Instr → Byte
  | .slGetByteSlice _ _ _ => 0x01
  | .slSetByteSlice _ _ _ _ => 0x02
  | .slGetShortSlice _ _ _ => 0x03
  | .slGetIntSlice _ _ _ => 0x04
  | .byInit _ _ _ => 0x10
  | .byForward _ => 0x11
  | .byBack _ => 0x12
  | .byGetByte => 0x13
  | .byGetWord => 0x14
  | .byGetDword => 0x15
  | .bySetByte _ => 0x16
  | .bySetWord _ => 0x17
  | .bySetDword _ => 0x18
  | .bySetByteSlice _ _ _ => 0x19
  | .byGetByteByPos _ => 0x1A
  | .byGetWordByPos _ => 0x1B
  | .byGetDwordByPos _ => 0x1C
  | .bySetByteByPos _ _ => 0x1D
  | .bySetWordByPos _ _ => 0x1E
  | .bySetDwordByPos _ _ => 0x1F
  | .byGetBitStream _ => 0x20
  | .byGetPos => 0x21
  | .byGetError => 0x22
  | .byGetLength => 0x23
  | .byGetBuffer => 0x24
  | .btInit _ _ _ => 0x30
  | .btForward _ => 0x31
  | .btBack _ => 0x32
  | .btGetBit _ => 0x33
  | .btSetBit _ _ => 0x34
  | .btGetBitByPos _ _ => 0x35
  | .btSetBitByPos _ _ _ => 0x36
  | .btGetPos => 0x37
  | .btGetBytePos => 0x38
  | .btGetError => 0x39
  | .btGetLength => 0x3A
  | .btGetBuffer => 0x3B

/-- The M bit of a mode (R91). -/
def Mode.bit : Mode → BitVec 1
  | .decode => 0
  | .encode => 1

/-- The fields of CMD beside OP and RSV (R91). -/
structure CmdFields where
  n : Nat := 0
  ixBegin : Nat := 0
  ixEnd : Nat := 0
  mode : Mode := .decode
deriving DecidableEq, Repr

/-- The command word from its fields, each cut to its width: RSV = 0, M, END, BEGIN, N, OP from bit 31 down (R91). -/
def packCmd (op : Byte) (f : CmdFields) : Word :=
  0#5 ++ f.mode.bit ++ BitVec.ofNat 5 f.ixEnd ++ BitVec.ofNat 5 f.ixBegin ++ BitVec.ofNat 8 f.n ++ op

/-- The N, BEGIN, END and M fields of an instruction, 0 where it does not use them (R94, R95). -/
def Instr.fields : Instr → CmdFields
  | .slGetByteSlice b e _ => { ixBegin := b, ixEnd := e }
  | .slSetByteSlice b e _ _ => { ixBegin := b, ixEnd := e }
  | .slGetShortSlice b e _ => { ixBegin := b, ixEnd := e }
  | .slGetIntSlice b e _ => { ixBegin := b, ixEnd := e }
  | .bySetByteSlice b e _ => { ixBegin := b, ixEnd := e }
  | .byInit m _ _ => { mode := m }
  | .btInit m _ _ => { mode := m }
  | .btGetBit n => { n := n }
  | .btSetBit n _ => { n := n }
  | .btGetBitByPos n _ => { n := n }
  | .btSetBitByPos n _ _ => { n := n }
  | .byForward _ | .byBack _ | .byGetByte | .byGetWord | .byGetDword
  | .bySetByte _ | .bySetWord _ | .bySetDword _
  | .byGetByteByPos _ | .byGetWordByPos _ | .byGetDwordByPos _
  | .bySetByteByPos _ _ | .bySetWordByPos _ _ | .bySetDwordByPos _ _
  | .byGetBitStream _ | .byGetPos | .byGetError | .byGetLength | .byGetBuffer
  | .btForward _ | .btBack _
  | .btGetPos | .btGetBytePos | .btGetError | .btGetLength | .btGetBuffer => { }

/-- The OPA and OPB words of an instruction, 0 where it does not name them (R94, R99). -/
def Instr.operands : Instr → Word × Word
  | .slGetByteSlice _ _ x => (x, 0)
  | .slSetByteSlice _ _ x v => (x, v)
  | .slGetShortSlice _ _ x => (x, 0)
  | .slGetIntSlice _ _ x => (x, 0)
  | .byInit _ base len => (base, len)
  | .byForward n => (n, 0)
  | .byBack n => (n, 0)
  | .bySetByte v => (v, 0)
  | .bySetWord v => (v, 0)
  | .bySetDword v => (v, 0)
  | .bySetByteSlice _ _ v => (v, 0)
  | .byGetByteByPos pos => (pos, 0)
  | .byGetWordByPos pos => (pos, 0)
  | .byGetDwordByPos pos => (pos, 0)
  | .bySetByteByPos pos v => (pos, v)
  | .bySetWordByPos pos v => (pos, v)
  | .bySetDwordByPos pos v => (pos, v)
  | .byGetBitStream n => (n, 0)
  | .btInit _ base len => (base, len)
  | .btForward n => (n, 0)
  | .btBack n => (n, 0)
  | .btSetBit _ v => (v, 0)
  | .btGetBitByPos _ pos => (pos, 0)
  | .btSetBitByPos _ pos v => (pos, v)
  | .byGetByte | .byGetWord | .byGetDword
  | .byGetPos | .byGetError | .byGetLength | .byGetBuffer
  | .btGetBit _ | .btGetPos | .btGetBytePos | .btGetError | .btGetLength | .btGetBuffer => (0, 0)

/-- The command triple of an instruction (R91, R94, R99). -/
def encode (i : Instr) : Command :=
  { cmd := packCmd i.opcode i.fields, opa := i.operands.1, opb := i.operands.2 }

/-! ### The opcode table's numbering -/

/-- The triple whose bits are `w`: CMD is bits 31..0, OPA bits 63..32, OPB bits 95..64 (log 8); bits from `nbits` up
are 0. -/
def commandOfBits (nbits w : Nat) : Command :=
  let v := w % 2 ^ nbits
  { cmd := BitVec.ofNat 32 v, opa := BitVec.ofNat 32 (v >>> 32), opb := BitVec.ofNat 32 (v >>> 64) }

/-- The instruction the decoder reads from a row's bits, numbered as spec/opcode_table.json numbers them. -/
def decodeTableWord (nbits w : Nat) : Option Instr :=
  match decode (commandOfBits nbits w) with
  | .instr i => some i
  | .illegal _ => none

end Sys2Proof
end

