-- ==== Sys2Proof/Machine/State.lean ====
section
/-! DEFINITION. The state of the block (10_state.md), the moves its host may make, and the state after reset (R45). -/

namespace Sys2Proof.Machine

/-- The error kinds of R251. -/
inductive ErrorKind where
  | ok
  | getOverrun
  | setOverrun
  | moveOverrun
  | getZeroWidth
  | setZeroWidth
deriving DecidableEq, Repr

/-- The registers of one stream context, BY (R35) or BT (R37). BASE and LEN are in bytes; CUR counts bytes in BY and
bits in BT; ERR is the 3-bit error code of R251. -/
structure Context where
  valid : Bool
  base : Word
  len : Word
  cur : Word
  err : BitVec 3
deriving DecidableEq, Repr

/-- The buffer memory MEM (R41, R60): `size` is MEM_BYTES (log 3), and `cells` lists the bytes that differ from
`Config.unlistedByte`, by strictly rising address (log 4). -/
structure Memory where
  size : Nat
  cells : List Host.Cell
deriving DecidableEq, Repr

/-- MEM_BYTES is in its range (R11), and the list is in its one canonical form: strictly rising addresses inside MEM,
no byte that an unlisted address reads as. -/
abbrev Memory.wf (m : Memory) : Prop :=
  Config.memBytesMin ≤ m.size ∧ m.size ≤ Config.memBytesMax
    ∧ m.cells.Pairwise (fun x y => x.1 < y.1)
    ∧ ∀ c ∈ m.cells, c.1 < m.size ∧ c.2 ≠ Config.unlistedByte

/-- What the host can do to the block, one move at a time (R4, R74, R280). A host read of MEM, RESULT or STATUS is no
move: it changes nothing (R69). -/
inductive HostMove where
  /-- Present a command (R4, R33). -/
  | command (c : Command)
  /-- Write one byte of MEM between commands (R74). -/
  | memWrite (addr : Word) (v : Byte)
  /-- Apply reset (R280). -/
  | reset
deriving DecidableEq, Repr

/-- The state of the block (R30), and two fields of the model's own: `host`, its input, the host's coming moves, the
next one first (log 1), and `freeDraws`, the counter of free values (log 10). -/
structure State where
  /-- RESULT (R31). -/
  result : Word
  /-- STATUS (R32): bit 0 is ILL, bit 1 is ILLS, bits 31:2 are reserved. -/
  status : BitVec 32
  /-- The Byte Stream context BY (R35). -/
  byteCtx : Context
  /-- The Bit Stream context BT (R37). -/
  bitCtx : Context
  /-- The buffer memory MEM (R41). -/
  mem : Memory
  /-- The host's coming moves: the model's own field (log 1). -/
  host : List HostMove
  /-- How many free values have been drawn: the model's own field (log 10). -/
  freeDraws : Nat
deriving DecidableEq, Repr

/-- The reasons the machine stops. No command of a block whose state meets `State.Inv` raises one (R62, R262). -/
inductive Fault where
  /-- A command's byte access at an address MEM does not have (R60). Raised by `memRead` and `memWrite`, only in states
  outside the invariant of R36 and R39. Safe: the machine stops where the spec gives no access (log 5). -/
  | outsideMem (addr : Nat)
  /-- A host write at an address MEM does not have (R60, R74). Raised by the move `memWrite`. Safe: the machine stops
  where the spec gives the host no access (log 6). -/
  | hostOutsideMem (addr : Nat)
deriving DecidableEq, Repr

/-- The reasons an instruction has no meaning. -/
inductive Refusal where
  /-- The instruction's meaning is not written. Raised by an arm of `exec`, if any. Safe: nothing is claimed of it. -/
  | notModelled (mnemonic : String)
deriving DecidableEq, Repr

/-- A context after reset: unbound, BASE, LEN and CUR 0, ERR = OK = 0 (R45). -/
def Context.unbound : Context := { valid := false, base := 0, len := 0, cur := 0, err := 0 }

/-- The registers after reset (R45), over any memory: reset does not write MEM (R280), whose content is any value
(U14). -/
def State.resetWith (m : Memory) : State :=
  { result := 0, status := 0, byteCtx := .unbound, bitCtx := .unbound, mem := m, host := [], freeDraws := 0 }

/-- The state after reset: the registers of R45; a memory that lists nothing (log 4) of the size of log 3; no host move
pending (log 1); no free value drawn (log 10). -/
def State.reset : State := State.resetWith { size := Config.resetMemBytes, cells := [] }

end Sys2Proof.Machine
end

