-- ==== Sys2Proof/Machine/Flags.lean ====
section
/-! DEFINITION. The condition state (R42): STATUS (R32, R258, R260) and the ERR fields (R251, R253). -/

namespace Sys2Proof.Machine

/-- The error codes of R251. -/
def ErrorKind.code : ErrorKind → BitVec 3
  | .ok => 0
  | .getOverrun => 1
  | .setOverrun => 2
  | .moveOverrun => 3
  | .getZeroWidth => 4
  | .setZeroWidth => 5

/-- SetErr (R253): the code overwrites ERR; nothing else of the context changes (R252). -/
def Context.setErr (c : Context) (k : ErrorKind) : Context := { c with err := k.code }

/-- STATUS.ILL (R32). -/
def State.ill (s : State) : Bool := s.status.getLsbD 0

/-- STATUS.ILLS (R32). -/
def State.ills (s : State) : Bool := s.status.getLsbD 1

/-- The outcome ILLEGAL (R258): ILL and ILLS become 1, and nothing else changes. -/
def State.illegal (s : State) : State := { s with status := s.status ||| 3#32 }

/-- An accepted command (R260): ILL becomes 0, ILLS stays. -/
def State.accept (s : State) : State := { s with status := s.status &&& ~~~1#32 }

end Sys2Proof.Machine
end

