-- ==== Sys2Proof/Machine/Operands.lean ====
section
/-! DEFINITION. Operand forms and the bit primitives of the pseudocode (R19, R63, R92). -/

namespace Sys2Proof.Machine

/-- OPA[7:0] or OPB[7:0] (R92). -/
def lowByte (w : Word) : Byte := w.extractLsb' 0 8

/-- OPA[15:0] or OPB[15:0] (R92). -/
def lowShort (w : Word) : BitVec 16 := w.extractLsb' 0 16

/-- zext_32: a value below 2^32 as a 32-bit word (R19). -/
def zext32 (v : Nat) : Word := BitVec.ofNat 32 v

/-- mask(k): the low k+1 bits set, in a value of `w` bits (R19). -/
def mask (w k : Nat) : BitVec w := BitVec.ofNat w (2 ^ (k + 1) - 1)

/-- trunc_w(v) = v mod 2^w (R19). -/
def trunc (w v : Nat) : Nat := v % 2 ^ w

/-- v[8(k-1-j)+7 : 8(k-1-j)]: byte j, counted from the most significant, of a value of k bytes (R63). -/
def byteOf (k v j : Nat) : Byte := BitVec.ofNat 8 (v >>> (8 * (k - 1 - j)))

/-- The k bytes of a value, most significant first (R63). -/
def bytesBE (k v : Nat) : List Byte := (List.range k).map (byteOf k v)

/-- Fold bytes into an accumulator, most significant first: `acc <- (acc << 8) | byte` (R63, R154, R207). -/
def foldBE (acc : Nat) (bs : List Byte) : Nat := bs.foldl (fun v b => (v <<< 8) ||| b.toNat) acc

end Sys2Proof.Machine
end

