-- ==== Sys2Proof/Machine/Ops.lean ====
section
/-! DEFINITION. The shared operations: single-byte memory access and the wider accesses made of it (R60 to R64), zero
fill (R79), binding and moving a context, and the checks that make a command ILLEGAL (R259). The block has no traps
(R262): `State.illegal` and `Context.setErr` are all that a rejected or failing command does. -/

namespace Sys2Proof.Machine

/-- What a step answers. -/
abbrev Out := Host.Outcome State Fault Refusal

/-- Go on with what a memory operation gives, or stop with its fault. -/
def orFault {α : Type} (x : Except Fault α) (k : α → Out) : Out :=
  match x with
  | .ok a => k a
  | .error f => .fault f

/-! ### Memory -/

/-- The byte a list of cells holds at an address; an unlisted address reads as `Config.unlistedByte` (log 4). -/
def lookupCell (a : Nat) : List Host.Cell → Byte
  | [] => Config.unlistedByte
  | c :: cs => if c.1 = a then c.2 else lookupCell a cs

/-- The cells with the byte at an address replaced, in canonical form. -/
def storeCell (a : Nat) (v : Byte) : List Host.Cell → List Host.Cell
  | [] => if v = Config.unlistedByte then [] else [(a, v)]
  | c :: cs =>
    if c.1 < a then c :: storeCell a v cs
    else
      let rest := if c.1 = a then cs else c :: cs
      if v = Config.unlistedByte then rest else (a, v) :: rest

/-- The byte MEM holds at an address. -/
def Memory.read (m : Memory) (a : Nat) : Byte := lookupCell a m.cells

/-- MEM with the byte at an address replaced, and no other (R69). -/
def Memory.write (m : Memory) (a : Nat) (v : Byte) : Memory := { m with cells := storeCell a v m.cells }

/-- MemRead(a, 1) (R64): a fault at an address MEM does not have (R60, log 5). -/
def memRead (m : Memory) (a : Nat) : Except Fault Byte :=
  if a < m.size then .ok (m.read a) else .error (.outsideMem a)

/-- MemWrite(a, 1, v) (R64): a fault at an address MEM does not have (R60, log 5). -/
def memWrite (m : Memory) (a : Nat) (v : Byte) : Except Fault Memory :=
  if a < m.size then .ok (m.write a v) else .error (.outsideMem a)

/-- The k bytes at a, a+1, ..., by single-byte reads (R64). -/
def readBytes (m : Memory) (a : Nat) : Nat → Except Fault (List Byte)
  | 0 => .ok []
  | k + 1 => do
    let b ← memRead m a
    let bs ← readBytes m (a + 1) k
    return b :: bs

/-- Store bytes at a, a+1, ..., by single-byte writes (R64). -/
def writeBytes (m : Memory) (a : Nat) : List Byte → Except Fault Memory
  | [] => .ok m
  | b :: bs => do
    let m' ← memWrite m a b
    writeBytes m' (a + 1) bs

/-- Zero fill (R79): 0 into every byte of a window and no other. The cells of the window leave the list (log 9). -/
def Memory.zeroFill (m : Memory) (base len : Nat) : Memory :=
  { m with cells := m.cells.filter (fun c => decide (c.1 < base) || decide (base + len ≤ c.1)) }

/-- The memory a construction mode leaves over the new window (R79): encode zero-fills it, decode leaves it. -/
def Memory.initWindow (m : Memory) (mode : Mode) (base len : Word) : Memory :=
  match mode with
  | .decode => m
  | .encode => m.zeroFill base.toNat len.toNat

/-! ### Contexts -/

/-- A freshly bound context (R151, R171, R201): cursor 0, ERR = OK. -/
def Context.bound (base len : Word) : Context :=
  { valid := true, base := base, len := len, cur := 0, err := ErrorKind.ok.code }

/-- Move the cursor to a value that fits it (R18). -/
def Context.moveTo (c : Context) (pos : Nat) : Context := { c with cur := zext32 pos }

/-- forward(n) against a limit (R152: LEN; R202: 8·LEN): landing at or past the limit fails with MoveOverrun; the sum is
exact (R18). -/
def Context.forward (c : Context) (limit : Nat) (n : Word) : Context :=
  if limit ≤ c.cur.toNat + n.toNat then c.setErr .moveOverrun else c.moveTo (c.cur.toNat + n.toNat)

/-- back(n) (R153, R203): more than the cursor fails with MoveOverrun. -/
def Context.back (c : Context) (n : Word) : Context :=
  if c.cur.toNat < n.toNat then c.setErr .moveOverrun else c.moveTo (c.cur.toNat - n.toNat)

/-- The number of bits in the Bit Stream's window, 8·L. -/
def Context.bitLen (c : Context) : Nat := 8 * c.len.toNat

/-! ### Accepting and rejecting (R259 to R261) -/

/-- Perform a Byte Stream command, which needs BY.VALID = 1 (R150, cause I3). -/
def requireBY (s : State) (k : State → Out) : Out :=
  if s.byteCtx.valid then k s.accept else .next s.illegal

/-- Perform a Bit Stream command, which needs BT.VALID = 1 (R200, cause I4). -/
def requireBT (s : State) (k : State → Out) : Out :=
  if s.bitCtx.valid then k s.accept else .next s.illegal

/-- The window base, len fits MEM: the exact sum is at most MEM_BYTES (the converse of cause I5). -/
def windowFits (m : Memory) (base len : Word) : Bool := base.toNat + len.toNat ≤ m.size

/-- Write RESULT and nothing else (R31). -/
def answer (v : Word) (s : State) : Out := .next { s with result := v }

end Sys2Proof.Machine
end

