-- ==== Sys2Proof/Machine/Slice.lean ====
section
/-! DEFINITION. The Slice Arithmetic unit (40_slice.md): its functions (R121 to R125, R131) and its four commands
(R126 to R129). -/

namespace Sys2Proof.Machine

/-- Index normalisation for byte operands (R121): swap, then clamp the first index to 7. -/
def norm8 (b e : Nat) : Nat × Nat :=
  let (b, e) := if b < e then (e, b) else (b, e)
  (if 7 < b then 7 else b, e)

/-- Index normalisation for 16- and 32-bit operands (R122): swap only. -/
def normW (b e : Nat) : Nat × Nat := if b < e then (e, b) else (b, e)

/-- GetByteSlice (R123). -/
def getByteSlice (x : Byte) (b0 e0 : Nat) : Byte :=
  let (b, e) := norm8 b0 e0
  (x &&& mask 8 b) >>> e

/-- SetByteSlice (R124): the value is cut to the range's width; an empty range leaves the byte unchanged. -/
def setByteSlice (x : Byte) (b0 e0 v : Nat) : Byte :=
  let (b, e) := norm8 b0 e0
  if b < e then x
  else
    let high := x &&& ~~~mask 8 b
    let mid := BitVec.ofNat 8 (trunc (b - e + 1) v <<< e)
    let low := x &&& BitVec.ofNat 8 (2 ^ e - 1)
    high ||| mid ||| low

/-- GetWideSlice_W (R125). -/
def getWideSlice {w : Nat} (x : BitVec w) (b0 e0 : Nat) : BitVec w :=
  let (b, e) := normW b0 e0
  (x &&& mask w b) >>> e

/-! ### Convenience functions (R131), for n in 1..8 -/

/-- GetHi: the high n bits. -/
def getHi (x : Byte) (n : Nat) : Byte := getByteSlice x 7 (8 - n)

/-- GetLow: the low n bits. -/
def getLow (x : Byte) (n : Nat) : Byte := getByteSlice x (n - 1) 0

/-- SetHi: replace the high n bits. -/
def setHi (x : Byte) (n v : Nat) : Byte := setByteSlice x 7 (8 - n) v

/-- SetLow: replace the low n bits. -/
def setLow (x : Byte) (n v : Nat) : Byte := setByteSlice x (n - 1) 0 v

/-! ### Commands: always accepted, whatever is bound (R120) -/

/-- SL_GETBYTESLICE (R126). -/
def execSlGetByteSlice (ixBegin ixEnd : Nat) (x : Word) (s : State) : Out :=
  answer (zext32 (getByteSlice (lowByte x) ixBegin ixEnd).toNat) s.accept

/-- SL_SETBYTESLICE (R127). -/
def execSlSetByteSlice (ixBegin ixEnd : Nat) (x v : Word) (s : State) : Out :=
  answer (zext32 (setByteSlice (lowByte x) ixBegin ixEnd v.toNat).toNat) s.accept

/-- SL_GETSHORTSLICE (R128). -/
def execSlGetShortSlice (ixBegin ixEnd : Nat) (x : Word) (s : State) : Out :=
  answer (zext32 (getWideSlice (lowShort x) ixBegin ixEnd).toNat) s.accept

/-- SL_GETINTSLICE (R129). -/
def execSlGetIntSlice (ixBegin ixEnd : Nat) (x : Word) (s : State) : Out :=
  answer (getWideSlice x ixBegin ixEnd) s.accept

end Sys2Proof.Machine
end

