-- ==== Sys2Proof/Machine/ByteStream.lean ====
section
/-! DEFINITION. The Byte Stream controller (41_byte_stream.md). -/

namespace Sys2Proof.Machine

/-- The buffer address of a byte offset in the Byte Stream's window (R61). -/
def byteAddr (s : State) (offset : Nat) : Nat := s.byteCtx.base.toNat + offset

/-- SeqGet(k) (R154): a failing read consumes what remains and answers 0. -/
def seqGet (k : Nat) (s : State) : Out :=
  let c := s.byteCtx
  if c.cur.toNat + k ≤ c.len.toNat then
    orFault (readBytes s.mem (byteAddr s c.cur.toNat) k) fun bs =>
      .next { s with byteCtx := c.moveTo (c.cur.toNat + k), result := zext32 (foldBE 0 bs) }
  else
    .next { s with byteCtx := (c.moveTo c.len.toNat).setErr .getOverrun, result := 0 }

/-- SeqSet(k, v) (R158): the leading bytes that fit the window are written; a failing write leaves the cursor at L. -/
def seqSet (k v : Nat) (s : State) : Out :=
  let c := s.byteCtx
  orFault (writeBytes s.mem (byteAddr s c.cur.toNat) ((bytesBE k v).take (c.len.toNat - c.cur.toNat))) fun m =>
    if c.cur.toNat + k ≤ c.len.toNat then
      .next { s with byteCtx := c.moveTo (c.cur.toNat + k), mem := m }
    else
      .next { s with byteCtx := (c.moveTo c.len.toNat).setErr .setOverrun, mem := m }

/-- PosGet(k, pos) (R163). -/
def posGet (k pos : Nat) (s : State) : Out :=
  if s.byteCtx.len.toNat < pos + k then
    .next { s with byteCtx := s.byteCtx.setErr .getOverrun, result := 0 }
  else
    orFault (readBytes s.mem (byteAddr s pos) k) fun bs => .next { s with result := zext32 (foldBE 0 bs) }

/-- PosSet(k, pos, v) (R167). -/
def posSet (k pos v : Nat) (s : State) : Out :=
  if s.byteCtx.len.toNat < pos + k then
    .next { s with byteCtx := s.byteCtx.setErr .setOverrun }
  else
    orFault (writeBytes s.mem (byteAddr s pos) (bytesBE k v)) fun m => .next { s with mem := m }

/-- Patch a bit range of one byte of MEM: read, SetByteSlice (R124), write (R162, R208). -/
def patchByte (m : Memory) (a b e v : Nat) : Except Fault Memory := do
  let x ← memRead m a
  memWrite m a (setByteSlice x b e v)

/-! ### Construction and navigation -/

/-- BY_INIT (R151): ILLEGAL where the window does not fit MEM (cause I5). -/
def execByInit (mode : Mode) (base len : Word) (s : State) : Out :=
  if windowFits s.mem base len then
    .next { s.accept with byteCtx := Context.bound base len, mem := s.mem.initWindow mode base len }
  else .next s.illegal

/-- BY_FORWARD (R152). -/
def execByForward (n : Word) (s : State) : Out :=
  requireBY s fun s => .next { s with byteCtx := s.byteCtx.forward s.byteCtx.len.toNat n }

/-- BY_BACK (R153). -/
def execByBack (n : Word) (s : State) : Out :=
  requireBY s fun s => .next { s with byteCtx := s.byteCtx.back n }

/-! ### Sequential get and set -/

/-- BY_GETBYTE (R155). -/
def execByGetByte (s : State) : Out := requireBY s (seqGet 1)

/-- BY_GETWORD (R156). -/
def execByGetWord (s : State) : Out := requireBY s (seqGet 2)

/-- BY_GETDWORD (R157). -/
def execByGetDword (s : State) : Out := requireBY s (seqGet 4)

/-- BY_SETBYTE (R159). -/
def execBySetByte (v : Word) (s : State) : Out := requireBY s (seqSet 1 (lowByte v).toNat)

/-- BY_SETWORD (R160). -/
def execBySetWord (v : Word) (s : State) : Out := requireBY s (seqSet 2 (lowShort v).toNat)

/-- BY_SETDWORD (R161). -/
def execBySetDword (v : Word) (s : State) : Out := requireBY s (seqSet 4 v.toNat)

/-- BY_SETBYTESLICE (R162): patches the byte before the cursor; no change at cursor 0. -/
def execBySetByteSlice (ixBegin ixEnd : Nat) (v : Word) (s : State) : Out :=
  requireBY s fun s =>
    if s.byteCtx.cur = 0 then .next s
    else
      orFault (patchByte s.mem (byteAddr s (s.byteCtx.cur.toNat - 1)) ixBegin ixEnd v.toNat) fun m =>
        .next { s with mem := m }

/-! ### Positional get and set -/

/-- BY_GETBYTEBYPOS (R164). -/
def execByGetByteByPos (pos : Word) (s : State) : Out := requireBY s (posGet 1 pos.toNat)

/-- BY_GETWORDBYPOS (R165). -/
def execByGetWordByPos (pos : Word) (s : State) : Out := requireBY s (posGet 2 pos.toNat)

/-- BY_GETDWORDBYPOS (R166). -/
def execByGetDwordByPos (pos : Word) (s : State) : Out := requireBY s (posGet 4 pos.toNat)

/-- BY_SETBYTEBYPOS (R168). -/
def execBySetByteByPos (pos v : Word) (s : State) : Out := requireBY s (posSet 1 pos.toNat (lowByte v).toNat)

/-- BY_SETWORDBYPOS (R169). -/
def execBySetWordByPos (pos v : Word) (s : State) : Out := requireBY s (posSet 2 pos.toNat (lowShort v).toNat)

/-- BY_SETDWORDBYPOS (R170). -/
def execBySetDwordByPos (pos v : Word) (s : State) : Out := requireBY s (posSet 4 pos.toNat v.toNat)

/-! ### Handoff -/

/-- Bind BT over n bytes at a buffer address (R171). An address of 2^32 does not fit BT.BASE (only n = 0 at the very end of
a MEM of 2^32 bytes): BASE then holds a free value (log 10). -/
def bindBitStream (addr : Nat) (n : Word) (s : State) : State :=
  if addr < 2 ^ 32 then { s with bitCtx := Context.bound (zext32 addr) n }
  else { s with bitCtx := Context.bound (Config.freeWord s.freeDraws) n, freeDraws := s.freeDraws + 1 }

/-- BY_GETBITSTREAM (R171): binds BT over the next n bytes; ILLEGAL where they are not in the BY window or exceed
MAX_BIT_CAP (cause I7). -/
def execByGetBitStream (n : Word) (s : State) : Out :=
  if s.byteCtx.valid ∧ s.byteCtx.cur.toNat + n.toNat ≤ s.byteCtx.len.toNat ∧ n.toNat ≤ Config.maxBitCap then
    .next (bindBitStream (byteAddr s s.byteCtx.cur.toNat) n s.accept)
  else .next s.illegal

/-! ### Inspection -/

/-- BY_GETPOS (R172). -/
def execByGetPos (s : State) : Out := requireBY s fun s => answer s.byteCtx.cur s

/-- BY_GETERROR (R173). -/
def execByGetError (s : State) : Out := requireBY s fun s => answer (zext32 s.byteCtx.err.toNat) s

/-- BY_GETLENGTH (R174). -/
def execByGetLength (s : State) : Out := requireBY s fun s => answer s.byteCtx.len s

/-- BY_GETBUFFER (R175). -/
def execByGetBuffer (s : State) : Out := requireBY s fun s => answer s.byteCtx.base s

end Sys2Proof.Machine
end

