-- ==== Sys2Proof/Machine/BitStream.lean ====
section
/-! DEFINITION. The Bit Stream engine (42_bit_stream.md). A stream bit position q is bit 7 - (q mod 8) of the byte at
window offset q div 8 (R17). -/

namespace Sys2Proof.Machine

/-! ### Checks, in the order of R256 -/

/-- The failure of a get of n bits at bit position p in a window of `bits` bits, if any (R204, R205). -/
def getFailure (n p bits : Nat) : Option ErrorKind :=
  if n = 0 then some .getZeroWidth
  else if Config.maxWidth < n then some .getOverrun
  else if bits < p + n then some .getOverrun
  else none

/-- The failure of a set of n bits at bit position p in a window of `bits` bits, if any (R204, R205). -/
def setFailure (n p bits : Nat) : Option ErrorKind :=
  if n = 0 then some .setZeroWidth
  else if Config.maxWidth < n then some .setOverrun
  else if bits < p + n then some .setOverrun
  else none

/-! ### The field algorithm (R206 to R208) -/

/-- FieldGet(base, p, n) (R207): the groups of R206, most significant first, each folded by its own width. -/
def fieldGet (m : Memory) (base p n : Nat) : Except Fault Nat := do
  let fB := p / 8
  let lastBit := p + n - 1
  let lB := lastBit / 8
  let first ← memRead m (base + fB)
  if fB = lB then
    return (getByteSlice first (7 - p % 8) (7 - lastBit % 8)).toNat
  else
    let middle ← readBytes m (base + fB + 1) (lB - fB - 1)
    let last ← memRead m (base + lB)
    let wl := lastBit % 8 + 1
    let acc := foldBE (getByteSlice first (7 - p % 8) 0).toNat middle
    return (acc <<< wl) ||| (getByteSlice last 7 (8 - wl)).toNat

/-- FieldSet(base, p, n, v) (R208): the same groups written, the other bits of the first and the last byte kept. -/
def fieldSet (m : Memory) (base p n v : Nat) : Except Fault Memory := do
  let v := trunc n v
  let fB := p / 8
  let lastBit := p + n - 1
  let lB := lastBit / 8
  if fB = lB then
    patchByte m (base + fB) (7 - p % 8) (7 - lastBit % 8) v
  else
    let wl := lastBit % 8 + 1
    let m ← patchByte m (base + fB) (7 - p % 8) 0 (v >>> (wl + 8 * (lB - fB - 1)))
    let m ← writeBytes m (base + fB + 1) (bytesBE (lB - fB - 1) (v >>> wl))
    patchByte m (base + lB) 7 (8 - wl) (trunc wl v)

/-! ### Bit-serial form (R64, R209): what the field algorithm equals -/

/-- ReadBit(b, q) (R64). -/
def readBit (m : Memory) (base q : Nat) : Bool := (m.read (base + q / 8)).getLsbD (7 - q % 8)

/-- The sum of R209: bit p+i weighs 2^(n-1-i). -/
def fieldBits (m : Memory) (base p n : Nat) : Nat :=
  ((List.range n).map fun i => (readBit m base (p + i)).toNat <<< (n - 1 - i)).sum

/-! ### Gets and sets -/

/-- A get of n bits at bit position p, which leaves the context `after` where it succeeds (R210, R212): a failing get
answers 0 and moves nothing (R204, R255). -/
def bitGet (n p : Nat) (after : Context) (s : State) : Out :=
  match getFailure n p s.bitCtx.bitLen with
  | some e => .next { s with bitCtx := s.bitCtx.setErr e, result := 0 }
  | none =>
    orFault (fieldGet s.mem s.bitCtx.base.toNat p n) fun v =>
      .next { s with bitCtx := after, result := zext32 v }

/-- A set of n bits at bit position p, which leaves the context `after` where it succeeds (R211, R213): a failing set
writes no byte and moves nothing (R204). -/
def bitSet (n p v : Nat) (after : Context) (s : State) : Out :=
  match setFailure n p s.bitCtx.bitLen with
  | some e => .next { s with bitCtx := s.bitCtx.setErr e }
  | none =>
    orFault (fieldSet s.mem s.bitCtx.base.toNat p n v) fun m => .next { s with bitCtx := after, mem := m }

/-! ### Construction and navigation -/

/-- BT_INIT (R201): ILLEGAL where the window does not fit MEM or exceeds MAX_BIT_CAP (causes I5, I6). -/
def execBtInit (mode : Mode) (base len : Word) (s : State) : Out :=
  if windowFits s.mem base len ∧ len.toNat ≤ Config.maxBitCap then
    .next { s.accept with bitCtx := Context.bound base len, mem := s.mem.initWindow mode base len }
  else .next s.illegal

/-- BT_FORWARD (R202). -/
def execBtForward (n : Word) (s : State) : Out :=
  requireBT s fun s => .next { s with bitCtx := s.bitCtx.forward s.bitCtx.bitLen n }

/-- BT_BACK (R203). -/
def execBtBack (n : Word) (s : State) : Out :=
  requireBT s fun s => .next { s with bitCtx := s.bitCtx.back n }

/-! ### Sequential and positional fields -/

/-- BT_GETBIT (R210): the cursor moves past the field. -/
def execBtGetBit (n : Nat) (s : State) : Out :=
  requireBT s fun s => bitGet n s.bitCtx.cur.toNat (s.bitCtx.moveTo (s.bitCtx.cur.toNat + n)) s

/-- BT_SETBIT (R211): the cursor moves past the field. -/
def execBtSetBit (n : Nat) (v : Word) (s : State) : Out :=
  requireBT s fun s => bitSet n s.bitCtx.cur.toNat v.toNat (s.bitCtx.moveTo (s.bitCtx.cur.toNat + n)) s

/-- BT_GETBITBYPOS (R212): the cursor is never written. -/
def execBtGetBitByPos (n : Nat) (pos : Word) (s : State) : Out :=
  requireBT s fun s => bitGet n pos.toNat s.bitCtx s

/-- BT_SETBITBYPOS (R213): the cursor is never written. -/
def execBtSetBitByPos (n : Nat) (pos v : Word) (s : State) : Out :=
  requireBT s fun s => bitSet n pos.toNat v.toNat s.bitCtx s

/-! ### Inspection -/

/-- BT_GETPOS (R214). -/
def execBtGetPos (s : State) : Out := requireBT s fun s => answer s.bitCtx.cur s

/-- BT_GETBYTEPOS (R215): the derived byte cursor, BT.CUR div 8 (R38). -/
def execBtGetBytePos (s : State) : Out := requireBT s fun s => answer (zext32 (s.bitCtx.cur.toNat / 8)) s

/-- BT_GETERROR (R216). -/
def execBtGetError (s : State) : Out := requireBT s fun s => answer (zext32 s.bitCtx.err.toNat) s

/-- BT_GETLENGTH (R217). -/
def execBtGetLength (s : State) : Out := requireBT s fun s => answer s.bitCtx.len s

/-- BT_GETBUFFER (R218). -/
def execBtGetBuffer (s : State) : Out := requireBT s fun s => answer s.bitCtx.base s

end Sys2Proof.Machine
end

