-- ==== Sys2Proof/Machine/Dispatch.lean ====
section
/-! DEFINITION. The meaning of each instruction, one arm per row of the opcode table (R94). -/

namespace Sys2Proof.Machine

/-- What an accepted or rejected command does (R261), by opcode. -/
def exec (i : Instr) (s : State) : Host.Outcome State Fault Refusal :=
  match i with
  | .slGetByteSlice ixBegin ixEnd x => Sys2Proof.Machine.execSlGetByteSlice ixBegin ixEnd x s
  | .slSetByteSlice ixBegin ixEnd x v => Sys2Proof.Machine.execSlSetByteSlice ixBegin ixEnd x v s
  | .slGetShortSlice ixBegin ixEnd x => Sys2Proof.Machine.execSlGetShortSlice ixBegin ixEnd x s
  | .slGetIntSlice ixBegin ixEnd x => Sys2Proof.Machine.execSlGetIntSlice ixBegin ixEnd x s
  | .byInit mode base len => Sys2Proof.Machine.execByInit mode base len s
  | .byForward n => Sys2Proof.Machine.execByForward n s
  | .byBack n => Sys2Proof.Machine.execByBack n s
  | .byGetByte => Sys2Proof.Machine.execByGetByte s
  | .byGetWord => Sys2Proof.Machine.execByGetWord s
  | .byGetDword => Sys2Proof.Machine.execByGetDword s
  | .bySetByte v => Sys2Proof.Machine.execBySetByte v s
  | .bySetWord v => Sys2Proof.Machine.execBySetWord v s
  | .bySetDword v => Sys2Proof.Machine.execBySetDword v s
  | .bySetByteSlice ixBegin ixEnd v => Sys2Proof.Machine.execBySetByteSlice ixBegin ixEnd v s
  | .byGetByteByPos pos => Sys2Proof.Machine.execByGetByteByPos pos s
  | .byGetWordByPos pos => Sys2Proof.Machine.execByGetWordByPos pos s
  | .byGetDwordByPos pos => Sys2Proof.Machine.execByGetDwordByPos pos s
  | .bySetByteByPos pos v => Sys2Proof.Machine.execBySetByteByPos pos v s
  | .bySetWordByPos pos v => Sys2Proof.Machine.execBySetWordByPos pos v s
  | .bySetDwordByPos pos v => Sys2Proof.Machine.execBySetDwordByPos pos v s
  | .byGetBitStream n => Sys2Proof.Machine.execByGetBitStream n s
  | .byGetPos => Sys2Proof.Machine.execByGetPos s
  | .byGetError => Sys2Proof.Machine.execByGetError s
  | .byGetLength => Sys2Proof.Machine.execByGetLength s
  | .byGetBuffer => Sys2Proof.Machine.execByGetBuffer s
  | .btInit mode base len => Sys2Proof.Machine.execBtInit mode base len s
  | .btForward n => Sys2Proof.Machine.execBtForward n s
  | .btBack n => Sys2Proof.Machine.execBtBack n s
  | .btGetBit n => Sys2Proof.Machine.execBtGetBit n s
  | .btSetBit n v => Sys2Proof.Machine.execBtSetBit n v s
  | .btGetBitByPos n pos => Sys2Proof.Machine.execBtGetBitByPos n pos s
  | .btSetBitByPos n pos v => Sys2Proof.Machine.execBtSetBitByPos n pos v s
  | .btGetPos => Sys2Proof.Machine.execBtGetPos s
  | .btGetBytePos => Sys2Proof.Machine.execBtGetBytePos s
  | .btGetError => Sys2Proof.Machine.execBtGetError s
  | .btGetLength => Sys2Proof.Machine.execBtGetLength s
  | .btGetBuffer => Sys2Proof.Machine.execBtGetBuffer s

end Sys2Proof.Machine
end

