-- ==== Sys2Proof/Machine/Host.lean ====
section
/-! DEFINITION. The host interface: running a presented command (R261), the host's other moves (R74, R280), and what
the host reads (R31, R32, R74). -/

namespace Sys2Proof.Machine

/-- Step(CMD, OPA, OPB) (R261): a command that does not decode is ILLEGAL (causes I1, I2); the other causes are in the
meanings. -/
def runCommand (c : Command) (s : State) : Out :=
  match decode c with
  | .instr i => exec i s
  | .illegal _ => .next s.illegal

/-- The host writes one byte of MEM between commands (R74): a plain write (R69); a fault outside MEM (log 6). -/
def hostWrite (addr : Word) (v : Byte) (s : State) : Out :=
  if addr.toNat < s.mem.size then .next { s with mem := s.mem.write addr.toNat v }
  else .fault (.hostOutsideMem addr.toNat)

/-- Reset (R280): every register as R45 says; MEM is not written; the model's own fields, the host's coming
moves (log 7) and the count of free values, stay. -/
def applyReset (s : State) : State :=
  { State.resetWith s.mem with host := s.host, freeDraws := s.freeDraws }

/-- One move of the host. -/
def runMove (mv : HostMove) (s : State) : Out :=
  match mv with
  | .command c => runCommand c s
  | .memWrite addr v => hostWrite addr v s
  | .reset => .next (applyReset s)

/-- The byte the host reads at an address of MEM between commands (R74): no side effect (R69); nothing outside MEM. -/
def hostRead (s : State) (addr : Word) : Option Byte :=
  if addr.toNat < s.mem.size then some (s.mem.read addr.toNat) else none

/-- The state with a command placed as the host's next move. -/
def presentCommand (c : Command) (s : State) : State := { s with host := .command c :: s.host }

end Sys2Proof.Machine
end

