-- ==== Sys2Proof/Machine/Step.lean ====
section
/-! DEFINITION. One step: the host's next move (R4, R73). With no move pending the block is idle (R270, R281; log 2). -/

namespace Sys2Proof.Machine

/-- One step of the block: take the host's next move and perform it. -/
def step (s : State) : Host.Outcome State Fault Refusal :=
  match s.host with
  | [] => .next s
  | mv :: rest => runMove mv { s with host := rest }

/-- The state in which the command whose bits are `w` (CMD in bits 31..0, OPA in 63..32, OPB in 95..64) is the host's next
move, so that the next step runs it (log 1, log 8). -/
def State.withFetchWord (s : State) (nbits w : Nat) : State := presentCommand (commandOfBits nbits w) s

end Sys2Proof.Machine
end

