-- ==== Sys2Proof/Machine/Assembler.lean ====
section
/-! DEFINITION. The assembler (R99) and its pseudo-instructions (R100, R101): host-side software over the 37 commands. -/

namespace Sys2Proof

/-- Why the assembler refuses a line. -/
inductive AsmError where
  /-- No form of R99, R100 or R101 has this mnemonic. -/
  | unknownMnemonic
  /-- The form takes another number of operands. -/
  | operandCount
  /-- An operand does not fit its field (R99), or n is not in 1..8 (R100). -/
  | operandRange
  /-- An operand is no decimal, 0x or 0b number (R99). -/
  | badNumber
deriving DecidableEq, Repr

/-- What a form makes of its operands. -/
abbrev AsmForm := List Nat → Except AsmError Instr

/-- An operand that is a whole operand word. -/
def asmWord (n : Nat) : Except AsmError Word :=
  if n < 2 ^ 32 then .ok (BitVec.ofNat 32 n) else .error .operandRange

/-- A form with no operand. -/
def asmForm0 (i : Instr) : AsmForm
  | [] => .ok i
  | _ :: _ => .error .operandCount

/-- A form with one word operand. -/
def asmForm1 (f : Word → Instr) : AsmForm
  | [x] => do return f (← asmWord x)
  | _ => .error .operandCount

/-- A form with two word operands. -/
def asmForm2 (f : Word → Word → Instr) : AsmForm
  | [x, y] => do return f (← asmWord x) (← asmWord y)
  | _ => .error .operandCount

/-- A slice extract: x, begin, end. -/
def asmSliceGet (f : Nat → Nat → Word → Instr) : AsmForm
  | [x, b, e] => do return f b e (← asmWord x)
  | _ => .error .operandCount

/-- x, begin, end, v. -/
def asmSliceSet : AsmForm
  | [x, b, e, v] => do return .slSetByteSlice b e (← asmWord x) (← asmWord v)
  | _ => .error .operandCount

/-- begin, end, v. -/
def asmSlicePatch : AsmForm
  | [b, e, v] => do return .bySetByteSlice b e (← asmWord v)
  | _ => .error .operandCount

/-- n. -/
def asmGetBit : AsmForm
  | [n] => .ok (.btGetBit n)
  | _ => .error .operandCount

/-- n, v. -/
def asmSetBit : AsmForm
  | [n, v] => do return .btSetBit n (← asmWord v)
  | _ => .error .operandCount

/-- pos, n. -/
def asmGetBitByPos : AsmForm
  | [pos, n] => do return .btGetBitByPos n (← asmWord pos)
  | _ => .error .operandCount

/-- pos, n, v. -/
def asmSetBitByPos : AsmForm
  | [pos, n, v] => do return .btSetBitByPos n (← asmWord pos) (← asmWord v)
  | _ => .error .operandCount

/-- A slice convenience function: the assembler refuses n outside 1..8 (R100). -/
def asmConvenience (n : Nat) (r : Except AsmError Instr) : Except AsmError Instr :=
  if 1 ≤ n ∧ n ≤ 8 then r else .error .operandRange

/-- `sl.gethi x, n` is `sl.getbyteslice x, 7, 8-n` (R100). -/
def asmGetHi : AsmForm
  | [x, n] => asmConvenience n (asmSliceGet .slGetByteSlice [x, 7, 8 - n])
  | _ => .error .operandCount

/-- `sl.getlow x, n` is `sl.getbyteslice x, n-1, 0` (R100). -/
def asmGetLow : AsmForm
  | [x, n] => asmConvenience n (asmSliceGet .slGetByteSlice [x, n - 1, 0])
  | _ => .error .operandCount

/-- `sl.sethi x, n, v` is `sl.setbyteslice x, 7, 8-n, v` (R100). -/
def asmSetHi : AsmForm
  | [x, n, v] => asmConvenience n (asmSliceSet [x, 7, 8 - n, v])
  | _ => .error .operandCount

/-- `sl.setlow x, n, v` is `sl.setbyteslice x, n-1, 0, v` (R100). -/
def asmSetLow : AsmForm
  | [x, n, v] => asmConvenience n (asmSliceSet [x, n - 1, 0, v])
  | _ => .error .operandCount

/-- The Slice Arithmetic forms (R99, R100). -/
def sliceForms : List (String × AsmForm) := [
  ("sl.getbyteslice", asmSliceGet .slGetByteSlice),
  ("sl.setbyteslice", asmSliceSet),
  ("sl.getshortslice", asmSliceGet .slGetShortSlice),
  ("sl.getintslice", asmSliceGet .slGetIntSlice),
  ("sl.gethi", asmGetHi),
  ("sl.getlow", asmGetLow),
  ("sl.sethi", asmSetHi),
  ("sl.setlow", asmSetLow)]

/-- The Byte Stream forms (R99). -/
def byteForms : List (String × AsmForm) := [
  ("by.init.dec", asmForm2 (.byInit .decode)),
  ("by.init.enc", asmForm2 (.byInit .encode)),
  ("by.forward", asmForm1 .byForward),
  ("by.back", asmForm1 .byBack),
  ("by.getbyte", asmForm0 .byGetByte),
  ("by.getword", asmForm0 .byGetWord),
  ("by.getdword", asmForm0 .byGetDword),
  ("by.setbyte", asmForm1 .bySetByte),
  ("by.setword", asmForm1 .bySetWord),
  ("by.setdword", asmForm1 .bySetDword),
  ("by.setbyteslice", asmSlicePatch),
  ("by.getbytebypos", asmForm1 .byGetByteByPos),
  ("by.getwordbypos", asmForm1 .byGetWordByPos),
  ("by.getdwordbypos", asmForm1 .byGetDwordByPos),
  ("by.setbytebypos", asmForm2 .bySetByteByPos),
  ("by.setwordbypos", asmForm2 .bySetWordByPos),
  ("by.setdwordbypos", asmForm2 .bySetDwordByPos),
  ("by.getbitstream", asmForm1 .byGetBitStream),
  ("by.getpos", asmForm0 .byGetPos),
  ("by.geterror", asmForm0 .byGetError),
  ("by.getlength", asmForm0 .byGetLength),
  ("by.getbuffer", asmForm0 .byGetBuffer)]

/-- The Bit Stream forms (R99). -/
def bitForms : List (String × AsmForm) := [
  ("bt.init.dec", asmForm2 (.btInit .decode)),
  ("bt.init.enc", asmForm2 (.btInit .encode)),
  ("bt.forward", asmForm1 .btForward),
  ("bt.back", asmForm1 .btBack),
  ("bt.getbit", asmGetBit),
  ("bt.setbit", asmSetBit),
  ("bt.getbitbypos", asmGetBitByPos),
  ("bt.setbitbypos", asmSetBitByPos),
  ("bt.getpos", asmForm0 .btGetPos),
  ("bt.getbytepos", asmForm0 .btGetBytePos),
  ("bt.geterror", asmForm0 .btGetError),
  ("bt.getlength", asmForm0 .btGetLength),
  ("bt.getbuffer", asmForm0 .btGetBuffer)]

/-- The Bit Stream's fixed-width pseudo-instructions (R101): widths 8, 16 and 32; pos is a bit position. -/
def fixedWidthForms : List (String × AsmForm) := [
  ("bt.getbyte", asmForm0 (.btGetBit 8)),
  ("bt.getword", asmForm0 (.btGetBit 16)),
  ("bt.getdword", asmForm0 (.btGetBit 32)),
  ("bt.setbyte", asmForm1 (.btSetBit 8)),
  ("bt.setword", asmForm1 (.btSetBit 16)),
  ("bt.setdword", asmForm1 (.btSetBit 32)),
  ("bt.getbytebypos", asmForm1 (.btGetBitByPos 8)),
  ("bt.getwordbypos", asmForm1 (.btGetBitByPos 16)),
  ("bt.getdwordbypos", asmForm1 (.btGetBitByPos 32)),
  ("bt.setbytebypos", asmForm2 (.btSetBitByPos 8)),
  ("bt.setwordbypos", asmForm2 (.btSetBitByPos 16)),
  ("bt.setdwordbypos", asmForm2 (.btSetBitByPos 32))]

/-- The assembler's forms. -/
def asmForms : List (String × AsmForm) := sliceForms ++ byteForms ++ bitForms ++ fixedWidthForms

/-- One mnemonic and its operands (R99): the instruction, refused where an operand does not fit its field. -/
def assemble (mnemonic : String) (operands : List Nat) : Except AsmError Instr :=
  match asmForms.find? (fun f => f.1 == mnemonic) with
  | none => .error .unknownMnemonic
  | some f =>
    match f.2 operands with
    | .error e => .error e
    | .ok i => if i.wf then .ok i else .error .operandRange

/-! ### The text of a line (R99; log 11) -/

/-- The value of a digit. -/
def digitValue (c : Char) : Option Nat :=
  if '0' ≤ c ∧ c ≤ '9' then some (c.toNat - '0'.toNat)
  else if 'a' ≤ c ∧ c ≤ 'f' then some (c.toNat - 'a'.toNat + 10)
  else if 'A' ≤ c ∧ c ≤ 'F' then some (c.toNat - 'A'.toNat + 10)
  else none

/-- Digits in a base, after a value already read. -/
def readDigits (base acc : Nat) : List Char → Option Nat
  | [] => some acc
  | c :: cs =>
    match digitValue c with
    | some d => if d < base then readDigits base (acc * base + d) cs else none
    | none => none

/-- A decimal, 0x hexadecimal or 0b binary number (R99). -/
def readNumber : List Char → Option Nat
  | '0' :: 'x' :: d :: ds => readDigits 16 0 (d :: ds)
  | '0' :: 'b' :: d :: ds => readDigits 2 0 (d :: ds)
  | d :: ds => readDigits 10 0 (d :: ds)
  | [] => none

/-- Cut a line at a separator. -/
def splitChars (sep : Char) : List Char → List (List Char)
  | [] => [[]]
  | c :: cs =>
    if c = sep then [] :: splitChars sep cs
    else
      match splitChars sep cs with
      | [] => [[c]]
      | w :: ws => (c :: w) :: ws

/-- The operands of a line, separated by commas, blanks dropped; none in a blank text. -/
def readOperands (text : List Char) : Option (List Nat) :=
  let text := text.filter (· != ' ')
  if text.isEmpty then some [] else (splitChars ',' text).mapM readNumber

/-- One line of assembly (R99): a mnemonic, then its operands. -/
def assembleLine (line : List Char) : Except AsmError Instr :=
  let line := line.dropWhile (· == ' ')
  match readOperands (line.dropWhile (· != ' ')) with
  | none => .error .badNumber
  | some ops => assemble (String.ofList (line.takeWhile (· != ' '))) ops

end Sys2Proof
end

