-- ==== Sys2Proof/Safety.lean ====
section
/-! DEFINITION. The invariant of the block's state (R32, R36, R39, U12), what a safe run is (R258, R287), and the
software views' command subsets (R8). -/

namespace Sys2Proof.Machine

/-- The Byte Stream invariant (R36), with ERR one of the codes of R251 (U12). -/
abbrev Context.byteInv (c : Context) (memBytes : Nat) : Prop :=
  c.cur.toNat ≤ c.len.toNat ∧ c.err.toNat ≤ 5 ∧ (c.valid = true → c.base.toNat + c.len.toNat ≤ memBytes)

/-- The Bit Stream invariant (R37, R39), with ERR one of the codes of R251 (U12). -/
abbrev Context.bitInv (c : Context) (memBytes : Nat) : Prop :=
  c.cur.toNat ≤ c.bitLen ∧ c.len.toNat ≤ Config.maxBitCap ∧ c.err.toNat ≤ 5
    ∧ (c.valid = true → c.base.toNat + c.len.toNat ≤ memBytes)

/-- The invariant every step keeps: MEM in canonical form, STATUS's reserved bits 0 and ILLS set whenever ILL is (R32,
R258), and both contexts' invariants. -/
abbrev State.Inv (s : State) : Prop :=
  s.mem.wf ∧ (s.status.toNat < 4 ∧ (s.ill = true → s.ills = true))
    ∧ s.byteCtx.byteInv s.mem.size ∧ s.bitCtx.bitInv s.mem.size

/-- A run of k steps that claims may speak of: it meets no fault, and no command of it was ILLEGAL (R258: "a claim about a
command sequence takes ILLS = 0 at its end as a premise"). -/
def SafeRun (k : Nat) (s t : State) : Prop := Host.Core.run Sys2Proof.core k s = .next t ∧ t.ills = false

/-- The batch error check at the end of a field sequence (R287): both contexts' codes are OK. -/
def State.batchOk (s : State) : Prop := s.byteCtx.err = ErrorKind.ok.code ∧ s.bitCtx.err = ErrorKind.ok.code

end Sys2Proof.Machine

namespace Sys2Proof

/-- The kinds of command the views of R8 speak of. -/
inductive CommandKind where
  | slice
  | init
  | move
  | get
  | set
  | handoff
  | position
  | error
  | length
  | buffer
deriving DecidableEq, Repr

/-- The kind of each command (R93, R94). -/
def Instr.kind : Instr → CommandKind
  | .slGetByteSlice _ _ _ | .slSetByteSlice _ _ _ _ | .slGetShortSlice _ _ _ | .slGetIntSlice _ _ _ => .slice
  | .byInit _ _ _ | .btInit _ _ _ => .init
  | .byForward _ | .byBack _ | .btForward _ | .btBack _ => .move
  | .byGetByte | .byGetWord | .byGetDword => .get
  | .byGetByteByPos _ | .byGetWordByPos _ | .byGetDwordByPos _ => .get
  | .btGetBit _ | .btGetBitByPos _ _ => .get
  | .bySetByte _ | .bySetWord _ | .bySetDword _ | .bySetByteSlice _ _ _ => .set
  | .bySetByteByPos _ _ | .bySetWordByPos _ _ | .bySetDwordByPos _ _ => .set
  | .btSetBit _ _ | .btSetBitByPos _ _ _ => .set
  | .byGetBitStream _ => .handoff
  | .byGetPos | .btGetPos | .btGetBytePos => .position
  | .byGetError | .btGetError => .error
  | .byGetLength | .btGetLength => .length
  | .byGetBuffer | .btGetBuffer => .buffer

/-- The commands software issues through an Input view (R8). The block does not enforce it. -/
def Instr.inputView (i : Instr) : Bool :=
  match i.kind with
  | .get | .move | .position | .error | .length => true
  | .slice | .init | .set | .handoff | .buffer => false

/-- The commands software issues through an Output view (R8). The block does not enforce it. -/
def Instr.outputView (i : Instr) : Bool :=
  match i.kind with
  | .set | .position | .error | .length | .buffer => true
  | .slice | .init | .move | .get | .handoff => false

end Sys2Proof
end

