-- ==== Sys2Proof/Certificates/Slice0/Obligations.lean ====
section
/-! DEFINITION. The statements for the provers, each from rules of spec/, and the few notions they are written with. -/

open Sys2Proof Sys2Proof.Machine

/-! ### Notions the statements use, written apart from the model's own operations -/

/-- Bits lo+width-1 down to lo of a command word, as a number (R91). -/
abbrev Sys2Proof.Machine.cmdField (cmd : Word) (lo width : Nat) : Nat := cmd.toNat / 2 ^ lo % 2 ^ width

/-- OP as a number (R91). -/
abbrev Sys2Proof.Machine.opNumber (cmd : Word) : Nat := cmdField cmd 0 8

/-- OP is in a row of R94: the ranges of R93. -/
abbrev Sys2Proof.Machine.opListed (op : Nat) : Prop :=
  (1 ≤ op ∧ op ≤ 4) ∨ (0x10 ≤ op ∧ op ≤ 0x24) ∨ (0x30 ≤ op ∧ op ≤ 0x3B)

/-- The opcode uses BEGIN and END (R94). -/
abbrev Sys2Proof.Machine.opUsesSlice (op : Nat) : Prop := (1 ≤ op ∧ op ≤ 4) ∨ op = 0x19

/-- The opcode uses M (R94). -/
abbrev Sys2Proof.Machine.opUsesMode (op : Nat) : Prop := op = 0x10 ∨ op = 0x30

/-- The opcode uses N (R94). -/
abbrev Sys2Proof.Machine.opUsesWidth (op : Nat) : Prop := 0x33 ≤ op ∧ op ≤ 0x36

/-- RSV is 0, and so is every field the opcode does not use (R95). -/
abbrev Sys2Proof.Machine.unusedFieldsClear (cmd : Word) : Prop :=
  cmdField cmd 27 5 = 0
    ∧ (opUsesWidth (opNumber cmd) ∨ cmdField cmd 8 8 = 0)
    ∧ (opUsesSlice (opNumber cmd) ∨ cmdField cmd 16 5 = 0 ∧ cmdField cmd 21 5 = 0)
    ∧ (opUsesMode (opNumber cmd) ∨ cmdField cmd 26 1 = 0)

/-- The causes I1 to I7 of R259. -/
abbrev Sys2Proof.Machine.illegalCause (s : State) (c : Command) : Prop :=
  ¬ opListed (opNumber c.cmd)
    ∨ ¬ unusedFieldsClear c.cmd
    ∨ (0x11 ≤ opNumber c.cmd ∧ opNumber c.cmd ≤ 0x24 ∧ s.byteCtx.valid = false)
    ∨ (0x31 ≤ opNumber c.cmd ∧ opNumber c.cmd ≤ 0x3B ∧ s.bitCtx.valid = false)
    ∨ (opUsesMode (opNumber c.cmd) ∧ s.mem.size < c.opa.toNat + c.opb.toNat)
    ∨ (opNumber c.cmd = 0x30 ∧ 2 ^ 29 - 1 < c.opb.toNat)
    ∨ (opNumber c.cmd = 0x20
        ∧ (s.byteCtx.len.toNat < s.byteCtx.cur.toNat + c.opa.toNat ∨ 2 ^ 29 - 1 < c.opa.toNat))

/-- The opcode of an instruction as a number (R94). -/
abbrev Sys2Proof.Machine.op (i : Instr) : Nat := i.opcode.toNat

/-- The k bytes from address a as one number, most significant first (R63). -/
def Sys2Proof.Machine.bigEndian (m : Memory) (a k : Nat) : Nat :=
  ((List.range k).map fun j => (m.read (a + j)).toNat * 256 ^ (k - 1 - j)).sum

/-- m' is m with the first r bytes of the k-byte big-endian value v stored from address a (R63), and every other byte as
in m. -/
def Sys2Proof.Machine.storesLeading (m m' : Memory) (a k r v : Nat) : Prop :=
  m'.size = m.size
    ∧ ∀ x, m'.read x = if a ≤ x ∧ x < a + r then BitVec.ofNat 8 (v / 256 ^ (k - 1 - (x - a))) else m.read x

/-- The stream bit position, in a window at base, of bit j of the byte at address a (R17). -/
def Sys2Proof.Machine.streamPos (base a j : Nat) : Nat := 8 * (a - base) + (7 - j)

/-- m' is m with the n-bit value v in the field at stream bit position p of the window at base, most significant bit
first (R17, R209), and every other bit as in m. -/
def Sys2Proof.Machine.fieldWritten (m m' : Memory) (base p n v : Nat) : Prop :=
  m'.size = m.size
    ∧ ∀ a j, j < 8 → (m'.read a).getLsbD j =
        if base ≤ a ∧ p ≤ streamPos base a j ∧ streamPos base a j < p + n
        then v.testBit (n - 1 - (streamPos base a j - p)) else (m.read a).getLsbD j

/-- m' is m with 0 in every byte of the window base .. base+len-1, and every other byte as in m (R79). -/
def Sys2Proof.Machine.zeroFilled (m m' : Memory) (base len : Nat) : Prop :=
  m'.size = m.size ∧ ∀ x, m'.read x = if base ≤ x ∧ x < base + len then 0 else m.read x

/-- The addresses of the window of the context a command names (R61, R62): the new window for an INIT. -/
def Sys2Proof.Machine.inWindow (i : Instr) (s : State) (a : Nat) : Prop :=
  match i with
  | .byInit _ base len | .btInit _ base len => base.toNat ≤ a ∧ a < base.toNat + len.toNat
  | _ =>
    (0x11 ≤ op i ∧ op i ≤ 0x24 ∧ s.byteCtx.base.toNat ≤ a ∧ a < s.byteCtx.base.toNat + s.byteCtx.len.toNat)
      ∨ (0x31 ≤ op i ∧ op i ≤ 0x3B ∧ s.bitCtx.base.toNat ≤ a ∧ a < s.bitCtx.base.toNat + s.bitCtx.len.toNat)

/-- Apply f to the state of an outcome that goes on. -/
def Sys2Proof.Machine.onNext (f : State → State) (o : Out) : Out :=
  match o with
  | .next t => .next (f t)
  | .fault r => .fault r
  | .refused r => .refused r

/-! ### Encoding -/

/-- R102: the four worked lines assemble, encode to the words the rule gives, and decode back. -/
def Obligations.WorkedLinesEncodeAsStated : Prop :=
  (assembleLine "bt.setbit 4, 0b1010".toList = .ok (.btSetBit 4 0xA)
    ∧ encode (.btSetBit 4 0xA) = ⟨0x00000434, 0x0000000A, 0⟩
    ∧ decode ⟨0x00000434, 0x0000000A, 0⟩ = .instr (.btSetBit 4 0xA))
  ∧ (assembleLine "sl.getbyteslice 0xA5, 7, 4".toList = .ok (.slGetByteSlice 7 4 0xA5)
    ∧ encode (.slGetByteSlice 7 4 0xA5) = ⟨0x00870001, 0x000000A5, 0⟩
    ∧ decode ⟨0x00870001, 0x000000A5, 0⟩ = .instr (.slGetByteSlice 7 4 0xA5))
  ∧ (assembleLine "by.init.enc 0x100, 4".toList = .ok (.byInit .encode 0x100 4)
    ∧ encode (.byInit .encode 0x100 4) = ⟨0x04000010, 0x00000100, 0x00000004⟩
    ∧ decode ⟨0x04000010, 0x00000100, 0x00000004⟩ = .instr (.byInit .encode 0x100 4))
  ∧ (assembleLine "bt.getbitbypos 0, 8".toList = .ok (.btGetBitByPos 8 0)
    ∧ encode (.btGetBitByPos 8 0) = ⟨0x00000835, 0, 0⟩
    ∧ decode ⟨0x00000835, 0, 0⟩ = .instr (.btGetBitByPos 8 0))

/-- R94, with the fields of R91: what each row of the opcode table decodes to, at every value of its fields and operand
words, the words it does not name ignored (R95). -/
def Obligations.EachRowDecodesToItsInstruction : Prop :=
  (∀ (b e : Nat) (x y : Word), b < 32 → e < 32 →
    decode ⟨BitVec.ofNat 32 (0x01 + b * 2 ^ 16 + e * 2 ^ 21), x, y⟩ = .instr (.slGetByteSlice b e x)
    ∧ decode ⟨BitVec.ofNat 32 (0x02 + b * 2 ^ 16 + e * 2 ^ 21), x, y⟩ = .instr (.slSetByteSlice b e x y)
    ∧ decode ⟨BitVec.ofNat 32 (0x03 + b * 2 ^ 16 + e * 2 ^ 21), x, y⟩ = .instr (.slGetShortSlice b e x)
    ∧ decode ⟨BitVec.ofNat 32 (0x04 + b * 2 ^ 16 + e * 2 ^ 21), x, y⟩ = .instr (.slGetIntSlice b e x)
    ∧ decode ⟨BitVec.ofNat 32 (0x19 + b * 2 ^ 16 + e * 2 ^ 21), x, y⟩ = .instr (.bySetByteSlice b e x))
  ∧ (∀ x y : Word,
    decode ⟨0x10, x, y⟩ = .instr (.byInit .decode x y)
    ∧ decode ⟨0x04000010, x, y⟩ = .instr (.byInit .encode x y)
    ∧ decode ⟨0x11, x, y⟩ = .instr (.byForward x)
    ∧ decode ⟨0x12, x, y⟩ = .instr (.byBack x)
    ∧ decode ⟨0x13, x, y⟩ = .instr .byGetByte
    ∧ decode ⟨0x14, x, y⟩ = .instr .byGetWord
    ∧ decode ⟨0x15, x, y⟩ = .instr .byGetDword
    ∧ decode ⟨0x16, x, y⟩ = .instr (.bySetByte x)
    ∧ decode ⟨0x17, x, y⟩ = .instr (.bySetWord x)
    ∧ decode ⟨0x18, x, y⟩ = .instr (.bySetDword x)
    ∧ decode ⟨0x1A, x, y⟩ = .instr (.byGetByteByPos x)
    ∧ decode ⟨0x1B, x, y⟩ = .instr (.byGetWordByPos x)
    ∧ decode ⟨0x1C, x, y⟩ = .instr (.byGetDwordByPos x)
    ∧ decode ⟨0x1D, x, y⟩ = .instr (.bySetByteByPos x y)
    ∧ decode ⟨0x1E, x, y⟩ = .instr (.bySetWordByPos x y)
    ∧ decode ⟨0x1F, x, y⟩ = .instr (.bySetDwordByPos x y)
    ∧ decode ⟨0x20, x, y⟩ = .instr (.byGetBitStream x)
    ∧ decode ⟨0x21, x, y⟩ = .instr .byGetPos
    ∧ decode ⟨0x22, x, y⟩ = .instr .byGetError
    ∧ decode ⟨0x23, x, y⟩ = .instr .byGetLength
    ∧ decode ⟨0x24, x, y⟩ = .instr .byGetBuffer)
  ∧ (∀ x y : Word,
    decode ⟨0x30, x, y⟩ = .instr (.btInit .decode x y)
    ∧ decode ⟨0x04000030, x, y⟩ = .instr (.btInit .encode x y)
    ∧ decode ⟨0x31, x, y⟩ = .instr (.btForward x)
    ∧ decode ⟨0x32, x, y⟩ = .instr (.btBack x)
    ∧ decode ⟨0x37, x, y⟩ = .instr .btGetPos
    ∧ decode ⟨0x38, x, y⟩ = .instr .btGetBytePos
    ∧ decode ⟨0x39, x, y⟩ = .instr .btGetError
    ∧ decode ⟨0x3A, x, y⟩ = .instr .btGetLength
    ∧ decode ⟨0x3B, x, y⟩ = .instr .btGetBuffer)
  ∧ (∀ (n : Nat) (x y : Word), n < 256 →
    decode ⟨BitVec.ofNat 32 (0x33 + n * 2 ^ 8), x, y⟩ = .instr (.btGetBit n)
    ∧ decode ⟨BitVec.ofNat 32 (0x34 + n * 2 ^ 8), x, y⟩ = .instr (.btSetBit n x)
    ∧ decode ⟨BitVec.ofNat 32 (0x35 + n * 2 ^ 8), x, y⟩ = .instr (.btGetBitByPos n x)
    ∧ decode ⟨BitVec.ofNat 32 (0x36 + n * 2 ^ 8), x, y⟩ = .instr (.btSetBitByPos n x y))

/-- Decoding the encoding of a well-formed instruction gives it back, at every value of every operand (R91, R94). -/
def Obligations.DecodeOfEncodeIsInstruction : Prop :=
  ∀ i : Instr, i.wf = true → decode (encode i) = .instr i

/-- Every command that decodes decodes to a well-formed instruction whose encoding has the same command word; and the
operand words of that encoding are the command's or 0 (R91, R94, R95). -/
def Obligations.DecodedCommandReencodes : Prop :=
  ∀ (c : Command) (i : Instr), decode c = .instr i →
    i.wf = true ∧ (encode i).cmd = c.cmd
      ∧ ((encode i).opa = c.opa ∨ (encode i).opa = 0) ∧ ((encode i).opb = c.opb ∨ (encode i).opb = 0)

/-- R95, R96, R98: a command decodes exactly where its OP is listed and its unused fields and RSV are 0, whatever the
operand words; it then decodes to the row of its OP; otherwise it is illegal, by name. -/
def Obligations.DecodeAcceptsExactlyTheTable : Prop :=
  ∀ c : Command,
    ((∃ i, decode c = .instr i ∧ op i = opNumber c.cmd)
      ↔ opListed (opNumber c.cmd) ∧ unusedFieldsClear c.cmd)
    ∧ (decode c = .illegal .reservedOp ↔ ¬ opListed (opNumber c.cmd))
    ∧ (decode c = .illegal .reservedField ↔ opListed (opNumber c.cmd) ∧ ¬ unusedFieldsClear c.cmd)

/-- R92: where a command names only low bits of an operand, the bits above them make no difference. -/
def Obligations.UnnamedOperandBitsMakeNoDifference : Prop :=
  ∀ (s : State) (b e : Nat) (pos v w x : Word),
    (v.toNat % 2 ^ 8 = w.toNat % 2 ^ 8 →
      exec (.slGetByteSlice b e v) s = exec (.slGetByteSlice b e w) s
      ∧ exec (.slSetByteSlice b e v x) s = exec (.slSetByteSlice b e w x) s
      ∧ exec (.bySetByte v) s = exec (.bySetByte w) s
      ∧ exec (.bySetByteByPos pos v) s = exec (.bySetByteByPos pos w) s)
    ∧ (v.toNat % 2 ^ 16 = w.toNat % 2 ^ 16 →
      exec (.slGetShortSlice b e v) s = exec (.slGetShortSlice b e w) s
      ∧ exec (.bySetWord v) s = exec (.bySetWord w) s
      ∧ exec (.bySetWordByPos pos v) s = exec (.bySetWordByPos pos w) s)

/-- R100, R101: each pseudo-instruction assembles to its expansion, and the convenience forms are refused for n outside
1..8. -/
def Obligations.PseudoInstructionsExpand : Prop :=
  (∀ x n v : Nat,
    (1 ≤ n ∧ n ≤ 8 →
      assemble "sl.gethi" [x, n] = assemble "sl.getbyteslice" [x, 7, 8 - n]
      ∧ assemble "sl.getlow" [x, n] = assemble "sl.getbyteslice" [x, n - 1, 0]
      ∧ assemble "sl.sethi" [x, n, v] = assemble "sl.setbyteslice" [x, 7, 8 - n, v]
      ∧ assemble "sl.setlow" [x, n, v] = assemble "sl.setbyteslice" [x, n - 1, 0, v])
    ∧ (¬ (1 ≤ n ∧ n ≤ 8) →
      assemble "sl.gethi" [x, n] = .error .operandRange
      ∧ assemble "sl.getlow" [x, n] = .error .operandRange
      ∧ assemble "sl.sethi" [x, n, v] = .error .operandRange
      ∧ assemble "sl.setlow" [x, n, v] = .error .operandRange))
  ∧ (∀ pos v : Nat,
      assemble "bt.getbyte" [] = assemble "bt.getbit" [8]
      ∧ assemble "bt.getword" [] = assemble "bt.getbit" [16]
      ∧ assemble "bt.getdword" [] = assemble "bt.getbit" [32]
      ∧ assemble "bt.setbyte" [v] = assemble "bt.setbit" [8, v]
      ∧ assemble "bt.setword" [v] = assemble "bt.setbit" [16, v]
      ∧ assemble "bt.setdword" [v] = assemble "bt.setbit" [32, v]
      ∧ assemble "bt.getbytebypos" [pos] = assemble "bt.getbitbypos" [pos, 8]
      ∧ assemble "bt.getwordbypos" [pos] = assemble "bt.getbitbypos" [pos, 16]
      ∧ assemble "bt.getdwordbypos" [pos] = assemble "bt.getbitbypos" [pos, 32]
      ∧ assemble "bt.setbytebypos" [pos, v] = assemble "bt.setbitbypos" [pos, 8, v]
      ∧ assemble "bt.setwordbypos" [pos, v] = assemble "bt.setbitbypos" [pos, 16, v]
      ∧ assemble "bt.setdwordbypos" [pos, v] = assemble "bt.setbitbypos" [pos, 32, v])

/-! ### A step -/

/-- R261: a step whose next host move is a command that decodes to i is exec of i, and a command that does not decode is
ILLEGAL. The last clause is the model's own choice, no rule's: a word placed by withFetchWord is the command the next step
runs (log 1), its operand words numbered above CMD (log 8). -/
def Obligations.StepRunsTheDecodedCommand : Prop :=
  (∀ (s : State) (c : Command) (rest : List HostMove) (i : Instr),
    s.host = .command c :: rest → decode c = .instr i → step s = exec i { s with host := rest })
  ∧ (∀ (s : State) (c : Command) (rest : List HostMove) (e : DecodeError),
    s.host = .command c :: rest → decode c = .illegal e →
      ∃ t, step s = .next t ∧ t = { s with host := rest, status := t.status } ∧ t.ill = true ∧ t.ills = true)
  ∧ (∀ (s : State) (nbits w : Nat) (i : Instr),
    decodeTableWord nbits w = some i → step (s.withFetchWord nbits w) = exec i s)

/-- R259, R260: a command for which a cause I1 to I7 holds changes nothing but ILL and ILLS, which become 1 (R258); any
other command goes on with ILL = 0 and ILLS unchanged. The reserved bits of STATUS stay in both cases (R32). -/
def Obligations.CommandIsIllegalExactlyForTheListedCauses : Prop :=
  ∀ (s : State) (c : Command) (rest : List HostMove), s.Inv → s.host = .command c :: rest →
    ∃ t, step s = .next t
      ∧ (illegalCause s c → t = { s with host := rest, status := t.status } ∧ t.ill = true ∧ t.ills = true)
      ∧ (¬ illegalCause s c → t.ill = false ∧ t.ills = s.ills)
      ∧ ∀ b, 2 ≤ b → t.status.getLsbD b = s.status.getLsbD b

/-- R45, R280: the register values that reset leaves, MEM as it was, and no command of an unbound context but its INIT is
accepted. That a reset is a move of the host's list (log 1), which keeps the list's later moves and the counter of free
values (log 7), is the model's own choice. -/
def Obligations.ResetLeavesTheStatedValues : Prop :=
  (∀ t : State, (t = State.reset ∨ (∃ m, t = State.resetWith m) ∨ ∃ s, t = applyReset s) →
    t.result = 0 ∧ t.status = 0
      ∧ t.byteCtx = { valid := false, base := 0, len := 0, cur := 0, err := 0 }
      ∧ t.bitCtx = { valid := false, base := 0, len := 0, cur := 0, err := 0 })
  ∧ (∀ m, (State.resetWith m).mem = m)
  ∧ (∀ (s : State) (rest : List HostMove), s.host = .reset :: rest →
      step s = .next (applyReset { s with host := rest }) ∧ (applyReset { s with host := rest }).mem = s.mem)
  ∧ (∀ (i : Instr) (s : State),
      (0x11 ≤ op i ∧ op i ≤ 0x24 ∧ s.byteCtx.valid = false) ∨ (0x31 ≤ op i ∧ op i ≤ 0x3B ∧ s.bitCtx.valid = false) →
      exec i s = .next s.illegal)

/-- R69, R74: a host write between commands changes that one byte of MEM and nothing else. Outside MEM the step faults,
and with no move pending the block is idle: both the model's choice (log 6, log 2). -/
def Obligations.HostWriteChangesOneByte : Prop :=
  (∀ (s : State) (addr : Word) (v : Byte) (rest : List HostMove), s.mem.wf → s.host = .memWrite addr v :: rest →
    if addr.toNat < s.mem.size then
      ∃ m, step s = .next { s with host := rest, mem := m } ∧ m.size = s.mem.size
        ∧ ∀ a, m.read a = if a = addr.toNat then v else s.mem.read a
    else step s = .fault (.hostOutsideMem addr.toNat))
  ∧ ∀ s : State, s.host = [] → step s = .next s

/-! ### Slice Arithmetic -/

/-- R126: SL_GETBYTESLICE answers bits b down to e of OPA[7:0] after swap and clamp (0 where the range is empty), in every
state, and changes nothing else. -/
def Obligations.GetByteSliceExtractsTheRange : Prop :=
  ∀ (ixBegin ixEnd : Nat) (x : Word) (s : State),
    ∃ r : Word, exec (.slGetByteSlice ixBegin ixEnd x) s = .next { s.accept with result := r }
      ∧ r.toNat = x.toNat % 256 % 2 ^ (min 7 (max ixBegin ixEnd) + 1) / 2 ^ min ixBegin ixEnd

/-- R127: SL_SETBYTESLICE answers OPA[7:0] with bits b down to e, after swap and clamp, replaced by the low bits of OPB,
and changes nothing else. -/
def Obligations.SetByteSliceReplacesTheRange : Prop :=
  ∀ (ixBegin ixEnd : Nat) (x v : Word) (s : State),
    ∃ r : Word, exec (.slSetByteSlice ixBegin ixEnd x v) s = .next { s.accept with result := r }
      ∧ r.toNat < 256
      ∧ ∀ j, j < 8 → r.getLsbD j =
          if min ixBegin ixEnd ≤ j ∧ j ≤ max ixBegin ixEnd then v.getLsbD (j - min ixBegin ixEnd) else x.getLsbD j

/-- R128, R129: SL_GETSHORTSLICE and SL_GETINTSLICE answer bits b down to e after a swap and no clamp, and change nothing
else. -/
def Obligations.WideSlicesExtractTheRange : Prop :=
  ∀ (ixBegin ixEnd : Nat) (x : Word) (s : State),
    (∃ r : Word, exec (.slGetShortSlice ixBegin ixEnd x) s = .next { s.accept with result := r }
      ∧ r.toNat = x.toNat % 2 ^ 16 % 2 ^ (max ixBegin ixEnd + 1) / 2 ^ min ixBegin ixEnd)
    ∧ (∃ r : Word, exec (.slGetIntSlice ixBegin ixEnd x) s = .next { s.accept with result := r }
      ∧ r.toNat = x.toNat % 2 ^ (max ixBegin ixEnd + 1) / 2 ^ min ixBegin ixEnd)

/-- R130: set then get over the same range gives the low bits of the value, at the width of the normalised range; the
order of the indices makes no difference; and no bit outside the range changes. -/
def Obligations.SliceFunctionsRoundTrip : Prop :=
  (∀ (x : Byte) (b e v : Nat), b < 8 → e < 8 →
    (getByteSlice (setByteSlice x b e v) b e).toNat = v % 2 ^ (max b e - min b e + 1))
  ∧ (∀ (x : Byte) (b e v : Nat), min b e < 8 →
    (getByteSlice (setByteSlice x b e v) b e).toNat = v % 2 ^ (min 7 (max b e) - min b e + 1))
  ∧ (∀ (x : Byte) (y : BitVec 16) (z : BitVec 32) (b e v : Nat),
    getByteSlice x b e = getByteSlice x e b ∧ setByteSlice x b e v = setByteSlice x e b v
      ∧ getWideSlice y b e = getWideSlice y e b ∧ getWideSlice z b e = getWideSlice z e b)
  ∧ (∀ (x : Byte) (b e v j : Nat), j < min b e ∨ min 7 (max b e) < j →
    (setByteSlice x b e v).getLsbD j = x.getLsbD j)

/-- R131: the convenience functions are the slices the rule names: the high and the low n bits. -/
def Obligations.ConvenienceFunctionsTakeHighAndLowBits : Prop :=
  (∀ (x : Byte) (n v : Nat), 1 ≤ n → n ≤ 8 →
    getHi x n = getByteSlice x 7 (8 - n) ∧ (getHi x n).toNat = x.toNat / 2 ^ (8 - n)
    ∧ getLow x n = getByteSlice x (n - 1) 0 ∧ (getLow x n).toNat = x.toNat % 2 ^ n
    ∧ setHi x n v = setByteSlice x 7 (8 - n) v
    ∧ (setHi x n v).toNat = v % 2 ^ n * 2 ^ (8 - n) + x.toNat % 2 ^ (8 - n)
    ∧ setLow x n v = setByteSlice x (n - 1) 0 v
    ∧ (setLow x n v).toNat = x.toNat / 2 ^ n * 2 ^ n + v % 2 ^ n)
  ∧ getHi 0xA5 3 = 5 ∧ setLow 0xF0 4 3 = 0xF3

/-! ### Byte Stream -/

/-- R150: every Byte Stream command but BY_INIT is ILLEGAL on an unbound BY and changes nothing but STATUS; one that is not
rejected leaves ILL = 0; and none but BY_GETBITSTREAM reads or writes the BT context. -/
def Obligations.ByteStreamCommandsNeedTheirContextOnly : Prop :=
  ∀ (i : Instr) (s : State), 0x10 ≤ op i → op i ≤ 0x24 →
    (op i ≠ 0x10 → s.byteCtx.valid = false →
      exec i s = .next s.illegal ∧ s.illegal = { s with status := s.illegal.status })
    ∧ (∀ t, exec i s = .next t → t = s.illegal ∨ t.ill = false)
    ∧ (op i ≠ 0x20 → ∀ c : Context,
        exec i { s with bitCtx := c } = onNext (fun t => { t with bitCtx := c }) (exec i s))

/-- R151: BY_INIT binds BY with cursor 0 and ERR = OK where the window fits MEM, zero-filling exactly the window in encode
mode; otherwise it is ILLEGAL. -/
def Obligations.ByInitBindsTheWindow : Prop :=
  ∀ (mode : Mode) (base len : Word) (s : State),
    if base.toNat + len.toNat ≤ s.mem.size then
      ∃ m, exec (.byInit mode base len) s =
          .next { s.accept with byteCtx := { valid := true, base := base, len := len, cur := 0, err := 0 }, mem := m }
        ∧ (mode = .decode → m = s.mem) ∧ (mode = .encode → zeroFilled s.mem m base.toNat len.toNat)
    else exec (.byInit mode base len) s = .next s.illegal

/-- R152, R153: BY_FORWARD moves the cursor while it stays below L and BY_BACK while it stays at or above 0, with exact
sums; otherwise MoveOverrun and the cursor stays. Nothing else changes. -/
def Obligations.ByteCursorMovesWithinItsBounds : Prop :=
  ∀ (n : Word) (s : State), s.Inv → s.byteCtx.valid = true →
    (if s.byteCtx.cur.toNat + n.toNat < s.byteCtx.len.toNat then
      ∃ c : Word, exec (.byForward n) s = .next { s.accept with byteCtx := { s.byteCtx with cur := c } }
        ∧ c.toNat = s.byteCtx.cur.toNat + n.toNat
    else exec (.byForward n) s = .next { s.accept with byteCtx := { s.byteCtx with err := 3 } })
    ∧ (if n.toNat ≤ s.byteCtx.cur.toNat then
      ∃ c : Word, exec (.byBack n) s = .next { s.accept with byteCtx := { s.byteCtx with cur := c } }
        ∧ c.toNat = s.byteCtx.cur.toNat - n.toNat
    else exec (.byBack n) s = .next { s.accept with byteCtx := { s.byteCtx with err := 3 } })

/-- What R154 says of the command i that gets k bytes. -/
def Sys2Proof.Machine.getsSequentially (i : Instr) (k : Nat) : Prop :=
  ∀ s : State, s.Inv → s.byteCtx.valid = true →
    if s.byteCtx.cur.toNat + k ≤ s.byteCtx.len.toNat then
      ∃ c r : Word, exec i s = .next { s.accept with byteCtx := { s.byteCtx with cur := c }, result := r }
        ∧ c.toNat = s.byteCtx.cur.toNat + k
        ∧ r.toNat = bigEndian s.mem (s.byteCtx.base.toNat + s.byteCtx.cur.toNat) k
    else
      exec i s = .next { s.accept with byteCtx := { s.byteCtx with cur := s.byteCtx.len, err := 1 }, result := 0 }

/-- R154 to R157: the sequential gets read 1, 2, 4 bytes big-endian at the cursor and advance it; where too few remain they
answer 0, leave the cursor at L and record GetOverrun. Nothing else changes. -/
def Obligations.SequentialGetsReadBigEndian : Prop :=
  getsSequentially .byGetByte 1 ∧ getsSequentially .byGetWord 2 ∧ getsSequentially .byGetDword 4

/-- What R158 says of the command i that sets the k-byte value v. -/
def Sys2Proof.Machine.setsSequentially (i : Instr) (k v : Nat) : Prop :=
  ∀ s : State, s.Inv → s.byteCtx.valid = true →
    ∃ m, storesLeading s.mem m (s.byteCtx.base.toNat + s.byteCtx.cur.toNat) k
          (min k (s.byteCtx.len.toNat - s.byteCtx.cur.toNat)) v
      ∧ if s.byteCtx.cur.toNat + k ≤ s.byteCtx.len.toNat then
          ∃ c : Word, exec i s = .next { s.accept with byteCtx := { s.byteCtx with cur := c }, mem := m }
            ∧ c.toNat = s.byteCtx.cur.toNat + k
        else
          exec i s = .next { s.accept with byteCtx := { s.byteCtx with cur := s.byteCtx.len, err := 2 }, mem := m }

/-- R158 to R161: the sequential sets write 1, 2, 4 bytes big-endian at the cursor and advance it; where too few remain
the leading bytes that fit are written, the cursor is left at L and SetOverrun recorded. No other byte and nothing else
changes. -/
def Obligations.SequentialSetsWriteBigEndian : Prop :=
  ∀ v : Word, setsSequentially (.bySetByte v) 1 (v.toNat % 2 ^ 8)
    ∧ setsSequentially (.bySetWord v) 2 (v.toNat % 2 ^ 16) ∧ setsSequentially (.bySetDword v) 4 v.toNat

/-- R162: BY_SETBYTESLICE patches the byte before the cursor with the slice primitive and no other byte, moves nothing and
records no error; at cursor 0 it changes nothing. -/
def Obligations.SetByteSlicePatchesTheByteBeforeTheCursor : Prop :=
  ∀ (ixBegin ixEnd : Nat) (v : Word) (s : State), s.Inv → s.byteCtx.valid = true →
    if s.byteCtx.cur.toNat = 0 then exec (.bySetByteSlice ixBegin ixEnd v) s = .next s.accept
    else
      ∃ m, exec (.bySetByteSlice ixBegin ixEnd v) s = .next { s.accept with mem := m } ∧ m.size = s.mem.size
        ∧ ∀ a, m.read a =
            if a = s.byteCtx.base.toNat + s.byteCtx.cur.toNat - 1
            then setByteSlice (s.mem.read a) ixBegin ixEnd v.toNat else s.mem.read a

/-- What R163 says of the command i that gets k bytes at an offset. -/
def Sys2Proof.Machine.getsAt (i : Instr) (k pos : Nat) : Prop :=
  ∀ s : State, s.Inv → s.byteCtx.valid = true →
    if pos + k ≤ s.byteCtx.len.toNat then
      ∃ r : Word, exec i s = .next { s.accept with result := r }
        ∧ r.toNat = bigEndian s.mem (s.byteCtx.base.toNat + pos) k
    else exec i s = .next { s.accept with byteCtx := { s.byteCtx with err := 1 }, result := 0 }

/-- R163 to R166: the positional gets read 1, 2, 4 bytes big-endian at a byte offset; a read that does not fit the window
answers 0 and records GetOverrun. The cursor and everything else stay. -/
def Obligations.PositionalGetsReadBigEndian : Prop :=
  ∀ pos : Word, getsAt (.byGetByteByPos pos) 1 pos.toNat ∧ getsAt (.byGetWordByPos pos) 2 pos.toNat
    ∧ getsAt (.byGetDwordByPos pos) 4 pos.toNat

/-- What R167 says of the command i that sets the k-byte value v at an offset. -/
def Sys2Proof.Machine.setsAt (i : Instr) (k pos v : Nat) : Prop :=
  ∀ s : State, s.Inv → s.byteCtx.valid = true →
    if pos + k ≤ s.byteCtx.len.toNat then
      ∃ m, exec i s = .next { s.accept with mem := m } ∧ storesLeading s.mem m (s.byteCtx.base.toNat + pos) k k v
    else exec i s = .next { s.accept with byteCtx := { s.byteCtx with err := 2 } }

/-- R167 to R170: the positional sets write 1, 2, 4 bytes big-endian at a byte offset; a write that does not fit the
window writes no byte and records SetOverrun. The cursor and everything else stay. -/
def Obligations.PositionalSetsWriteBigEndian : Prop :=
  ∀ pos v : Word, setsAt (.bySetByteByPos pos v) 1 pos.toNat (v.toNat % 2 ^ 8)
    ∧ setsAt (.bySetWordByPos pos v) 2 pos.toNat (v.toNat % 2 ^ 16)
    ∧ setsAt (.bySetDwordByPos pos v) 4 pos.toNat v.toNat

/-- R171: BY_GETBITSTREAM binds a fresh Bit Stream over the next n bytes, with BASE = BY.BASE + BY.CUR, and changes neither
BY nor MEM; it is ILLEGAL where the bytes are not in the BY window or exceed MAX_BIT_CAP. The sum 2^32, which the 32-bit
BASE does not hold, is the next statement's. -/
def Obligations.HandoffBindsTheNextBytes : Prop :=
  ∀ (n : Word) (s : State), s.Inv → s.byteCtx.valid = true →
    if s.byteCtx.cur.toNat + n.toNat ≤ s.byteCtx.len.toNat ∧ n.toNat ≤ 2 ^ 29 - 1 then
      s.byteCtx.base.toNat + s.byteCtx.cur.toNat < 2 ^ 32 →
        ∃ b : Word, exec (.byGetBitStream n) s =
            .next { s.accept with bitCtx := { valid := true, base := b, len := n, cur := 0, err := 0 } }
          ∧ b.toNat = s.byteCtx.base.toNat + s.byteCtx.cur.toNat
    else exec (.byGetBitStream n) s = .next s.illegal

/-- The model's reading of R171 where BY.BASE + BY.CUR = 2^32 (the end of a MEM of 2^32 bytes): only n = 0 is accepted, and
it binds an empty Bit Stream whose BASE is a free value, about which nothing is stated (log 10). -/
def Obligations.HandoffAtTheEndOfTheAddressSpaceBindsNothing : Prop :=
  ∀ (n : Word) (s : State), s.Inv → s.byteCtx.valid = true → s.byteCtx.base.toNat + s.byteCtx.cur.toNat = 2 ^ 32 →
    if n.toNat = 0 then
      ∃ (b : Word) (d : Nat), exec (.byGetBitStream n) s =
        .next { s.accept with
          bitCtx := { valid := true, base := b, len := n, cur := 0, err := 0 }, freeDraws := d }
    else exec (.byGetBitStream n) s = .next s.illegal

/-- R172 to R175: the Byte Stream's queries answer CUR, ERR, LEN and BASE and change nothing else. -/
def Obligations.ByteStreamQueriesAnswerTheContext : Prop :=
  ∀ s : State, s.byteCtx.valid = true →
    exec .byGetPos s = .next { s.accept with result := s.byteCtx.cur }
    ∧ exec .byGetError s = .next { s.accept with result := s.byteCtx.err.setWidth 32 }
    ∧ exec .byGetLength s = .next { s.accept with result := s.byteCtx.len }
    ∧ exec .byGetBuffer s = .next { s.accept with result := s.byteCtx.base }

/-- R176: only the sequential gets and sets take the byte cursor of a bound stream to L; forward(L) fails and leaves the
cursor; back leaves L; getbyte at L-1 reaches L; and a further getbyte fails with GetOverrun. -/
def Obligations.OnlyGetsAndSetsReachTheEnd : Prop :=
  (∀ (i : Instr) (s t : State), exec i s = .next t → op i ≠ 0x10 →
    s.byteCtx.cur.toNat < s.byteCtx.len.toNat → t.byteCtx.cur = t.byteCtx.len → 0x13 ≤ op i ∧ op i ≤ 0x18)
  ∧ (∀ s : State, s.Inv → s.byteCtx.valid = true →
    exec (.byForward s.byteCtx.len) s = .next { s.accept with byteCtx := { s.byteCtx with err := 3 } }
    ∧ (s.byteCtx.cur.toNat + 1 = s.byteCtx.len.toNat →
        ∃ t, exec .byGetByte s = .next t ∧ t.byteCtx = { s.byteCtx with cur := s.byteCtx.len }
          ∧ ∃ u, exec .byGetByte t = .next u ∧ u.byteCtx = { t.byteCtx with err := 1 } ∧ u.result = 0)
    ∧ (s.byteCtx.cur = s.byteCtx.len → 0 < s.byteCtx.len.toNat →
        ∃ t, exec (.byBack 1) s = .next t ∧ t.byteCtx.cur.toNat + 1 = s.byteCtx.len.toNat))

/-! ### Bit Stream -/

/-- R200: every Bit Stream command but BT_INIT is ILLEGAL on an unbound BT and changes nothing but STATUS; only BT_INIT and
BY_GETBITSTREAM bind BT; and no Bit Stream command reads or writes the BY context. -/
def Obligations.BitStreamCommandsNeedTheirContextOnly : Prop :=
  (∀ (i : Instr) (s : State), 0x30 ≤ op i → op i ≤ 0x3B →
    (op i ≠ 0x30 → s.bitCtx.valid = false →
      exec i s = .next s.illegal ∧ s.illegal = { s with status := s.illegal.status })
    ∧ (∀ c : Context, exec i { s with byteCtx := c } = onNext (fun t => { t with byteCtx := c }) (exec i s)))
  ∧ (∀ (i : Instr) (s t : State), exec i s = .next t → s.bitCtx.valid = false → t.bitCtx.valid = true →
    op i = 0x30 ∨ op i = 0x20)

/-- R201: BT_INIT binds BT with cursor 0 and ERR = OK where the window fits MEM and MAX_BIT_CAP, zero-filling exactly the
window in encode mode; otherwise it is ILLEGAL. -/
def Obligations.BtInitBindsTheWindow : Prop :=
  ∀ (mode : Mode) (base len : Word) (s : State),
    if base.toNat + len.toNat ≤ s.mem.size ∧ len.toNat ≤ 2 ^ 29 - 1 then
      ∃ m, exec (.btInit mode base len) s =
          .next { s.accept with bitCtx := { valid := true, base := base, len := len, cur := 0, err := 0 }, mem := m }
        ∧ (mode = .decode → m = s.mem) ∧ (mode = .encode → zeroFilled s.mem m base.toNat len.toNat)
    else exec (.btInit mode base len) s = .next s.illegal

/-- R202, R203: BT_FORWARD moves the cursor while it stays below 8L and BT_BACK while it stays at or above 0, with exact
sums; otherwise MoveOverrun and the cursor stays. Nothing else changes. -/
def Obligations.BitCursorMovesWithinItsBounds : Prop :=
  ∀ (n : Word) (s : State), s.Inv → s.bitCtx.valid = true →
    (if s.bitCtx.cur.toNat + n.toNat < 8 * s.bitCtx.len.toNat then
      ∃ c : Word, exec (.btForward n) s = .next { s.accept with bitCtx := { s.bitCtx with cur := c } }
        ∧ c.toNat = s.bitCtx.cur.toNat + n.toNat
    else exec (.btForward n) s = .next { s.accept with bitCtx := { s.bitCtx with err := 3 } })
    ∧ (if n.toNat ≤ s.bitCtx.cur.toNat then
      ∃ c : Word, exec (.btBack n) s = .next { s.accept with bitCtx := { s.bitCtx with cur := c } }
        ∧ c.toNat = s.bitCtx.cur.toNat - n.toNat
    else exec (.btBack n) s = .next { s.accept with bitCtx := { s.bitCtx with err := 3 } })

/-- R209: the group algorithm of R207 and R208 equals the bit-serial form: the field's value is the sum of its bits, and a
set writes the value's bits in the field and no other bit. -/
def Obligations.FieldAlgorithmIsBitSerial : Prop :=
  ∀ (m : Memory) (base p n : Nat), m.wf → 1 ≤ n → n ≤ 32 → base + (p + n + 7) / 8 ≤ m.size →
    fieldGet m base p n = .ok (fieldBits m base p n)
    ∧ ∀ v, ∃ m', fieldSet m base p n v = .ok m' ∧ fieldWritten m m' base p n v

/-- R210: BT_GETBIT answers the n bits at the cursor and moves it past them; a width of 0 or above 32 and a field past 8L
fail, in this order, with answer 0 and the cursor unchanged. Nothing else changes. -/
def Obligations.GetBitReadsTheFieldAtTheCursor : Prop :=
  ∀ (n : Nat) (s : State), s.Inv → s.bitCtx.valid = true →
    if n = 0 then
      exec (.btGetBit n) s = .next { s.accept with bitCtx := { s.bitCtx with err := 4 }, result := 0 }
    else if 32 < n ∨ 8 * s.bitCtx.len.toNat ≤ s.bitCtx.cur.toNat + n - 1 then
      exec (.btGetBit n) s = .next { s.accept with bitCtx := { s.bitCtx with err := 1 }, result := 0 }
    else
      ∃ c r : Word, exec (.btGetBit n) s = .next { s.accept with bitCtx := { s.bitCtx with cur := c }, result := r }
        ∧ c.toNat = s.bitCtx.cur.toNat + n
        ∧ r.toNat = fieldBits s.mem s.bitCtx.base.toNat s.bitCtx.cur.toNat n

/-- R211: BT_SETBIT writes the low n bits of its value at the cursor and moves it past them; a width of 0 or above 32 and a
field past 8L fail, in this order, with no byte written and the cursor unchanged. No other bit of MEM and nothing else
changes. -/
def Obligations.SetBitWritesTheFieldAtTheCursor : Prop :=
  ∀ (n : Nat) (v : Word) (s : State), s.Inv → s.bitCtx.valid = true →
    if n = 0 then exec (.btSetBit n v) s = .next { s.accept with bitCtx := { s.bitCtx with err := 5 } }
    else if 32 < n ∨ 8 * s.bitCtx.len.toNat < s.bitCtx.cur.toNat + n then
      exec (.btSetBit n v) s = .next { s.accept with bitCtx := { s.bitCtx with err := 2 } }
    else
      ∃ (c : Word) (m : Memory),
        exec (.btSetBit n v) s = .next { s.accept with bitCtx := { s.bitCtx with cur := c }, mem := m }
        ∧ c.toNat = s.bitCtx.cur.toNat + n
        ∧ fieldWritten s.mem m s.bitCtx.base.toNat s.bitCtx.cur.toNat n v.toNat

/-- R212: BT_GETBITBYPOS answers the n bits at a bit position, with the checks of R210, and never moves the cursor. -/
def Obligations.GetBitByPosReadsTheFieldAtAPosition : Prop :=
  ∀ (n : Nat) (pos : Word) (s : State), s.Inv → s.bitCtx.valid = true →
    if n = 0 then
      exec (.btGetBitByPos n pos) s = .next { s.accept with bitCtx := { s.bitCtx with err := 4 }, result := 0 }
    else if 32 < n ∨ 8 * s.bitCtx.len.toNat < pos.toNat + n then
      exec (.btGetBitByPos n pos) s = .next { s.accept with bitCtx := { s.bitCtx with err := 1 }, result := 0 }
    else
      ∃ r : Word, exec (.btGetBitByPos n pos) s = .next { s.accept with result := r }
        ∧ r.toNat = fieldBits s.mem s.bitCtx.base.toNat pos.toNat n

/-- R213: BT_SETBITBYPOS writes the low n bits of its value at a bit position, with the checks of R211, and never moves
the cursor. -/
def Obligations.SetBitByPosWritesTheFieldAtAPosition : Prop :=
  ∀ (n : Nat) (pos v : Word) (s : State), s.Inv → s.bitCtx.valid = true →
    if n = 0 then exec (.btSetBitByPos n pos v) s = .next { s.accept with bitCtx := { s.bitCtx with err := 5 } }
    else if 32 < n ∨ 8 * s.bitCtx.len.toNat < pos.toNat + n then
      exec (.btSetBitByPos n pos v) s = .next { s.accept with bitCtx := { s.bitCtx with err := 2 } }
    else
      ∃ m : Memory, exec (.btSetBitByPos n pos v) s = .next { s.accept with mem := m }
        ∧ fieldWritten s.mem m s.bitCtx.base.toNat pos.toNat n v.toNat

/-- R214 to R218: the Bit Stream's queries answer CUR, CUR div 8, ERR, LEN and BASE and change nothing else. -/
def Obligations.BitStreamQueriesAnswerTheContext : Prop :=
  ∀ s : State, s.bitCtx.valid = true →
    exec .btGetPos s = .next { s.accept with result := s.bitCtx.cur }
    ∧ exec .btGetBytePos s = .next { s.accept with result := s.bitCtx.cur / 8 }
    ∧ exec .btGetError s = .next { s.accept with result := s.bitCtx.err.setWidth 32 }
    ∧ exec .btGetLength s = .next { s.accept with result := s.bitCtx.len }
    ∧ exec .btGetBuffer s = .next { s.accept with result := s.bitCtx.base }

/-- R219: from cursor 0 of a window of L > 0 bytes, forward(8L-1) succeeds, a get of one bit then reaches 8L, and
forward(8L) fails with the cursor unchanged. -/
def Obligations.ForwardStopsOneBitShortOfTheEnd : Prop :=
  ∀ (n : Word) (s : State), s.Inv → s.bitCtx.valid = true → s.bitCtx.cur = 0 → 0 < s.bitCtx.len.toNat →
    (n.toNat = 8 * s.bitCtx.len.toNat - 1 →
      ∃ t, exec (.btForward n) s = .next t ∧ t.bitCtx = { s.bitCtx with cur := n }
        ∧ ∃ u, exec (.btGetBit 1) t = .next u
            ∧ u.bitCtx.cur.toNat = 8 * s.bitCtx.len.toNat ∧ u.bitCtx.err = s.bitCtx.err)
    ∧ (n.toNat = 8 * s.bitCtx.len.toNat →
      exec (.btForward n) s = .next { s.accept with bitCtx := { s.bitCtx with err := 3 } })

/-- R220: for every width n in 1..32 and every bit offset p with p + n <= 8L, a set of v < 2^n at p and then a get of n bits
at p gives v, positionally and through the cursor, for every initial content of MEM. -/
def Obligations.SetThenGetGivesTheValue : Prop :=
  ∀ (n : Nat) (p v k : Word) (s : State), s.Inv → s.bitCtx.valid = true → 1 ≤ n → n ≤ 32 →
    p.toNat + n ≤ 8 * s.bitCtx.len.toNat → v.toNat < 2 ^ n → k.toNat = n →
    (∃ t u, exec (.btSetBitByPos n p v) s = .next t ∧ exec (.btGetBitByPos n p) t = .next u
      ∧ u.result = v ∧ u.bitCtx = s.bitCtx)
    ∧ (s.bitCtx.cur = p →
      ∃ t u w, exec (.btSetBit n v) s = .next t ∧ exec (.btBack k) t = .next u ∧ exec (.btGetBit n) u = .next w
        ∧ w.result = v ∧ w.bitCtx = t.bitCtx)

/-- R65, R72: a word set at byte offset o through BY is read back as its two bytes at o and o+1, and as the 16-bit field at
bit position 8o by a Bit Stream over the same window. -/
def Obligations.BothContextsSeeTheSameBytes : Prop :=
  ∀ (o o' q v : Word) (s : State), s.Inv → s.byteCtx.valid = true → s.bitCtx.valid = true →
    s.bitCtx.base = s.byteCtx.base → s.bitCtx.len = s.byteCtx.len → o.toNat + 2 ≤ s.byteCtx.len.toNat →
    o'.toNat = o.toNat + 1 → q.toNat = 8 * o.toNat →
    ∃ t, exec (.bySetWordByPos o v) s = .next t
      ∧ (∃ u, exec (.byGetByteByPos o) t = .next u ∧ u.result.toNat = v.toNat / 256 % 256)
      ∧ (∃ u, exec (.byGetByteByPos o') t = .next u ∧ u.result.toNat = v.toNat % 256)
      ∧ (∃ u, exec (.btGetBitByPos 16 q) t = .next u ∧ u.result.toNat = v.toNat % 2 ^ 16)

/-! ### The whole machine -/

/-- The invariant holds at reset, over every memory of canonical form (log 3 and log 4 choose `State.reset`'s). -/
def Obligations.ResetMeetsTheInvariant : Prop :=
  State.reset.Inv ∧ ∀ m : Memory, m.wf → (State.resetWith m).Inv

/-- R36, R39 and STATUS's reserved bits (R32), the error codes (U12), MEM's canonical form: every step keeps them, from
every state that has them. -/
def Obligations.EveryStepKeepsTheInvariant : Prop :=
  ∀ s t : State, s.Inv → step s = .next t → t.Inv

/-- R262: no command traps. From every state of the invariant every instruction goes on to a next state, which keeps the
host's pending moves and the size of MEM. -/
def Obligations.NoCommandTraps : Prop :=
  ∀ (i : Instr) (s : State), s.Inv → ∃ t, exec i s = .next t ∧ t.host = s.host ∧ t.mem.size = s.mem.size

/-- R62, writes: a command changes no byte outside the window of the context it names (for an INIT, the new window). -/
def Obligations.CommandsWriteOnlyTheirWindow : Prop :=
  ∀ (i : Instr) (s t : State) (a : Nat), s.Inv → exec i s = .next t → ¬ inWindow i s a →
    t.mem.read a = s.mem.read a

/-- R62, reads: two memories that agree on the window of the context a command names give the same registers and the same
window after it. -/
def Obligations.CommandsReadOnlyTheirWindow : Prop :=
  ∀ (i : Instr) (s t : State) (m : Memory), s.Inv → m.wf → m.size = s.mem.size →
    (∀ a, inWindow i s a → m.read a = s.mem.read a) → exec i s = .next t →
    ∃ t', exec i { s with mem := m } = .next t' ∧ t' = { t with mem := t'.mem }
      ∧ ∀ a, inWindow i s a → t'.mem.read a = t.mem.read a

/-- R31, R35, R37, R46: RESULT and each context field change only by the commands those rules name as writing them. -/
def Obligations.RegistersChangeOnlyByTheirCommands : Prop :=
  ∀ (i : Instr) (s t : State), exec i s = .next t →
    (t.result ≠ s.result →
      op i ≤ 4 ∨ (0x13 ≤ op i ∧ op i ≤ 0x15) ∨ (0x1A ≤ op i ∧ op i ≤ 0x1C) ∨ (0x21 ≤ op i ∧ op i ≤ 0x24)
        ∨ op i = 0x33 ∨ op i = 0x35 ∨ (0x37 ≤ op i ∧ op i ≤ 0x3B))
    ∧ ((t.byteCtx.valid, t.byteCtx.base, t.byteCtx.len) ≠ (s.byteCtx.valid, s.byteCtx.base, s.byteCtx.len) →
        op i = 0x10)
    ∧ (t.byteCtx.cur ≠ s.byteCtx.cur → 0x10 ≤ op i ∧ op i ≤ 0x18)
    ∧ (t.byteCtx.err ≠ s.byteCtx.err → 0x10 ≤ op i ∧ op i ≤ 0x1F ∧ op i ≠ 0x19)
    ∧ ((t.bitCtx.valid, t.bitCtx.base, t.bitCtx.len) ≠ (s.bitCtx.valid, s.bitCtx.base, s.bitCtx.len) →
        op i = 0x30 ∨ op i = 0x20)
    ∧ (t.bitCtx.cur ≠ s.bitCtx.cur → op i = 0x20 ∨ (0x30 ≤ op i ∧ op i ≤ 0x34))
    ∧ (t.bitCtx.err ≠ s.bitCtx.err → op i = 0x20 ∨ (0x30 ≤ op i ∧ op i ≤ 0x36))
    ∧ (t.mem ≠ s.mem → op i = 0x10 ∨ (0x16 ≤ op i ∧ op i ≤ 0x19) ∨ (0x1D ≤ op i ∧ op i ≤ 0x1F)
        ∨ op i = 0x30 ∨ op i = 0x34 ∨ op i = 0x36)

/-- R254: an ERR field is cleared only by the commands that bind its context, and those clear it. -/
def Obligations.OnlyBindingClearsAnError : Prop :=
  ∀ (i : Instr) (s t : State), exec i s = .next t →
    (s.byteCtx.err ≠ 0 → t.byteCtx.err = 0 → op i = 0x10)
    ∧ (s.bitCtx.err ≠ 0 → t.bitCtx.err = 0 → op i = 0x30 ∨ op i = 0x20)
    ∧ (op i = 0x10 → t = s.illegal ∨ t.byteCtx.err = 0)
    ∧ (op i = 0x30 ∨ op i = 0x20 → t = s.illegal ∨ t.bitCtx.err = 0)

/-- R257: a Byte Stream command other than the handoff leaves BT.ERR, and a Bit Stream command leaves BY.ERR, whatever
their windows; the slice commands leave both. -/
def Obligations.ErrorFieldsAreIndependent : Prop :=
  ∀ (i : Instr) (s t : State), exec i s = .next t →
    (op i ≤ 0x24 → op i ≠ 0x20 → t.bitCtx.err = s.bitCtx.err)
    ∧ (op i ≤ 4 ∨ 0x30 ≤ op i → t.byteCtx.err = s.byteCtx.err)

/-- R32: once ILLS is 1 every step but a reset keeps it 1, a reset clears both bits, and a command that leaves ILL = 1
leaves ILLS = 1. -/
def Obligations.IllegalBitIsSticky : Prop :=
  ∀ (s t : State) (mv : HostMove) (rest : List HostMove), s.host = mv :: rest → step s = .next t →
    (mv ≠ .reset → s.ills = true → t.ills = true)
    ∧ (mv = .reset → t.ills = false ∧ t.ill = false)
    ∧ (∀ c, mv = .command c → t.ill = true → t.ills = true)

/-- R46 and the set rules R158, R162, R167, R211, R213, over the command subsets of R8: a command of an Input view writes
no byte of MEM and binds nothing; a command of an Output view moves no cursor back and binds nothing: VALID, BASE and LEN
of both contexts stay. -/
def Obligations.ViewsKeepWhatTheyPromise : Prop :=
  ∀ (i : Instr) (s t : State), s.Inv → exec i s = .next t →
    (i.inputView = true → t.mem = s.mem)
    ∧ (i.outputView = true → s.byteCtx.cur.toNat ≤ t.byteCtx.cur.toNat ∧ s.bitCtx.cur.toNat ≤ t.bitCtx.cur.toNat)
    ∧ (i.inputView = true ∨ i.outputView = true →
        (t.byteCtx.valid, t.byteCtx.base, t.byteCtx.len) = (s.byteCtx.valid, s.byteCtx.base, s.byteCtx.len)
        ∧ (t.bitCtx.valid, t.bitCtx.base, t.bitCtx.len) = (s.bitCtx.valid, s.bitCtx.base, s.bitCtx.len))
end

