-- ==== Sys2Proof/Laws/Decode.lean ====
section
/-! SUPPORT. The fields of a command word as arithmetic, and reading back the fields of a packed one (R91, R92). -/

namespace Sys2Proof

/-- A field of CMD as arithmetic (R91). -/
theorem extract_toNat (c : Word) (lo w : Nat) : (c.extractLsb' lo w).toNat = c.toNat / 2 ^ lo % 2 ^ w := by
  rw [BitVec.extractLsb'_toNat, Nat.shiftRight_eq_div_pow]

theorem cmdOp_toNat (c : Word) : (cmdOp c).toNat = c.toNat / 2 ^ 0 % 2 ^ 8 := extract_toNat c 0 8
theorem cmdN_eq (c : Word) : cmdN c = c.toNat / 2 ^ 8 % 2 ^ 8 := extract_toNat c 8 8
theorem cmdBegin_eq (c : Word) : cmdBegin c = c.toNat / 2 ^ 16 % 2 ^ 5 := extract_toNat c 16 5
theorem cmdEnd_eq (c : Word) : cmdEnd c = c.toNat / 2 ^ 21 % 2 ^ 5 := extract_toNat c 21 5
theorem cmdRsv_eq (c : Word) : cmdRsv c = c.toNat / 2 ^ 27 % 2 ^ 5 := extract_toNat c 27 5

theorem cmdMode_eq (c : Word) : cmdMode c = if c.toNat / 2 ^ 26 % 2 ^ 1 = 1 then .encode else .decode := by
  rw [cmdMode, ← BitVec.testBit_toNat, Nat.testBit_eq_decide_div_mod_eq]
  simp

variable (op : Byte) (f : CmdFields)

theorem Mode.bit_lt (m : Mode) : m.bit.toNat < 2 := m.bit.isLt

/-- Two fields side by side, as arithmetic. -/
theorem append_toNat {v w : Nat} (x : BitVec v) (y : BitVec w) : (x ++ y).toNat = x.toNat * 2 ^ w + y.toNat := by
  rw [BitVec.toNat_append, Nat.shiftLeft_eq, Nat.mul_comm, ← Nat.two_pow_add_eq_or_of_lt y.isLt]

theorem packCmd_toNat : (packCmd op f).toNat
    = op.toNat + f.n % 2 ^ 8 * 2 ^ 8 + f.ixBegin % 2 ^ 5 * 2 ^ 16 + f.ixEnd % 2 ^ 5 * 2 ^ 21
      + f.mode.bit.toNat * 2 ^ 26 := by
  have h₁ := append_toNat 0#5 f.mode.bit
  have h₂ := append_toNat (0#5 ++ f.mode.bit) (BitVec.ofNat 5 f.ixEnd)
  have h₃ := append_toNat (0#5 ++ f.mode.bit ++ BitVec.ofNat 5 f.ixEnd) (BitVec.ofNat 5 f.ixBegin)
  have h₄ := append_toNat (0#5 ++ f.mode.bit ++ BitVec.ofNat 5 f.ixEnd ++ BitVec.ofNat 5 f.ixBegin) (BitVec.ofNat 8 f.n)
  have h₅ : (packCmd op f).toNat = _ := append_toNat
    (0#5 ++ f.mode.bit ++ BitVec.ofNat 5 f.ixEnd ++ BitVec.ofNat 5 f.ixBegin ++ BitVec.ofNat 8 f.n) op
  rw [h₅, h₄, h₃, h₂, h₁, BitVec.toNat_ofNat, BitVec.toNat_ofNat, BitVec.toNat_ofNat, BitVec.toNat_ofNat]
  omega

@[simp] theorem cmdOp_packCmd : cmdOp (packCmd op f) = op := by
  apply BitVec.eq_of_toNat_eq
  rw [cmdOp_toNat, packCmd_toNat]
  have := op.isLt
  omega

@[simp] theorem cmdN_packCmd : cmdN (packCmd op f) = f.n % 2 ^ 8 := by
  rw [cmdN_eq, packCmd_toNat]
  have := op.isLt
  omega

@[simp] theorem cmdBegin_packCmd : cmdBegin (packCmd op f) = f.ixBegin % 2 ^ 5 := by
  rw [cmdBegin_eq, packCmd_toNat]
  have := op.isLt
  omega

@[simp] theorem cmdEnd_packCmd : cmdEnd (packCmd op f) = f.ixEnd % 2 ^ 5 := by
  rw [cmdEnd_eq, packCmd_toNat]
  have := op.isLt
  omega

@[simp] theorem cmdRsv_packCmd : cmdRsv (packCmd op f) = 0 := by
  rw [cmdRsv_eq, packCmd_toNat]
  have := op.isLt
  have := f.mode.bit_lt
  omega

@[simp] theorem cmdMode_packCmd : cmdMode (packCmd op f) = f.mode := by
  have h : (packCmd op f).toNat / 2 ^ 26 % 2 ^ 1 = f.mode.bit.toNat := by
    rw [packCmd_toNat]
    have := op.isLt
    have := f.mode.bit_lt
    omega
  rw [cmdMode_eq, h]
  cases f.mode <;> rfl

/-- A row found for an OP is a row of the table with that OP (R98). -/
theorem rowOf_some {op : Byte} {r : OpRow} (h : rowOf op = some r) : r ∈ opTable ∧ r.op = op := by
  have h₁ := List.mem_of_find?_eq_some h
  have h₂ := List.find?_some h
  exact ⟨h₁, by simpa using h₂⟩

/-- A row for the OP and unused fields of 0 decode to the row's instruction (R98). -/
theorem decode_of_row {c : Command} {r : OpRow} (hr : rowOf (cmdOp c.cmd) = some r)
    (hu : unusedFieldsZero r.uses c.cmd = true) : decode c = .instr (r.build c) := by
  rw [decode, hr]
  exact if_pos hu

/-- No row for the OP is cause I1 (R96). -/
theorem decode_of_no_row {c : Command} (hr : rowOf (cmdOp c.cmd) = none) : decode c = .illegal .reservedOp := by
  rw [decode, hr]

/-- A row for the OP and a nonzero unused field is cause I2 (R95). -/
theorem decode_of_used_field {c : Command} {r : OpRow} (hr : rowOf (cmdOp c.cmd) = some r)
    (hu : unusedFieldsZero r.uses c.cmd = false) : decode c = .illegal .reservedField := by
  rw [decode, hr]
  exact if_neg (by simp [hu])

/-- RSV and the unused fields of an instruction's encoding are 0, whatever its row uses, where its own are. -/
theorem unusedFieldsZero_packCmd (uses : FieldUse) : unusedFieldsZero uses (packCmd op f)
    = ((decide (uses = .width) || decide (f.n % 2 ^ 8 = 0))
      && (decide (uses = .slice) || (decide (f.ixBegin % 2 ^ 5 = 0) && decide (f.ixEnd % 2 ^ 5 = 0)))
      && (decide (uses = .mode) || decide (f.mode = .decode))) := by
  simp only [unusedFieldsZero, cmdRsv_packCmd, cmdN_packCmd, cmdBegin_packCmd, cmdEnd_packCmd, cmdMode_packCmd,
    decide_true, Bool.true_and]

/-- What decoding an instruction means (R98): a row for the OP, the unused fields 0, and the row's instruction. -/
theorem decode_instr {c : Command} {i : Instr} (h : decode c = .instr i) :
    ∃ r, rowOf (cmdOp c.cmd) = some r ∧ unusedFieldsZero r.uses c.cmd = true ∧ r.build c = i := by
  unfold decode at h
  cases hr : rowOf (cmdOp c.cmd) with
  | none => simp [hr] at h
  | some r =>
    simp only [hr] at h
    by_cases hu : unusedFieldsZero r.uses c.cmd = true
    · exact ⟨r, rfl, hu, by simpa [hu] using h⟩
    · simp [hu] at h

/-! ### The row of each opcode (R94) -/

@[simp] theorem rowOf_slGetByteSlice : rowOf 1#8 = some ⟨1#8, .slice, fun c => .slGetByteSlice (cmdBegin c.cmd) (cmdEnd c.cmd) c.opa⟩ := rfl
@[simp] theorem rowOf_slSetByteSlice : rowOf 2#8 = some ⟨2#8, .slice, fun c => .slSetByteSlice (cmdBegin c.cmd) (cmdEnd c.cmd) c.opa c.opb⟩ := rfl
@[simp] theorem rowOf_slGetShortSlice : rowOf 3#8 = some ⟨3#8, .slice, fun c => .slGetShortSlice (cmdBegin c.cmd) (cmdEnd c.cmd) c.opa⟩ := rfl
@[simp] theorem rowOf_slGetIntSlice : rowOf 4#8 = some ⟨4#8, .slice, fun c => .slGetIntSlice (cmdBegin c.cmd) (cmdEnd c.cmd) c.opa⟩ := rfl
@[simp] theorem rowOf_byInit : rowOf 16#8 = some ⟨16#8, .mode, fun c => .byInit (cmdMode c.cmd) c.opa c.opb⟩ := rfl
@[simp] theorem rowOf_byForward : rowOf 17#8 = some ⟨17#8, .bare, fun c => .byForward c.opa⟩ := rfl
@[simp] theorem rowOf_byBack : rowOf 18#8 = some ⟨18#8, .bare, fun c => .byBack c.opa⟩ := rfl
@[simp] theorem rowOf_byGetByte : rowOf 19#8 = some ⟨19#8, .bare, fun _ => .byGetByte⟩ := rfl
@[simp] theorem rowOf_byGetWord : rowOf 20#8 = some ⟨20#8, .bare, fun _ => .byGetWord⟩ := rfl
@[simp] theorem rowOf_byGetDword : rowOf 21#8 = some ⟨21#8, .bare, fun _ => .byGetDword⟩ := rfl
@[simp] theorem rowOf_bySetByte : rowOf 22#8 = some ⟨22#8, .bare, fun c => .bySetByte c.opa⟩ := rfl
@[simp] theorem rowOf_bySetWord : rowOf 23#8 = some ⟨23#8, .bare, fun c => .bySetWord c.opa⟩ := rfl
@[simp] theorem rowOf_bySetDword : rowOf 24#8 = some ⟨24#8, .bare, fun c => .bySetDword c.opa⟩ := rfl
@[simp] theorem rowOf_bySetByteSlice : rowOf 25#8 = some ⟨25#8, .slice, fun c => .bySetByteSlice (cmdBegin c.cmd) (cmdEnd c.cmd) c.opa⟩ := rfl
@[simp] theorem rowOf_byGetByteByPos : rowOf 26#8 = some ⟨26#8, .bare, fun c => .byGetByteByPos c.opa⟩ := rfl
@[simp] theorem rowOf_byGetWordByPos : rowOf 27#8 = some ⟨27#8, .bare, fun c => .byGetWordByPos c.opa⟩ := rfl
@[simp] theorem rowOf_byGetDwordByPos : rowOf 28#8 = some ⟨28#8, .bare, fun c => .byGetDwordByPos c.opa⟩ := rfl
@[simp] theorem rowOf_bySetByteByPos : rowOf 29#8 = some ⟨29#8, .bare, fun c => .bySetByteByPos c.opa c.opb⟩ := rfl
@[simp] theorem rowOf_bySetWordByPos : rowOf 30#8 = some ⟨30#8, .bare, fun c => .bySetWordByPos c.opa c.opb⟩ := rfl
@[simp] theorem rowOf_bySetDwordByPos : rowOf 31#8 = some ⟨31#8, .bare, fun c => .bySetDwordByPos c.opa c.opb⟩ := rfl
@[simp] theorem rowOf_byGetBitStream : rowOf 32#8 = some ⟨32#8, .bare, fun c => .byGetBitStream c.opa⟩ := rfl
@[simp] theorem rowOf_byGetPos : rowOf 33#8 = some ⟨33#8, .bare, fun _ => .byGetPos⟩ := rfl
@[simp] theorem rowOf_byGetError : rowOf 34#8 = some ⟨34#8, .bare, fun _ => .byGetError⟩ := rfl
@[simp] theorem rowOf_byGetLength : rowOf 35#8 = some ⟨35#8, .bare, fun _ => .byGetLength⟩ := rfl
@[simp] theorem rowOf_byGetBuffer : rowOf 36#8 = some ⟨36#8, .bare, fun _ => .byGetBuffer⟩ := rfl
@[simp] theorem rowOf_btInit : rowOf 48#8 = some ⟨48#8, .mode, fun c => .btInit (cmdMode c.cmd) c.opa c.opb⟩ := rfl
@[simp] theorem rowOf_btForward : rowOf 49#8 = some ⟨49#8, .bare, fun c => .btForward c.opa⟩ := rfl
@[simp] theorem rowOf_btBack : rowOf 50#8 = some ⟨50#8, .bare, fun c => .btBack c.opa⟩ := rfl
@[simp] theorem rowOf_btGetBit : rowOf 51#8 = some ⟨51#8, .width, fun c => .btGetBit (cmdN c.cmd)⟩ := rfl
@[simp] theorem rowOf_btSetBit : rowOf 52#8 = some ⟨52#8, .width, fun c => .btSetBit (cmdN c.cmd) c.opa⟩ := rfl
@[simp] theorem rowOf_btGetBitByPos : rowOf 53#8 = some ⟨53#8, .width, fun c => .btGetBitByPos (cmdN c.cmd) c.opa⟩ := rfl
@[simp] theorem rowOf_btSetBitByPos : rowOf 54#8 = some ⟨54#8, .width, fun c => .btSetBitByPos (cmdN c.cmd) c.opa c.opb⟩ := rfl
@[simp] theorem rowOf_btGetPos : rowOf 55#8 = some ⟨55#8, .bare, fun _ => .btGetPos⟩ := rfl
@[simp] theorem rowOf_btGetBytePos : rowOf 56#8 = some ⟨56#8, .bare, fun _ => .btGetBytePos⟩ := rfl
@[simp] theorem rowOf_btGetError : rowOf 57#8 = some ⟨57#8, .bare, fun _ => .btGetError⟩ := rfl
@[simp] theorem rowOf_btGetLength : rowOf 58#8 = some ⟨58#8, .bare, fun _ => .btGetLength⟩ := rfl
@[simp] theorem rowOf_btGetBuffer : rowOf 59#8 = some ⟨59#8, .bare, fun _ => .btGetBuffer⟩ := rfl

end Sys2Proof
end

