-- ==== Sys2Proof/Laws/State.lean ====
section
/-! SUPPORT. One lemma per field per update of the state: what each named update leaves and what it sets. -/

namespace Sys2Proof.Machine

@[simp] theorem State.accept_result (s : State) : s.accept.result = s.result := rfl
@[simp] theorem State.accept_byteCtx (s : State) : s.accept.byteCtx = s.byteCtx := rfl
@[simp] theorem State.accept_bitCtx (s : State) : s.accept.bitCtx = s.bitCtx := rfl
@[simp] theorem State.accept_mem (s : State) : s.accept.mem = s.mem := rfl
@[simp] theorem State.accept_host (s : State) : s.accept.host = s.host := rfl
@[simp] theorem State.accept_freeDraws (s : State) : s.accept.freeDraws = s.freeDraws := rfl
@[simp] theorem State.illegal_result (s : State) : s.illegal.result = s.result := rfl
@[simp] theorem State.illegal_byteCtx (s : State) : s.illegal.byteCtx = s.byteCtx := rfl
@[simp] theorem State.illegal_bitCtx (s : State) : s.illegal.bitCtx = s.bitCtx := rfl
@[simp] theorem State.illegal_mem (s : State) : s.illegal.mem = s.mem := rfl
@[simp] theorem State.illegal_host (s : State) : s.illegal.host = s.host := rfl
@[simp] theorem State.illegal_freeDraws (s : State) : s.illegal.freeDraws = s.freeDraws := rfl

@[simp] theorem State.accept_status (s : State) : s.accept.status = s.status &&& ~~~1#32 := rfl
@[simp] theorem State.illegal_status (s : State) : s.illegal.status = s.status ||| 3#32 := rfl

@[simp] theorem State.accept_ill (s : State) : s.accept.ill = false := by
  simp [State.ill]

@[simp] theorem State.accept_ills (s : State) : s.accept.ills = s.ills := by
  simp [State.ills]

@[simp] theorem State.illegal_ill (s : State) : s.illegal.ill = true := by
  simp [State.ill]

@[simp] theorem State.illegal_ills (s : State) : s.illegal.ills = true := by
  simp [State.ills]

@[simp] theorem Context.setErr_valid (c : Context) (k : ErrorKind) : (c.setErr k).valid = c.valid := rfl
@[simp] theorem Context.setErr_base (c : Context) (k : ErrorKind) : (c.setErr k).base = c.base := rfl
@[simp] theorem Context.setErr_len (c : Context) (k : ErrorKind) : (c.setErr k).len = c.len := rfl
@[simp] theorem Context.setErr_cur (c : Context) (k : ErrorKind) : (c.setErr k).cur = c.cur := rfl
@[simp] theorem Context.setErr_err (c : Context) (k : ErrorKind) : (c.setErr k).err = k.code := rfl

@[simp] theorem Context.moveTo_valid (c : Context) (pos : Nat) : (c.moveTo pos).valid = c.valid := rfl
@[simp] theorem Context.moveTo_base (c : Context) (pos : Nat) : (c.moveTo pos).base = c.base := rfl
@[simp] theorem Context.moveTo_len (c : Context) (pos : Nat) : (c.moveTo pos).len = c.len := rfl
@[simp] theorem Context.moveTo_err (c : Context) (pos : Nat) : (c.moveTo pos).err = c.err := rfl
@[simp] theorem Context.moveTo_cur (c : Context) (pos : Nat) : (c.moveTo pos).cur = zext32 pos := rfl

@[simp] theorem Context.bound_valid (base len : Word) : (Context.bound base len).valid = true := rfl
@[simp] theorem Context.bound_base (base len : Word) : (Context.bound base len).base = base := rfl
@[simp] theorem Context.bound_len (base len : Word) : (Context.bound base len).len = len := rfl
@[simp] theorem Context.bound_cur (base len : Word) : (Context.bound base len).cur = 0 := rfl
@[simp] theorem Context.bound_err (base len : Word) : (Context.bound base len).err = 0 := rfl

@[simp] theorem State.resetWith_result (m : Memory) : (State.resetWith m).result = 0 := rfl
@[simp] theorem State.resetWith_status (m : Memory) : (State.resetWith m).status = 0 := rfl
@[simp] theorem State.resetWith_byteCtx (m : Memory) : (State.resetWith m).byteCtx = .unbound := rfl
@[simp] theorem State.resetWith_bitCtx (m : Memory) : (State.resetWith m).bitCtx = .unbound := rfl
@[simp] theorem State.resetWith_mem (m : Memory) : (State.resetWith m).mem = m := rfl
@[simp] theorem State.resetWith_host (m : Memory) : (State.resetWith m).host = [] := rfl
@[simp] theorem State.resetWith_freeDraws (m : Memory) : (State.resetWith m).freeDraws = 0 := rfl

@[simp] theorem applyReset_result (s : State) : (applyReset s).result = 0 := rfl
@[simp] theorem applyReset_status (s : State) : (applyReset s).status = 0 := rfl
@[simp] theorem applyReset_byteCtx (s : State) : (applyReset s).byteCtx = .unbound := rfl
@[simp] theorem applyReset_bitCtx (s : State) : (applyReset s).bitCtx = .unbound := rfl
@[simp] theorem applyReset_mem (s : State) : (applyReset s).mem = s.mem := rfl
@[simp] theorem applyReset_host (s : State) : (applyReset s).host = s.host := rfl
@[simp] theorem applyReset_freeDraws (s : State) : (applyReset s).freeDraws = s.freeDraws := rfl

@[simp] theorem Memory.write_size (m : Memory) (a : Nat) (v : Byte) : (m.write a v).size = m.size := rfl
@[simp] theorem Memory.write_cells (m : Memory) (a : Nat) (v : Byte) : (m.write a v).cells = storeCell a v m.cells := rfl
@[simp] theorem Memory.zeroFill_size (m : Memory) (base len : Nat) : (m.zeroFill base len).size = m.size := rfl
@[simp] theorem Memory.initWindow_decode (m : Memory) (base len : Word) : m.initWindow .decode base len = m := rfl
@[simp] theorem Memory.initWindow_encode (m : Memory) (base len : Word) :
    m.initWindow .encode base len = m.zeroFill base.toNat len.toNat := rfl
@[simp] theorem Memory.initWindow_size (m : Memory) (mode : Mode) (base len : Word) :
    (m.initWindow mode base len).size = m.size := by cases mode <;> rfl

theorem zext32_toNat (v : Nat) : (zext32 v).toNat = v % 2 ^ 32 := BitVec.toNat_ofNat v 32

/-- A value that fits the register is held exactly (R18). -/
theorem zext32_toNat_of_lt {v : Nat} (h : v < 2 ^ 32) : (zext32 v).toNat = v := by
  rw [zext32_toNat, Nat.mod_eq_of_lt h]

@[simp] theorem zext32_toNat_word (w : Word) : zext32 w.toNat = w := BitVec.eq_of_toNat_eq (zext32_toNat_of_lt w.isLt)

end Sys2Proof.Machine
end

