-- ==== Sys2Proof/Laws/Memory.lean ====
section
/-! SUPPORT. The memory laws: a read after a write (R69), zero fill (R79), and that every memory operation keeps the
canonical form. -/

namespace Sys2Proof.Machine

/-! ### The list of cells -/

/-- No listed address is below a bound. -/
def cellsFrom (lo : Nat) (cs : List Host.Cell) : Prop := ∀ c ∈ cs, lo ≤ c.1

theorem lookupCell_of_lt {a : Nat} {cs : List Host.Cell} (h : ∀ c ∈ cs, a < c.1) :
    lookupCell a cs = Config.unlistedByte := by
  induction cs with
  | nil => rfl
  | cons c cs ih =>
    have hc := h c (by simp)
    rw [lookupCell, if_neg (by omega)]
    exact ih fun d hd => h d (by simp [hd])

/-- A read after a store: the stored byte at its address, the old byte at every other (R69). -/
theorem lookupCell_storeCell {cs : List Host.Cell} (hs : cs.Pairwise (fun x y => x.1 < y.1)) (a b : Nat) (v : Byte) :
    lookupCell b (storeCell a v cs) = if b = a then v else lookupCell b cs := by
  induction cs with
  | nil => by_cases hv : v = Config.unlistedByte <;> by_cases hb : b = a <;> simp_all [storeCell, lookupCell, eq_comm]
  | cons c cs ih =>
    obtain ⟨hc, hs⟩ := List.pairwise_cons.1 hs
    have ih := ih hs
    rw [storeCell]
    split
    · next h =>
      rw [lookupCell, lookupCell, ih]
      split <;> split <;> first | rfl | omega
    · next h =>
      have hno : ∀ x ∈ cs, x.1 ≠ c.1 := fun x hx => by have := hc x hx; omega
      by_cases hca : c.1 = a
      · have htail : lookupCell a cs = Config.unlistedByte := lookupCell_of_lt fun x hx => hca ▸ hc x hx
        by_cases hv : v = Config.unlistedByte <;> by_cases hb : b = a
        · subst hb; simp [hca, hv, htail]
        · have hcb : ¬ a = b := fun h => hb h.symm
          simp [hca, hv, hb, lookupCell, hcb]
        · subst hb; simp [hca, hv, lookupCell]
        · have hcb : ¬ a = b := fun h => hb h.symm
          simp [hca, hv, hb, lookupCell, hcb]
      · have htail : lookupCell a (c :: cs) = Config.unlistedByte :=
          lookupCell_of_lt fun x hx => by
            rcases List.mem_cons.1 hx with rfl | hx
            · omega
            · have := hc x hx; omega
        by_cases hv : v = Config.unlistedByte <;> by_cases hb : b = a
        · subst hb; simp [hca, hv, htail]
        · simp [hca, hv, hb]
        · subst hb; simp [hca, hv, lookupCell]
        · have hcb : ¬ a = b := fun h => hb h.symm
          simp [hca, hv, hb, lookupCell, hcb]

theorem mem_storeCell {cs : List Host.Cell} {a : Nat} {v : Byte} {c : Host.Cell} (h : c ∈ storeCell a v cs) :
    (c = (a, v) ∧ v ≠ Config.unlistedByte) ∨ c ∈ cs := by
  induction cs with
  | nil =>
    rw [storeCell] at h
    split at h
    · simp at h
    · next hv => exact .inl ⟨by simpa using h, hv⟩
  | cons d cs ih =>
    rw [storeCell] at h
    split at h
    · rcases List.mem_cons.1 h with rfl | h
      · exact .inr (by simp)
      · rcases ih h with h | h
        · exact .inl h
        · exact .inr (by simp [h])
    · have hrest : ∀ x ∈ (if d.1 = a then cs else d :: cs), x ∈ d :: cs := fun x hx => by
        split at hx
        · exact List.mem_cons_of_mem _ hx
        · exact hx
      by_cases hv : v = Config.unlistedByte
      · exact .inr (hrest c (by simpa only [hv, if_true] using h))
      · rcases List.mem_cons.1 (by simpa only [hv, if_false] using h) with h | h
        · exact .inl ⟨h, hv⟩
        · exact .inr (hrest c h)

theorem storeCell_pairwise {cs : List Host.Cell} (hs : cs.Pairwise (fun x y => x.1 < y.1)) (a : Nat) (v : Byte) :
    (storeCell a v cs).Pairwise (fun x y => x.1 < y.1) := by
  induction cs with
  | nil => rw [storeCell]; split <;> simp
  | cons c cs ih =>
    obtain ⟨hc, hs'⟩ := List.pairwise_cons.1 hs
    rw [storeCell]
    split
    · next h =>
      refine List.pairwise_cons.2 ⟨fun x hx => ?_, ih hs'⟩
      rcases mem_storeCell hx with ⟨rfl, -⟩ | hx
      · exact h
      · exact hc x hx
    · next h =>
      by_cases hca : c.1 = a <;> by_cases hv : v = Config.unlistedByte
      · simpa [hca, hv] using hs'
      · simp only [hca, hv, if_true, if_false]
        exact List.pairwise_cons.2 ⟨fun x hx => hca ▸ hc x hx, hs'⟩
      · simpa [hca, hv] using hs
      · simp only [hca, hv, if_false]
        refine List.pairwise_cons.2 ⟨fun x hx => ?_, hs⟩
        rcases List.mem_cons.1 hx with rfl | hx
        · show a < x.1; omega
        · have := hc x hx; show a < x.1; omega

/-! ### Reads, writes and zero fill of MEM -/

/-- A byte read after a write (R69): the value at the address written, the old byte at every other. -/
theorem Memory.read_write {m : Memory} (hm : m.wf) (a b : Nat) (v : Byte) :
    (m.write a v).read b = if b = a then v else m.read b :=
  lookupCell_storeCell hm.2.2.1 a b v

/-- A write inside MEM keeps the canonical form. -/
theorem Memory.write_wf {m : Memory} (hm : m.wf) {a : Nat} (ha : a < m.size) (v : Byte) : (m.write a v).wf := by
  refine ⟨hm.1, hm.2.1, storeCell_pairwise hm.2.2.1 a v, fun c hc => ?_⟩
  rcases mem_storeCell hc with ⟨rfl, hv⟩ | hc
  · exact ⟨ha, hv⟩
  · exact hm.2.2.2 c hc

theorem lookupCell_filter (p : Nat → Bool) (a : Nat) (cs : List Host.Cell) :
    lookupCell a (cs.filter fun c => p c.1) = if p a then lookupCell a cs else Config.unlistedByte := by
  induction cs with
  | nil => simp [lookupCell]
  | cons c cs ih =>
    by_cases hc : c.1 = a
    · cases hp : p a
      · rw [List.filter_cons_of_neg (by simp [hc, hp]), ih]
        simp [hp]
      · rw [List.filter_cons_of_pos (by simp [hc, hp])]
        simp [lookupCell, hc]
    · by_cases hp : p c.1
      · rw [List.filter_cons_of_pos (by simpa using hp)]
        simp [lookupCell, hc, ih]
      · rw [List.filter_cons_of_neg (by simpa using hp), ih]
        simp [lookupCell, hc]

/-- Zero fill writes 0 to every byte of the window and to no other (R79). -/
theorem Memory.read_zeroFill (m : Memory) (base len a : Nat) :
    (m.zeroFill base len).read a = if base ≤ a ∧ a < base + len then 0 else m.read a := by
  have h := lookupCell_filter (fun x => decide (x < base) || decide (base + len ≤ x)) a m.cells
  simp only [Memory.read, Memory.zeroFill, h, Bool.or_eq_true, decide_eq_true_eq, Config.unlistedByte]
  split <;> split <;> first | rfl | omega

/-- Zero fill keeps the canonical form. -/
theorem Memory.zeroFill_wf {m : Memory} (hm : m.wf) (base len : Nat) : (m.zeroFill base len).wf :=
  ⟨hm.1, hm.2.1, hm.2.2.1.filter _, fun c hc => hm.2.2.2 c (List.mem_filter.1 hc).1⟩

/-- Opening a window keeps the canonical form (R79). -/
theorem Memory.initWindow_wf {m : Memory} (hm : m.wf) (mode : Mode) (base len : Word) : (m.initWindow mode base len).wf := by
  cases mode
  · exact hm
  · exact Memory.zeroFill_wf hm _ _

/-- The memory of `State.reset` is in canonical form. -/
theorem reset_mem_wf : State.reset.mem.wf := by decide

/-! ### Single-byte and wider accesses (R64) -/

theorem memRead_ok {m : Memory} {a : Nat} (h : a < m.size) : memRead m a = .ok (m.read a) := if_pos h

theorem memWrite_ok {m : Memory} {a : Nat} (h : a < m.size) (v : Byte) : memWrite m a v = .ok (m.write a v) := if_pos h

/-- A single-byte write that goes on wrote inside MEM. -/
theorem memWrite_cases {m m' : Memory} {a : Nat} {v : Byte} (h : memWrite m a v = .ok m') :
    a < m.size ∧ m' = m.write a v := by
  unfold memWrite at h
  split at h
  · next ha => exact ⟨ha, by simpa using h.symm⟩
  · simp at h

/-- Inside MEM, a wider read is the bytes at consecutive addresses. -/
theorem readBytes_ok {m : Memory} {a k : Nat} (h : a + k ≤ m.size) :
    readBytes m a k = .ok ((List.range k).map fun j => m.read (a + j)) := by
  induction k generalizing a with
  | zero => rfl
  | succ k ih =>
    rw [readBytes, memRead_ok (by omega), ih (by omega)]
    simp [List.range_succ_eq_map, bind, Except.bind, pure, Except.pure, Nat.add_comm, Nat.add_left_comm]

/-- Inside MEM, a wider write goes on; it keeps the size and the canonical form, stores its bytes at consecutive addresses
and leaves every other byte (R64, R69). -/
theorem writeBytes_ok {m : Memory} (hm : m.wf) {a : Nat} {bs : List Byte} (h : a + bs.length ≤ m.size) :
    ∃ m', writeBytes m a bs = .ok m' ∧ m'.size = m.size ∧ m'.wf
      ∧ ∀ x, m'.read x = if h : a ≤ x ∧ x < a + bs.length then bs[x - a]'(by omega) else m.read x := by
  induction bs generalizing m a with
  | nil => exact ⟨m, rfl, rfl, hm, fun x => by rw [dif_neg (by simp)]⟩
  | cons b bs ih =>
    simp only [List.length_cons] at h
    have ha : a < m.size := by omega
    obtain ⟨m', he, hsz, hwf, hr⟩ := ih (m := m.write a b) (Memory.write_wf hm ha b) (a := a + 1)
      (by simp only [Memory.write_size]; omega)
    refine ⟨m', by rw [writeBytes, memWrite_ok ha]; exact he, hsz, hwf, fun x => ?_⟩
    rw [hr, Memory.read_write hm]
    by_cases hx : x = a
    · subst hx
      rw [dif_neg (by omega), dif_pos (by simp)]
      simp
    · by_cases hin : a + 1 ≤ x ∧ x < a + 1 + bs.length
      · rw [dif_pos hin, dif_pos (by simp; omega)]
        have : x - a = (x - (a + 1)) + 1 := by omega
        simp [this]
      · rw [dif_neg hin, dif_neg (by simp; omega), if_neg hx]

/-- A wider write that goes on kept the size and the canonical form. -/
theorem writeBytes_wf {m m' : Memory} (hm : m.wf) {a : Nat} {bs : List Byte} (h : writeBytes m a bs = .ok m') :
    m'.size = m.size ∧ m'.wf := by
  induction bs generalizing m a with
  | nil => simp [writeBytes] at h; subst h; exact ⟨rfl, hm⟩
  | cons b bs ih =>
    rw [writeBytes] at h
    cases hw : memWrite m a b with
    | error e => simp [hw, bind, Except.bind] at h
    | ok m₁ =>
      obtain ⟨ha, rfl⟩ := memWrite_cases hw
      simp only [hw, bind, Except.bind] at h
      exact ih (m := m.write a b) (Memory.write_wf hm ha b) h

@[simp] theorem bytesBE_length (k v : Nat) : (bytesBE k v).length = k := by simp [bytesBE]

/-- Inside MEM, a patched byte is the slice primitive's answer on the byte, and no other byte changes (R162, R208). -/
theorem patchByte_ok {m : Memory} {a : Nat} (h : a < m.size) (b e v : Nat) :
    patchByte m a b e v = .ok (m.write a (setByteSlice (m.read a) b e v)) := by
  simp [patchByte, memRead_ok h, memWrite_ok h, bind, Except.bind]

/-- A patch that goes on kept the size and the canonical form. -/
theorem patchByte_wf {m m' : Memory} (hm : m.wf) {a b e v : Nat} (h : patchByte m a b e v = .ok m') :
    m'.size = m.size ∧ m'.wf := by
  by_cases ha : a < m.size
  · rw [patchByte_ok ha] at h
    cases h
    exact ⟨rfl, Memory.write_wf hm ha _⟩
  · simp [patchByte, memRead, ha, bind, Except.bind] at h

end Sys2Proof.Machine
end

