-- ==== Sys2Proof/Laws/Slice.lean ====
section
/-! SUPPORT. What the slice functions (R121 to R125) compute, as numbers and bit by bit. -/

namespace Sys2Proof.Machine

/-- Norm8 is the larger index cut to 7, and the smaller index (R121). -/
theorem norm8_eq (b e : Nat) : norm8 b e = (min 7 (max b e), min b e) := by
  by_cases h : b < e <;> simp only [norm8, h, if_true, if_false, Prod.mk.injEq] <;> constructor <;> (try split) <;> omega

/-- NormW is the larger and the smaller index (R122). -/
theorem normW_eq (b e : Nat) : normW b e = (max b e, min b e) := by
  unfold normW
  split <;> simp only [Prod.mk.injEq] <;> omega

/-- Masking keeps the low k+1 bits (R19). -/
theorem and_mask_toNat {w : Nat} (x : BitVec w) (k : Nat) : (x &&& mask w k).toNat = x.toNat % 2 ^ (k + 1) := by
  rw [BitVec.toNat_and, mask, BitVec.toNat_ofNat]
  apply Nat.eq_of_testBit_eq
  intro i
  rw [Nat.testBit_and, Nat.testBit_mod_two_pow, Nat.testBit_mod_two_pow, Nat.testBit_two_pow_sub_one]
  by_cases hi : i < w
  · simp [hi, Bool.and_comm]
  · simp [hi, BitVec.testBit_toNat, BitVec.getLsbD_of_ge x i (by omega)]

/-- GetByteSlice as arithmetic (R123). -/
theorem getByteSlice_toNat (x : Byte) (b e : Nat) :
    (getByteSlice x b e).toNat = x.toNat % 2 ^ (min 7 (max b e) + 1) / 2 ^ min b e := by
  simp only [getByteSlice, norm8_eq]
  rw [BitVec.toNat_ushiftRight, and_mask_toNat, Nat.shiftRight_eq_div_pow]

/-- GetWideSlice as arithmetic (R125). -/
theorem getWideSlice_toNat {w : Nat} (x : BitVec w) (b e : Nat) :
    (getWideSlice x b e).toNat = x.toNat % 2 ^ (max b e + 1) / 2 ^ min b e := by
  simp only [getWideSlice, normW_eq]
  rw [BitVec.toNat_ushiftRight, and_mask_toNat, Nat.shiftRight_eq_div_pow]

/-- GetByteSlice bit by bit (R123). -/
theorem getByteSlice_getLsbD (x : Byte) (b e j : Nat) :
    (getByteSlice x b e).getLsbD j = (decide (min b e + j ≤ min 7 (max b e)) && x.getLsbD (min b e + j)) := by
  rw [← BitVec.testBit_toNat, getByteSlice_toNat, ← Nat.shiftRight_eq_div_pow, Nat.testBit_shiftRight,
    Nat.testBit_mod_two_pow, BitVec.testBit_toNat]
  congr 1
  simp only [decide_eq_decide]
  omega

/-- SetByteSlice bit by bit (R124): the value inside the range, the byte outside it. -/
theorem setByteSlice_getLsbD (x : Byte) (b e v : Nat) {j : Nat} (hj : j < 8) :
    (setByteSlice x b e v).getLsbD j =
      if min b e ≤ j ∧ j ≤ min 7 (max b e) then v.testBit (j - min b e) else x.getLsbD j := by
  simp only [setByteSlice, norm8_eq]
  generalize hlo : min b e = lo
  generalize hhi : min 7 (max b e) = hi
  split
  · next h => rw [if_neg (by omega)]
  · next h =>
    have hmask : (mask 8 hi).getLsbD j = decide (j ≤ hi) := by
      rw [mask, BitVec.getLsbD_ofNat, Nat.testBit_two_pow_sub_one]
      simp [hj]
    have hlow : (BitVec.ofNat 8 (2 ^ lo - 1)).getLsbD j = decide (j < lo) := by
      rw [BitVec.getLsbD_ofNat, Nat.testBit_two_pow_sub_one]
      simp [hj]
    have hmid : (BitVec.ofNat 8 (trunc (hi - lo + 1) v <<< lo)).getLsbD j
        = (decide (lo ≤ j ∧ j ≤ hi) && v.testBit (j - lo)) := by
      rw [BitVec.getLsbD_ofNat, Nat.testBit_shiftLeft, trunc, Nat.testBit_mod_two_pow]
      by_cases h1 : lo ≤ j <;> by_cases h2 : j ≤ hi <;> simp [hj, h1, h2] <;> omega
    simp only [BitVec.getLsbD_or, BitVec.getLsbD_and, BitVec.getLsbD_not, hmask, hlow, hmid]
    by_cases h1 : lo ≤ j <;> by_cases h2 : j ≤ hi <;> simp [hj, h1, h2] <;> omega

end Sys2Proof.Machine
end

