-- ==== Sys2Proof/Laws/Ops.lean ====
section
/-! SUPPORT. One lemma per shared operation that says what it answers when it goes on, and when it does go on. -/

namespace Sys2Proof.Machine

/-! ### Going on -/

theorem orFault_next {α : Type} {x : Except Fault α} {k : α → Out} {t : State} (h : orFault x k = .next t) :
    ∃ a, x = .ok a ∧ k a = .next t := by
  cases x with
  | ok a => exact ⟨a, rfl, h⟩
  | error f => simp [orFault] at h

@[simp] theorem orFault_ok {α : Type} (a : α) (k : α → Out) : orFault (.ok a) k = k a := rfl

@[simp] theorem answer_eq (v : Word) (s : State) : answer v s = .next { s with result := v } := rfl

/-- A Byte Stream command goes on by its rule on a bound BY, and is ILLEGAL on an unbound one (R150). -/
theorem requireBY_next {s t : State} {k : State → Out} (h : requireBY s k = .next t) :
    (s.byteCtx.valid = true ∧ k s.accept = .next t) ∨ (s.byteCtx.valid = false ∧ t = s.illegal) := by
  unfold requireBY at h
  cases hv : s.byteCtx.valid <;> simp [hv] at h
  · exact .inr ⟨rfl, h.symm⟩
  · exact .inl ⟨rfl, h⟩

/-- A Bit Stream command goes on by its rule on a bound BT, and is ILLEGAL on an unbound one (R200). -/
theorem requireBT_next {s t : State} {k : State → Out} (h : requireBT s k = .next t) :
    (s.bitCtx.valid = true ∧ k s.accept = .next t) ∨ (s.bitCtx.valid = false ∧ t = s.illegal) := by
  unfold requireBT at h
  cases hv : s.bitCtx.valid <;> simp [hv] at h
  · exact .inr ⟨rfl, h.symm⟩
  · exact .inl ⟨rfl, h⟩

theorem requireBY_of_valid {s : State} (hv : s.byteCtx.valid = true) (k : State → Out) : requireBY s k = k s.accept :=
  if_pos hv

theorem requireBY_of_unbound {s : State} (hv : s.byteCtx.valid = false) (k : State → Out) :
    requireBY s k = .next s.illegal := if_neg (by simp [hv])

theorem requireBT_of_valid {s : State} (hv : s.bitCtx.valid = true) (k : State → Out) : requireBT s k = k s.accept :=
  if_pos hv

theorem requireBT_of_unbound {s : State} (hv : s.bitCtx.valid = false) (k : State → Out) :
    requireBT s k = .next s.illegal := if_neg (by simp [hv])

/-! ### Cursors -/

/-- forward moves below the limit, or records MoveOverrun (R152, R202). -/
theorem forward_cases (c : Context) (limit : Nat) (n : Word) :
    (c.cur.toNat + n.toNat < limit ∧ c.forward limit n = c.moveTo (c.cur.toNat + n.toNat))
      ∨ (limit ≤ c.cur.toNat + n.toNat ∧ c.forward limit n = c.setErr .moveOverrun) := by
  unfold Context.forward
  split
  · next h => exact .inr ⟨h, rfl⟩
  · next h => exact .inl ⟨by omega, rfl⟩

/-- back moves down to 0 at most, or records MoveOverrun (R153, R203). -/
theorem back_cases (c : Context) (n : Word) :
    (n.toNat ≤ c.cur.toNat ∧ c.back n = c.moveTo (c.cur.toNat - n.toNat))
      ∨ (c.cur.toNat < n.toNat ∧ c.back n = c.setErr .moveOverrun) := by
  unfold Context.back
  split
  · next h => exact .inr ⟨h, rfl⟩
  · next h => exact .inl ⟨by omega, rfl⟩

/-! ### Byte Stream accesses -/

/-- What SeqGet changes (R154). -/
theorem seqGet_next {k : Nat} {s t : State} (h : seqGet k s = .next t) :
    (s.byteCtx.cur.toNat + k ≤ s.byteCtx.len.toNat
      ∧ ∃ bs, readBytes s.mem (byteAddr s s.byteCtx.cur.toNat) k = .ok bs
        ∧ t = { s with byteCtx := s.byteCtx.moveTo (s.byteCtx.cur.toNat + k), result := zext32 (foldBE 0 bs) })
    ∨ (s.byteCtx.len.toNat < s.byteCtx.cur.toNat + k
      ∧ t = { s with byteCtx := (s.byteCtx.moveTo s.byteCtx.len.toNat).setErr .getOverrun, result := 0 }) := by
  unfold seqGet at h
  simp only at h
  split at h
  · next hk =>
    obtain ⟨bs, hb, ht⟩ := orFault_next h
    exact .inl ⟨hk, bs, hb, by simpa using ht.symm⟩
  · next hk => exact .inr ⟨by omega, by simpa using h.symm⟩

/-- What SeqSet changes (R158). -/
theorem seqSet_next {k v : Nat} {s t : State} (h : seqSet k v s = .next t) :
    ∃ m, writeBytes s.mem (byteAddr s s.byteCtx.cur.toNat)
        ((bytesBE k v).take (s.byteCtx.len.toNat - s.byteCtx.cur.toNat)) = .ok m
      ∧ ((s.byteCtx.cur.toNat + k ≤ s.byteCtx.len.toNat
          ∧ t = { s with byteCtx := s.byteCtx.moveTo (s.byteCtx.cur.toNat + k), mem := m })
        ∨ (s.byteCtx.len.toNat < s.byteCtx.cur.toNat + k
          ∧ t = { s with byteCtx := (s.byteCtx.moveTo s.byteCtx.len.toNat).setErr .setOverrun, mem := m })) := by
  unfold seqSet at h
  obtain ⟨m, hm, ht⟩ := orFault_next h
  refine ⟨m, hm, ?_⟩
  split at ht
  · next hk => exact .inl ⟨hk, by simpa using ht.symm⟩
  · next hk => exact .inr ⟨by omega, by simpa using ht.symm⟩

/-- What PosGet changes (R163). -/
theorem posGet_next {k pos : Nat} {s t : State} (h : posGet k pos s = .next t) :
    (s.byteCtx.len.toNat < pos + k ∧ t = { s with byteCtx := s.byteCtx.setErr .getOverrun, result := 0 })
    ∨ (pos + k ≤ s.byteCtx.len.toNat ∧ ∃ bs, readBytes s.mem (byteAddr s pos) k = .ok bs
        ∧ t = { s with result := zext32 (foldBE 0 bs) }) := by
  unfold posGet at h
  split at h
  · next hk => exact .inl ⟨hk, by simpa using h.symm⟩
  · next hk =>
    obtain ⟨bs, hb, ht⟩ := orFault_next h
    exact .inr ⟨by omega, bs, hb, by simpa using ht.symm⟩

/-- What PosSet changes (R167). -/
theorem posSet_next {k pos v : Nat} {s t : State} (h : posSet k pos v s = .next t) :
    (s.byteCtx.len.toNat < pos + k ∧ t = { s with byteCtx := s.byteCtx.setErr .setOverrun })
    ∨ (pos + k ≤ s.byteCtx.len.toNat ∧ ∃ m, writeBytes s.mem (byteAddr s pos) (bytesBE k v) = .ok m
        ∧ t = { s with mem := m }) := by
  unfold posSet at h
  split at h
  · next hk => exact .inl ⟨hk, by simpa using h.symm⟩
  · next hk =>
    obtain ⟨m, hm, ht⟩ := orFault_next h
    exact .inr ⟨by omega, m, hm, by simpa using ht.symm⟩

/-- What the slice patch changes (R162). -/
theorem bySetByteSlice_next {b e : Nat} {v : Word} {s t : State} (h : execBySetByteSlice b e v s = .next t)
    (hv : s.byteCtx.valid = true) :
    (s.byteCtx.cur = 0 ∧ t = s.accept)
    ∨ (s.byteCtx.cur ≠ 0 ∧ ∃ m, patchByte s.mem (byteAddr s (s.byteCtx.cur.toNat - 1)) b e v.toNat = .ok m
        ∧ t = { s.accept with mem := m }) := by
  rw [execBySetByteSlice, requireBY_of_valid hv] at h
  by_cases hc : s.byteCtx.cur = 0
  · exact .inl ⟨hc, by simpa [hc] using h.symm⟩
  · simp only [State.accept_byteCtx, State.accept_mem, hc, if_false] at h
    obtain ⟨m, hm, ht⟩ := orFault_next h
    exact .inr ⟨hc, m, hm, by simpa using ht.symm⟩

/-- A handoff changes the BT context, freshly bound, and at most the counter of free values (R171, log 10). -/
theorem bindBitStream_eq (addr : Nat) (n : Word) (s : State) :
    ∃ b d, bindBitStream addr n s = { s with bitCtx := Context.bound b n, freeDraws := d }
      ∧ (addr < 2 ^ 32 → b = zext32 addr ∧ d = s.freeDraws) := by
  unfold bindBitStream
  split
  · next h => exact ⟨zext32 addr, s.freeDraws, rfl, fun _ => ⟨rfl, rfl⟩⟩
  · next h => exact ⟨_, _, rfl, fun h' => absurd h' h⟩

/-! ### Bit Stream accesses -/

/-- A get passes its checks exactly for a width of 1..32 and a field inside the window (R204, R205). -/
theorem getFailure_none {n p bits : Nat} : getFailure n p bits = none ↔ 1 ≤ n ∧ n ≤ 32 ∧ p + n ≤ bits := by
  by_cases h₀ : n = 0 <;> by_cases h₁ : 32 < n <;> by_cases h₂ : bits < p + n <;>
    simp [getFailure, Config.maxWidth, h₀, h₁, h₂]
  omega

/-- A set passes its checks exactly for a width of 1..32 and a field inside the window (R204, R205). -/
theorem setFailure_none {n p bits : Nat} : setFailure n p bits = none ↔ 1 ≤ n ∧ n ≤ 32 ∧ p + n ≤ bits := by
  by_cases h₀ : n = 0 <;> by_cases h₁ : 32 < n <;> by_cases h₂ : bits < p + n <;>
    simp [setFailure, Config.maxWidth, h₀, h₁, h₂]
  omega

/-- What a get of a field changes (R210, R212). -/
theorem bitGet_next {n p : Nat} {after : Context} {s t : State} (h : bitGet n p after s = .next t) :
    (∃ e, getFailure n p s.bitCtx.bitLen = some e ∧ t = { s with bitCtx := s.bitCtx.setErr e, result := 0 })
    ∨ (getFailure n p s.bitCtx.bitLen = none ∧ ∃ v, fieldGet s.mem s.bitCtx.base.toNat p n = .ok v
        ∧ t = { s with bitCtx := after, result := zext32 v }) := by
  unfold bitGet at h
  split at h
  · next e he => exact .inl ⟨e, he, by simpa using h.symm⟩
  · next he =>
    obtain ⟨v, hv, ht⟩ := orFault_next h
    exact .inr ⟨he, v, hv, by simpa using ht.symm⟩

/-- What a set of a field changes (R211, R213). -/
theorem bitSet_next {n p v : Nat} {after : Context} {s t : State} (h : bitSet n p v after s = .next t) :
    (∃ e, setFailure n p s.bitCtx.bitLen = some e ∧ t = { s with bitCtx := s.bitCtx.setErr e })
    ∨ (setFailure n p s.bitCtx.bitLen = none ∧ ∃ m, fieldSet s.mem s.bitCtx.base.toNat p n v = .ok m
        ∧ t = { s with bitCtx := after, mem := m }) := by
  unfold bitSet at h
  split at h
  · next e he => exact .inl ⟨e, he, by simpa using h.symm⟩
  · next he =>
    obtain ⟨m, hm, ht⟩ := orFault_next h
    exact .inr ⟨he, m, hm, by simpa using ht.symm⟩

/-- A failure code of a get is GetOverrun or GetZeroWidth (R251). -/
theorem getFailure_some {n p bits : Nat} {e : ErrorKind} (h : getFailure n p bits = some e) :
    e = .getOverrun ∨ e = .getZeroWidth := by
  unfold getFailure at h
  split at h
  · exact .inr (by simpa using h.symm)
  · split at h
    · exact .inl (by simpa using h.symm)
    · split at h
      · exact .inl (by simpa using h.symm)
      · simp at h

/-- A failure code of a set is SetOverrun or SetZeroWidth (R251). -/
theorem setFailure_some {n p bits : Nat} {e : ErrorKind} (h : setFailure n p bits = some e) :
    e = .setOverrun ∨ e = .setZeroWidth := by
  unfold setFailure at h
  split at h
  · exact .inr (by simpa using h.symm)
  · split at h
    · exact .inl (by simpa using h.symm)
    · split at h
      · exact .inl (by simpa using h.symm)
      · simp at h

/-- A field write that goes on kept the size and the canonical form of MEM. -/
theorem fieldSet_wf {m m' : Memory} (hm : m.wf) {base p n v : Nat} (h : fieldSet m base p n v = .ok m') :
    m'.size = m.size ∧ m'.wf := by
  unfold fieldSet at h
  simp only at h
  split at h
  · exact patchByte_wf hm h
  · simp only [bind, Except.bind] at h
    split at h
    · simp at h
    · next m₁ h₁ =>
      obtain ⟨hs₁, hw₁⟩ := patchByte_wf hm h₁
      split at h
      · simp at h
      · next m₂ h₂ =>
        obtain ⟨hs₂, hw₂⟩ := writeBytes_wf hw₁ h₂
        obtain ⟨hs₃, hw₃⟩ := patchByte_wf hw₂ h
        exact ⟨by omega, hw₃⟩

end Sys2Proof.Machine
end

