-- ==== Sys2Proof/Laws/Effects.lean ====
section
/-! SUPPORT. Everything a command can change, said once per instruction, and the one lemma that a command which goes on
changes no more: later proofs take the cases of `Effect` instead of unfolding the meanings. -/

namespace Sys2Proof.Machine

/-- The next states an instruction may give, up to the values it computes. -/
def Effect (i : Instr) (s t : State) : Prop :=
  match i with
  | .slGetByteSlice _ _ _ | .slSetByteSlice _ _ _ _ | .slGetShortSlice _ _ _ | .slGetIntSlice _ _ _ =>
    ∃ r, t = { s.accept with result := r }
  | .byInit _ base len =>
    t = s.illegal ∨ ∃ m, t = { s.accept with byteCtx := Context.bound base len, mem := m }
  | .btInit _ base len =>
    t = s.illegal ∨ ∃ m, t = { s.accept with bitCtx := Context.bound base len, mem := m }
  | .byGetBitStream n =>
    t = s.illegal ∨ ∃ b d, t = { s.accept with bitCtx := Context.bound b n, freeDraws := d }
  | .byForward _ | .byBack _ =>
    t = s.illegal ∨ t = { s.accept with byteCtx := s.byteCtx.setErr .moveOverrun }
      ∨ ∃ p, t = { s.accept with byteCtx := s.byteCtx.moveTo p }
          ∧ (p < s.byteCtx.len.toNat ∨ p ≤ s.byteCtx.cur.toNat)
  | .btForward _ | .btBack _ =>
    t = s.illegal ∨ t = { s.accept with bitCtx := s.bitCtx.setErr .moveOverrun }
      ∨ ∃ p, t = { s.accept with bitCtx := s.bitCtx.moveTo p } ∧ (p < s.bitCtx.bitLen ∨ p ≤ s.bitCtx.cur.toNat)
  | .byGetByte | .byGetWord | .byGetDword =>
    t = s.illegal
      ∨ (∃ p r, t = { s.accept with byteCtx := s.byteCtx.moveTo p, result := r })
      ∨ ∃ p, t = { s.accept with byteCtx := (s.byteCtx.moveTo p).setErr .getOverrun, result := 0 }
  | .bySetByte _ | .bySetWord _ | .bySetDword _ =>
    t = s.illegal
      ∨ (∃ p m, t = { s.accept with byteCtx := s.byteCtx.moveTo p, mem := m })
      ∨ ∃ p m, t = { s.accept with byteCtx := (s.byteCtx.moveTo p).setErr .setOverrun, mem := m }
  | .bySetByteSlice _ _ _ => t = s.illegal ∨ ∃ m, t = { s.accept with mem := m }
  | .byGetByteByPos _ | .byGetWordByPos _ | .byGetDwordByPos _ =>
    t = s.illegal ∨ t = { s.accept with byteCtx := s.byteCtx.setErr .getOverrun, result := 0 }
      ∨ ∃ r, t = { s.accept with result := r }
  | .bySetByteByPos _ _ | .bySetWordByPos _ _ | .bySetDwordByPos _ _ =>
    t = s.illegal ∨ t = { s.accept with byteCtx := s.byteCtx.setErr .setOverrun } ∨ ∃ m, t = { s.accept with mem := m }
  | .byGetPos | .byGetError | .byGetLength | .byGetBuffer
  | .btGetPos | .btGetBytePos | .btGetError | .btGetLength | .btGetBuffer =>
    t = s.illegal ∨ ∃ r, t = { s.accept with result := r }
  | .btGetBit _ =>
    t = s.illegal
      ∨ (∃ e, (e = .getOverrun ∨ e = .getZeroWidth) ∧ t = { s.accept with bitCtx := s.bitCtx.setErr e, result := 0 })
      ∨ ∃ p r, t = { s.accept with bitCtx := s.bitCtx.moveTo p, result := r }
  | .btGetBitByPos _ _ =>
    t = s.illegal
      ∨ (∃ e, (e = .getOverrun ∨ e = .getZeroWidth) ∧ t = { s.accept with bitCtx := s.bitCtx.setErr e, result := 0 })
      ∨ ∃ r, t = { s.accept with result := r }
  | .btSetBit _ _ =>
    t = s.illegal
      ∨ (∃ e, (e = .setOverrun ∨ e = .setZeroWidth) ∧ t = { s.accept with bitCtx := s.bitCtx.setErr e })
      ∨ ∃ p m, t = { s.accept with bitCtx := s.bitCtx.moveTo p, mem := m }
  | .btSetBitByPos _ _ _ =>
    t = s.illegal
      ∨ (∃ e, (e = .setOverrun ∨ e = .setZeroWidth) ∧ t = { s.accept with bitCtx := s.bitCtx.setErr e })
      ∨ ∃ m, t = { s.accept with mem := m }

variable {s t : State}

theorem next_eq {a : State} (h : (Host.Outcome.next a : Out) = .next t) : t = a := by cases h; rfl

theorem requireBY_effect {k : State → Out} {P : Prop} (h : requireBY s k = .next t)
    (hk : k s.accept = .next t → P) : t = s.illegal ∨ P :=
  (requireBY_next h).elim (fun h => .inr (hk h.2)) (fun h => .inl h.2)

theorem requireBT_effect {k : State → Out} {P : Prop} (h : requireBT s k = .next t)
    (hk : k s.accept = .next t → P) : t = s.illegal ∨ P :=
  (requireBT_next h).elim (fun h => .inr (hk h.2)) (fun h => .inl h.2)

theorem seqGet_effect {k : Nat} (h : seqGet k s.accept = .next t) :
    (∃ p r, t = { s.accept with byteCtx := s.byteCtx.moveTo p, result := r })
      ∨ ∃ p, t = { s.accept with byteCtx := (s.byteCtx.moveTo p).setErr .getOverrun, result := 0 } := by
  rcases seqGet_next h with ⟨_, _, _, h⟩ | ⟨_, h⟩
  · exact .inl ⟨_, _, h⟩
  · exact .inr ⟨_, h⟩

theorem seqSet_effect {k v : Nat} (h : seqSet k v s.accept = .next t) :
    (∃ p m, t = { s.accept with byteCtx := s.byteCtx.moveTo p, mem := m })
      ∨ ∃ p m, t = { s.accept with byteCtx := (s.byteCtx.moveTo p).setErr .setOverrun, mem := m } := by
  obtain ⟨m, _, ⟨_, h⟩ | ⟨_, h⟩⟩ := seqSet_next h
  · exact .inl ⟨_, m, h⟩
  · exact .inr ⟨_, m, h⟩

theorem posGet_effect {k p : Nat} (h : posGet k p s.accept = .next t) :
    t = { s.accept with byteCtx := s.byteCtx.setErr .getOverrun, result := 0 }
      ∨ ∃ r, t = { s.accept with result := r } :=
  (posGet_next h).imp (fun h => h.2) (fun ⟨_, _, _, h⟩ => ⟨_, h⟩)

theorem posSet_effect {k p v : Nat} (h : posSet k p v s.accept = .next t) :
    t = { s.accept with byteCtx := s.byteCtx.setErr .setOverrun } ∨ ∃ m, t = { s.accept with mem := m } :=
  (posSet_next h).imp (fun h => h.2) (fun ⟨_, _, _, h⟩ => ⟨_, h⟩)

theorem bitGet_effect {n p : Nat} {c : Context} (h : bitGet n p c s.accept = .next t) :
    (∃ e, (e = .getOverrun ∨ e = .getZeroWidth) ∧ t = { s.accept with bitCtx := s.bitCtx.setErr e, result := 0 })
      ∨ ∃ r, t = { s.accept with bitCtx := c, result := r } :=
  (bitGet_next h).imp (fun ⟨e, he, h⟩ => ⟨e, getFailure_some he, h⟩) (fun ⟨_, _, _, h⟩ => ⟨_, h⟩)

theorem bitSet_effect {n p v : Nat} {c : Context} (h : bitSet n p v c s.accept = .next t) :
    (∃ e, (e = .setOverrun ∨ e = .setZeroWidth) ∧ t = { s.accept with bitCtx := s.bitCtx.setErr e })
      ∨ ∃ m, t = { s.accept with bitCtx := c, mem := m } :=
  (bitSet_next h).imp (fun ⟨e, he, h⟩ => ⟨e, setFailure_some he, h⟩) (fun ⟨_, m, _, h⟩ => ⟨m, h⟩)

theorem byForward_effect {n : Word} (h : execByForward n s = .next t) : Effect (.byForward n) s t := by
  refine requireBY_effect h fun h => ?_
  rcases forward_cases s.byteCtx s.byteCtx.len.toNat n with ⟨hl, he⟩ | ⟨hl, he⟩
  · exact .inr ⟨_, by rw [← he]; exact next_eq h, .inl hl⟩
  · exact .inl (by rw [← he]; exact next_eq h)

theorem byBack_effect {n : Word} (h : execByBack n s = .next t) : Effect (.byBack n) s t := by
  refine requireBY_effect h fun h => ?_
  rcases back_cases s.byteCtx n with ⟨hl, he⟩ | ⟨hl, he⟩
  · exact .inr ⟨_, by rw [← he]; exact next_eq h, .inr (Nat.sub_le _ _)⟩
  · exact .inl (by rw [← he]; exact next_eq h)

theorem btForward_effect {n : Word} (h : execBtForward n s = .next t) : Effect (.btForward n) s t := by
  refine requireBT_effect h fun h => ?_
  rcases forward_cases s.bitCtx s.bitCtx.bitLen n with ⟨hl, he⟩ | ⟨hl, he⟩
  · exact .inr ⟨_, by rw [← he]; exact next_eq h, .inl hl⟩
  · exact .inl (by rw [← he]; exact next_eq h)

theorem btBack_effect {n : Word} (h : execBtBack n s = .next t) : Effect (.btBack n) s t := by
  refine requireBT_effect h fun h => ?_
  rcases back_cases s.bitCtx n with ⟨hl, he⟩ | ⟨hl, he⟩
  · exact .inr ⟨_, by rw [← he]; exact next_eq h, .inr (Nat.sub_le _ _)⟩
  · exact .inl (by rw [← he]; exact next_eq h)

theorem byInit_effect {mode : Mode} {b l : Word} (h : execByInit mode b l s = .next t) :
    Effect (.byInit mode b l) s t := by
  unfold execByInit at h
  split at h
  · exact .inr ⟨_, next_eq h⟩
  · exact .inl (next_eq h)

theorem btInit_effect {mode : Mode} {b l : Word} (h : execBtInit mode b l s = .next t) :
    Effect (.btInit mode b l) s t := by
  unfold execBtInit at h
  split at h
  · exact .inr ⟨_, next_eq h⟩
  · exact .inl (next_eq h)

theorem byGetBitStream_effect {n : Word} (h : execByGetBitStream n s = .next t) : Effect (.byGetBitStream n) s t := by
  unfold execByGetBitStream at h
  split at h
  · obtain ⟨b, d, he, -⟩ := bindBitStream_eq (byteAddr s s.byteCtx.cur.toNat) n s.accept
    exact .inr ⟨b, d, by rw [← he]; exact next_eq h⟩
  · exact .inl (next_eq h)

theorem bySetByteSlice_effect {b e : Nat} {v : Word} (h : execBySetByteSlice b e v s = .next t) :
    Effect (.bySetByteSlice b e v) s t := by
  cases hv : s.byteCtx.valid with
  | false => rw [execBySetByteSlice, requireBY_of_unbound hv] at h; exact .inl (next_eq h)
  | true =>
    rcases bySetByteSlice_next h hv with ⟨_, h⟩ | ⟨_, m, _, h⟩
    · exact .inr ⟨s.mem, h⟩
    · exact .inr ⟨m, h⟩

/-- An instruction that goes on has one of its effects. -/
theorem exec_effect {i : Instr} (h : exec i s = .next t) : Effect i s t := by
  cases i with
  | slGetByteSlice _ _ _ => exact ⟨_, next_eq h⟩
  | slSetByteSlice _ _ _ _ => exact ⟨_, next_eq h⟩
  | slGetShortSlice _ _ _ => exact ⟨_, next_eq h⟩
  | slGetIntSlice _ _ _ => exact ⟨_, next_eq h⟩
  | byInit _ _ _ => exact byInit_effect h
  | byForward _ => exact byForward_effect h
  | byBack _ => exact byBack_effect h
  | byGetByte => exact requireBY_effect h seqGet_effect
  | byGetWord => exact requireBY_effect h seqGet_effect
  | byGetDword => exact requireBY_effect h seqGet_effect
  | bySetByte _ => exact requireBY_effect h seqSet_effect
  | bySetWord _ => exact requireBY_effect h seqSet_effect
  | bySetDword _ => exact requireBY_effect h seqSet_effect
  | bySetByteSlice _ _ _ => exact bySetByteSlice_effect h
  | byGetByteByPos _ => exact requireBY_effect h posGet_effect
  | byGetWordByPos _ => exact requireBY_effect h posGet_effect
  | byGetDwordByPos _ => exact requireBY_effect h posGet_effect
  | bySetByteByPos _ _ => exact requireBY_effect h posSet_effect
  | bySetWordByPos _ _ => exact requireBY_effect h posSet_effect
  | bySetDwordByPos _ _ => exact requireBY_effect h posSet_effect
  | byGetBitStream _ => exact byGetBitStream_effect h
  | byGetPos => exact requireBY_effect h fun h => ⟨_, next_eq h⟩
  | byGetError => exact requireBY_effect h fun h => ⟨_, next_eq h⟩
  | byGetLength => exact requireBY_effect h fun h => ⟨_, next_eq h⟩
  | byGetBuffer => exact requireBY_effect h fun h => ⟨_, next_eq h⟩
  | btInit _ _ _ => exact btInit_effect h
  | btForward _ => exact btForward_effect h
  | btBack _ => exact btBack_effect h
  | btGetBit _ => exact requireBT_effect h fun h => (bitGet_effect h).imp_right fun ⟨r, h⟩ => ⟨_, r, h⟩
  | btSetBit _ _ => exact requireBT_effect h fun h => (bitSet_effect h).imp_right fun ⟨m, h⟩ => ⟨_, m, h⟩
  | btGetBitByPos _ _ => exact requireBT_effect h bitGet_effect
  | btSetBitByPos _ _ _ => exact requireBT_effect h bitSet_effect
  | btGetPos => exact requireBT_effect h fun h => ⟨_, next_eq h⟩
  | btGetBytePos => exact requireBT_effect h fun h => ⟨_, next_eq h⟩
  | btGetError => exact requireBT_effect h fun h => ⟨_, next_eq h⟩
  | btGetLength => exact requireBT_effect h fun h => ⟨_, next_eq h⟩
  | btGetBuffer => exact requireBT_effect h fun h => ⟨_, next_eq h⟩

end Sys2Proof.Machine
end

