-- ==== Sys2Proof/Laws/PerInstr.lean ====
section
/-! SUPPORT. Facts about every instruction as syntax, one lemma per constructor: its row in the opcode table, and the
fields its row does not use. -/

namespace Sys2Proof.Laws.EncodedOp

/-- The OP field of the encoding is the instruction's opcode, and the table has a row for it (R94, R98). -/
def Statement (i : Instr) : Prop := cmdOp (encode i).cmd = i.opcode ∧ i.opcode ∈ opTable.map OpRow.op

theorem slGetByteSlice (ixBegin ixEnd : Nat) (x : Word) : Statement (.slGetByteSlice ixBegin ixEnd x) :=
  ⟨cmdOp_packCmd _ _, (by decide : (0x01 : Byte) ∈ opTable.map OpRow.op)⟩

theorem slSetByteSlice (ixBegin ixEnd : Nat) (x v : Word) : Statement (.slSetByteSlice ixBegin ixEnd x v) :=
  ⟨cmdOp_packCmd _ _, (by decide : (0x02 : Byte) ∈ opTable.map OpRow.op)⟩

theorem slGetShortSlice (ixBegin ixEnd : Nat) (x : Word) : Statement (.slGetShortSlice ixBegin ixEnd x) :=
  ⟨cmdOp_packCmd _ _, (by decide : (0x03 : Byte) ∈ opTable.map OpRow.op)⟩

theorem slGetIntSlice (ixBegin ixEnd : Nat) (x : Word) : Statement (.slGetIntSlice ixBegin ixEnd x) :=
  ⟨cmdOp_packCmd _ _, (by decide : (0x04 : Byte) ∈ opTable.map OpRow.op)⟩

theorem byInit (mode : Mode) (base len : Word) : Statement (.byInit mode base len) :=
  ⟨cmdOp_packCmd _ _, (by decide : (0x10 : Byte) ∈ opTable.map OpRow.op)⟩

theorem byForward (n : Word) : Statement (.byForward n) :=
  ⟨cmdOp_packCmd _ _, (by decide : (0x11 : Byte) ∈ opTable.map OpRow.op)⟩

theorem byBack (n : Word) : Statement (.byBack n) :=
  ⟨cmdOp_packCmd _ _, (by decide : (0x12 : Byte) ∈ opTable.map OpRow.op)⟩

theorem byGetByte : Statement .byGetByte :=
  ⟨cmdOp_packCmd _ _, (by decide : (0x13 : Byte) ∈ opTable.map OpRow.op)⟩

theorem byGetWord : Statement .byGetWord :=
  ⟨cmdOp_packCmd _ _, (by decide : (0x14 : Byte) ∈ opTable.map OpRow.op)⟩

theorem byGetDword : Statement .byGetDword :=
  ⟨cmdOp_packCmd _ _, (by decide : (0x15 : Byte) ∈ opTable.map OpRow.op)⟩

theorem bySetByte (v : Word) : Statement (.bySetByte v) :=
  ⟨cmdOp_packCmd _ _, (by decide : (0x16 : Byte) ∈ opTable.map OpRow.op)⟩

theorem bySetWord (v : Word) : Statement (.bySetWord v) :=
  ⟨cmdOp_packCmd _ _, (by decide : (0x17 : Byte) ∈ opTable.map OpRow.op)⟩

theorem bySetDword (v : Word) : Statement (.bySetDword v) :=
  ⟨cmdOp_packCmd _ _, (by decide : (0x18 : Byte) ∈ opTable.map OpRow.op)⟩

theorem bySetByteSlice (ixBegin ixEnd : Nat) (v : Word) : Statement (.bySetByteSlice ixBegin ixEnd v) :=
  ⟨cmdOp_packCmd _ _, (by decide : (0x19 : Byte) ∈ opTable.map OpRow.op)⟩

theorem byGetByteByPos (pos : Word) : Statement (.byGetByteByPos pos) :=
  ⟨cmdOp_packCmd _ _, (by decide : (0x1A : Byte) ∈ opTable.map OpRow.op)⟩

theorem byGetWordByPos (pos : Word) : Statement (.byGetWordByPos pos) :=
  ⟨cmdOp_packCmd _ _, (by decide : (0x1B : Byte) ∈ opTable.map OpRow.op)⟩

theorem byGetDwordByPos (pos : Word) : Statement (.byGetDwordByPos pos) :=
  ⟨cmdOp_packCmd _ _, (by decide : (0x1C : Byte) ∈ opTable.map OpRow.op)⟩

theorem bySetByteByPos (pos v : Word) : Statement (.bySetByteByPos pos v) :=
  ⟨cmdOp_packCmd _ _, (by decide : (0x1D : Byte) ∈ opTable.map OpRow.op)⟩

theorem bySetWordByPos (pos v : Word) : Statement (.bySetWordByPos pos v) :=
  ⟨cmdOp_packCmd _ _, (by decide : (0x1E : Byte) ∈ opTable.map OpRow.op)⟩

theorem bySetDwordByPos (pos v : Word) : Statement (.bySetDwordByPos pos v) :=
  ⟨cmdOp_packCmd _ _, (by decide : (0x1F : Byte) ∈ opTable.map OpRow.op)⟩

theorem byGetBitStream (n : Word) : Statement (.byGetBitStream n) :=
  ⟨cmdOp_packCmd _ _, (by decide : (0x20 : Byte) ∈ opTable.map OpRow.op)⟩

theorem byGetPos : Statement .byGetPos :=
  ⟨cmdOp_packCmd _ _, (by decide : (0x21 : Byte) ∈ opTable.map OpRow.op)⟩

theorem byGetError : Statement .byGetError :=
  ⟨cmdOp_packCmd _ _, (by decide : (0x22 : Byte) ∈ opTable.map OpRow.op)⟩

theorem byGetLength : Statement .byGetLength :=
  ⟨cmdOp_packCmd _ _, (by decide : (0x23 : Byte) ∈ opTable.map OpRow.op)⟩

theorem byGetBuffer : Statement .byGetBuffer :=
  ⟨cmdOp_packCmd _ _, (by decide : (0x24 : Byte) ∈ opTable.map OpRow.op)⟩

theorem btInit (mode : Mode) (base len : Word) : Statement (.btInit mode base len) :=
  ⟨cmdOp_packCmd _ _, (by decide : (0x30 : Byte) ∈ opTable.map OpRow.op)⟩

theorem btForward (n : Word) : Statement (.btForward n) :=
  ⟨cmdOp_packCmd _ _, (by decide : (0x31 : Byte) ∈ opTable.map OpRow.op)⟩

theorem btBack (n : Word) : Statement (.btBack n) :=
  ⟨cmdOp_packCmd _ _, (by decide : (0x32 : Byte) ∈ opTable.map OpRow.op)⟩

theorem btGetBit (n : Nat) : Statement (.btGetBit n) :=
  ⟨cmdOp_packCmd _ _, (by decide : (0x33 : Byte) ∈ opTable.map OpRow.op)⟩

theorem btSetBit (n : Nat) (v : Word) : Statement (.btSetBit n v) :=
  ⟨cmdOp_packCmd _ _, (by decide : (0x34 : Byte) ∈ opTable.map OpRow.op)⟩

theorem btGetBitByPos (n : Nat) (pos : Word) : Statement (.btGetBitByPos n pos) :=
  ⟨cmdOp_packCmd _ _, (by decide : (0x35 : Byte) ∈ opTable.map OpRow.op)⟩

theorem btSetBitByPos (n : Nat) (pos v : Word) : Statement (.btSetBitByPos n pos v) :=
  ⟨cmdOp_packCmd _ _, (by decide : (0x36 : Byte) ∈ opTable.map OpRow.op)⟩

theorem btGetPos : Statement .btGetPos :=
  ⟨cmdOp_packCmd _ _, (by decide : (0x37 : Byte) ∈ opTable.map OpRow.op)⟩

theorem btGetBytePos : Statement .btGetBytePos :=
  ⟨cmdOp_packCmd _ _, (by decide : (0x38 : Byte) ∈ opTable.map OpRow.op)⟩

theorem btGetError : Statement .btGetError :=
  ⟨cmdOp_packCmd _ _, (by decide : (0x39 : Byte) ∈ opTable.map OpRow.op)⟩

theorem btGetLength : Statement .btGetLength :=
  ⟨cmdOp_packCmd _ _, (by decide : (0x3A : Byte) ∈ opTable.map OpRow.op)⟩

theorem btGetBuffer : Statement .btGetBuffer :=
  ⟨cmdOp_packCmd _ _, (by decide : (0x3B : Byte) ∈ opTable.map OpRow.op)⟩

end Sys2Proof.Laws.EncodedOp

namespace Sys2Proof.Laws.EncodedFields

/-- RSV of the encoding is 0, and the encoding's N, BEGIN, END and M fields are the instruction's own, cut to their widths
(R91). -/
def Statement (i : Instr) : Prop :=
  cmdRsv (encode i).cmd = 0 ∧ cmdN (encode i).cmd = i.fields.n % 2 ^ 8
    ∧ cmdBegin (encode i).cmd = i.fields.ixBegin % 2 ^ 5 ∧ cmdEnd (encode i).cmd = i.fields.ixEnd % 2 ^ 5
    ∧ cmdMode (encode i).cmd = i.fields.mode

theorem slGetByteSlice (ixBegin ixEnd : Nat) (x : Word) : Statement (.slGetByteSlice ixBegin ixEnd x) :=
  ⟨cmdRsv_packCmd _ _, cmdN_packCmd _ _, cmdBegin_packCmd _ _, cmdEnd_packCmd _ _,
    cmdMode_packCmd _ _⟩

theorem slSetByteSlice (ixBegin ixEnd : Nat) (x v : Word) : Statement (.slSetByteSlice ixBegin ixEnd x v) :=
  ⟨cmdRsv_packCmd _ _, cmdN_packCmd _ _, cmdBegin_packCmd _ _, cmdEnd_packCmd _ _,
    cmdMode_packCmd _ _⟩

theorem slGetShortSlice (ixBegin ixEnd : Nat) (x : Word) : Statement (.slGetShortSlice ixBegin ixEnd x) :=
  ⟨cmdRsv_packCmd _ _, cmdN_packCmd _ _, cmdBegin_packCmd _ _, cmdEnd_packCmd _ _,
    cmdMode_packCmd _ _⟩

theorem slGetIntSlice (ixBegin ixEnd : Nat) (x : Word) : Statement (.slGetIntSlice ixBegin ixEnd x) :=
  ⟨cmdRsv_packCmd _ _, cmdN_packCmd _ _, cmdBegin_packCmd _ _, cmdEnd_packCmd _ _,
    cmdMode_packCmd _ _⟩

theorem byInit (mode : Mode) (base len : Word) : Statement (.byInit mode base len) :=
  ⟨cmdRsv_packCmd _ _, cmdN_packCmd _ _, cmdBegin_packCmd _ _, cmdEnd_packCmd _ _,
    cmdMode_packCmd _ _⟩

theorem byForward (n : Word) : Statement (.byForward n) :=
  ⟨cmdRsv_packCmd _ _, cmdN_packCmd _ _, cmdBegin_packCmd _ _, cmdEnd_packCmd _ _,
    cmdMode_packCmd _ _⟩

theorem byBack (n : Word) : Statement (.byBack n) :=
  ⟨cmdRsv_packCmd _ _, cmdN_packCmd _ _, cmdBegin_packCmd _ _, cmdEnd_packCmd _ _,
    cmdMode_packCmd _ _⟩

theorem byGetByte : Statement .byGetByte :=
  ⟨cmdRsv_packCmd _ _, cmdN_packCmd _ _, cmdBegin_packCmd _ _, cmdEnd_packCmd _ _,
    cmdMode_packCmd _ _⟩

theorem byGetWord : Statement .byGetWord :=
  ⟨cmdRsv_packCmd _ _, cmdN_packCmd _ _, cmdBegin_packCmd _ _, cmdEnd_packCmd _ _,
    cmdMode_packCmd _ _⟩

theorem byGetDword : Statement .byGetDword :=
  ⟨cmdRsv_packCmd _ _, cmdN_packCmd _ _, cmdBegin_packCmd _ _, cmdEnd_packCmd _ _,
    cmdMode_packCmd _ _⟩

theorem bySetByte (v : Word) : Statement (.bySetByte v) :=
  ⟨cmdRsv_packCmd _ _, cmdN_packCmd _ _, cmdBegin_packCmd _ _, cmdEnd_packCmd _ _,
    cmdMode_packCmd _ _⟩

theorem bySetWord (v : Word) : Statement (.bySetWord v) :=
  ⟨cmdRsv_packCmd _ _, cmdN_packCmd _ _, cmdBegin_packCmd _ _, cmdEnd_packCmd _ _,
    cmdMode_packCmd _ _⟩

theorem bySetDword (v : Word) : Statement (.bySetDword v) :=
  ⟨cmdRsv_packCmd _ _, cmdN_packCmd _ _, cmdBegin_packCmd _ _, cmdEnd_packCmd _ _,
    cmdMode_packCmd _ _⟩

theorem bySetByteSlice (ixBegin ixEnd : Nat) (v : Word) : Statement (.bySetByteSlice ixBegin ixEnd v) :=
  ⟨cmdRsv_packCmd _ _, cmdN_packCmd _ _, cmdBegin_packCmd _ _, cmdEnd_packCmd _ _,
    cmdMode_packCmd _ _⟩

theorem byGetByteByPos (pos : Word) : Statement (.byGetByteByPos pos) :=
  ⟨cmdRsv_packCmd _ _, cmdN_packCmd _ _, cmdBegin_packCmd _ _, cmdEnd_packCmd _ _,
    cmdMode_packCmd _ _⟩

theorem byGetWordByPos (pos : Word) : Statement (.byGetWordByPos pos) :=
  ⟨cmdRsv_packCmd _ _, cmdN_packCmd _ _, cmdBegin_packCmd _ _, cmdEnd_packCmd _ _,
    cmdMode_packCmd _ _⟩

theorem byGetDwordByPos (pos : Word) : Statement (.byGetDwordByPos pos) :=
  ⟨cmdRsv_packCmd _ _, cmdN_packCmd _ _, cmdBegin_packCmd _ _, cmdEnd_packCmd _ _,
    cmdMode_packCmd _ _⟩

theorem bySetByteByPos (pos v : Word) : Statement (.bySetByteByPos pos v) :=
  ⟨cmdRsv_packCmd _ _, cmdN_packCmd _ _, cmdBegin_packCmd _ _, cmdEnd_packCmd _ _,
    cmdMode_packCmd _ _⟩

theorem bySetWordByPos (pos v : Word) : Statement (.bySetWordByPos pos v) :=
  ⟨cmdRsv_packCmd _ _, cmdN_packCmd _ _, cmdBegin_packCmd _ _, cmdEnd_packCmd _ _,
    cmdMode_packCmd _ _⟩

theorem bySetDwordByPos (pos v : Word) : Statement (.bySetDwordByPos pos v) :=
  ⟨cmdRsv_packCmd _ _, cmdN_packCmd _ _, cmdBegin_packCmd _ _, cmdEnd_packCmd _ _,
    cmdMode_packCmd _ _⟩

theorem byGetBitStream (n : Word) : Statement (.byGetBitStream n) :=
  ⟨cmdRsv_packCmd _ _, cmdN_packCmd _ _, cmdBegin_packCmd _ _, cmdEnd_packCmd _ _,
    cmdMode_packCmd _ _⟩

theorem byGetPos : Statement .byGetPos :=
  ⟨cmdRsv_packCmd _ _, cmdN_packCmd _ _, cmdBegin_packCmd _ _, cmdEnd_packCmd _ _,
    cmdMode_packCmd _ _⟩

theorem byGetError : Statement .byGetError :=
  ⟨cmdRsv_packCmd _ _, cmdN_packCmd _ _, cmdBegin_packCmd _ _, cmdEnd_packCmd _ _,
    cmdMode_packCmd _ _⟩

theorem byGetLength : Statement .byGetLength :=
  ⟨cmdRsv_packCmd _ _, cmdN_packCmd _ _, cmdBegin_packCmd _ _, cmdEnd_packCmd _ _,
    cmdMode_packCmd _ _⟩

theorem byGetBuffer : Statement .byGetBuffer :=
  ⟨cmdRsv_packCmd _ _, cmdN_packCmd _ _, cmdBegin_packCmd _ _, cmdEnd_packCmd _ _,
    cmdMode_packCmd _ _⟩

theorem btInit (mode : Mode) (base len : Word) : Statement (.btInit mode base len) :=
  ⟨cmdRsv_packCmd _ _, cmdN_packCmd _ _, cmdBegin_packCmd _ _, cmdEnd_packCmd _ _,
    cmdMode_packCmd _ _⟩

theorem btForward (n : Word) : Statement (.btForward n) :=
  ⟨cmdRsv_packCmd _ _, cmdN_packCmd _ _, cmdBegin_packCmd _ _, cmdEnd_packCmd _ _,
    cmdMode_packCmd _ _⟩

theorem btBack (n : Word) : Statement (.btBack n) :=
  ⟨cmdRsv_packCmd _ _, cmdN_packCmd _ _, cmdBegin_packCmd _ _, cmdEnd_packCmd _ _,
    cmdMode_packCmd _ _⟩

theorem btGetBit (n : Nat) : Statement (.btGetBit n) :=
  ⟨cmdRsv_packCmd _ _, cmdN_packCmd _ _, cmdBegin_packCmd _ _, cmdEnd_packCmd _ _,
    cmdMode_packCmd _ _⟩

theorem btSetBit (n : Nat) (v : Word) : Statement (.btSetBit n v) :=
  ⟨cmdRsv_packCmd _ _, cmdN_packCmd _ _, cmdBegin_packCmd _ _, cmdEnd_packCmd _ _,
    cmdMode_packCmd _ _⟩

theorem btGetBitByPos (n : Nat) (pos : Word) : Statement (.btGetBitByPos n pos) :=
  ⟨cmdRsv_packCmd _ _, cmdN_packCmd _ _, cmdBegin_packCmd _ _, cmdEnd_packCmd _ _,
    cmdMode_packCmd _ _⟩

theorem btSetBitByPos (n : Nat) (pos v : Word) : Statement (.btSetBitByPos n pos v) :=
  ⟨cmdRsv_packCmd _ _, cmdN_packCmd _ _, cmdBegin_packCmd _ _, cmdEnd_packCmd _ _,
    cmdMode_packCmd _ _⟩

theorem btGetPos : Statement .btGetPos :=
  ⟨cmdRsv_packCmd _ _, cmdN_packCmd _ _, cmdBegin_packCmd _ _, cmdEnd_packCmd _ _,
    cmdMode_packCmd _ _⟩

theorem btGetBytePos : Statement .btGetBytePos :=
  ⟨cmdRsv_packCmd _ _, cmdN_packCmd _ _, cmdBegin_packCmd _ _, cmdEnd_packCmd _ _,
    cmdMode_packCmd _ _⟩

theorem btGetError : Statement .btGetError :=
  ⟨cmdRsv_packCmd _ _, cmdN_packCmd _ _, cmdBegin_packCmd _ _, cmdEnd_packCmd _ _,
    cmdMode_packCmd _ _⟩

theorem btGetLength : Statement .btGetLength :=
  ⟨cmdRsv_packCmd _ _, cmdN_packCmd _ _, cmdBegin_packCmd _ _, cmdEnd_packCmd _ _,
    cmdMode_packCmd _ _⟩

theorem btGetBuffer : Statement .btGetBuffer :=
  ⟨cmdRsv_packCmd _ _, cmdN_packCmd _ _, cmdBegin_packCmd _ _, cmdEnd_packCmd _ _,
    cmdMode_packCmd _ _⟩

end Sys2Proof.Laws.EncodedFields
end

