-- ==== Sys2Proof/Tests/Slice0.lean ====
section
/-! SUPPORT. The model's own tests: the checks of WellFormed, the decoding of every command by a word of the spec, one-step
tests, and for every statement with hypotheses a concrete state that meets them. Expected values are those of
spec/95_test_vectors.md (named per test) or of the rule named, worked out by hand. -/

namespace Sys2Proof.Tests

open Sys2Proof Sys2Proof.Machine

/-! ### Helpers -/

/-- MEM of 0x1000 bytes with these bytes from address 0x100, where the vectors put their windows. -/
def memOf (bytes : List Byte) : Memory :=
  (bytes.zipIdx 0x100).foldl (fun m x => m.write x.2 x.1) { size := 0x1000, cells := [] }

/-- Only BY bound, over these bytes. -/
def byState (bytes : List Byte) (cur : Word) (err : BitVec 3 := 0) : State :=
  { State.resetWith (memOf bytes) with byteCtx := ⟨true, 0x100, BitVec.ofNat 32 bytes.length, cur, err⟩ }

/-- Only BT bound, over these bytes. -/
def btState (bytes : List Byte) (cur : Word) (err : BitVec 3 := 0) : State :=
  { State.resetWith (memOf bytes) with bitCtx := ⟨true, 0x100, BitVec.ofNat 32 bytes.length, cur, err⟩ }

/-- Both contexts bound over the same six bytes. -/
def both (byCur btCur : Word) : State :=
  { State.resetWith (memOf [0xDE, 0xAD, 0xBE, 0xEF, 0x12, 0x34]) with
    byteCtx := ⟨true, 0x100, 6, byCur, 0⟩, bitCtx := ⟨true, 0x100, 6, btCur, 0⟩ }

/-- Nothing bound, MEM of 2^32 bytes. -/
def hugeState : State := State.resetWith { size := 2 ^ 32, cells := [] }

/-- BY at the end of a window that ends at address 2^32. -/
def endState : State := { hugeState with byteCtx := ⟨true, 0xFFFFFFFE, 2, 2, 0⟩ }

/-- The state of an outcome that goes on. -/
def nextOf (o : Out) : Option State :=
  match o with
  | .next t => some t
  | .fault _ => none
  | .refused _ => none

/-- The state after the step that runs one command. -/
def after (cmd opa opb : Word) (s : State) : Option State := nextOf (step (presentCommand ⟨cmd, opa, opb⟩ s))

/-- The first k bytes of the window at 0x100. -/
def window (k : Nat) (s : State) : List Byte := (List.range k).map fun j => s.mem.read (0x100 + j)

/-- RESULT, CUR and ERR of BY. -/
def byView (s : State) : Word × Word × BitVec 3 := (s.result, s.byteCtx.cur, s.byteCtx.err)

/-- RESULT, CUR and ERR of BT. -/
def btView (s : State) : Word × Word × BitVec 3 := (s.result, s.bitCtx.cur, s.bitCtx.err)

/-! ### WellFormed refuses an operand that does not fit its field (R91) -/

theorem test_wf_begin_too_wide : (Instr.slGetByteSlice 32 0 0).wf = false := by decide
theorem test_wf_end_too_wide : (Instr.bySetByteSlice 0 32 0).wf = false := by decide
theorem test_wf_width_too_wide : (Instr.btSetBit 256 0).wf = false := by decide
theorem test_wf_largest_fields : (Instr.slGetIntSlice 31 31 0).wf = true ∧ (Instr.btGetBit 255).wf = true := by decide

/-! ### Decoding: words of the spec -/

/-- Bit by bit from R91, a word of each field shape: RSV, M, END, BEGIN, N, OP. -/
theorem test_decode_fields :
    decode ⟨0b00000_0_00100_00111_00000000_00000001, 0xA5, 0⟩ = .instr (.slGetByteSlice 7 4 0xA5)
    ∧ decode ⟨0b00000_1_00000_00000_00000000_00010000, 0x100, 4⟩ = .instr (.byInit .encode 0x100 4)
    ∧ decode ⟨0b00000_0_00000_00000_00000000_00011011, 2, 0⟩ = .instr (.byGetWordByPos 2)
    ∧ decode ⟨0b00000_0_00000_00000_11111111_00110011, 0, 0⟩ = .instr (.btGetBit 255)
    ∧ decode ⟨0b00000_0_11111_11110_00000000_00011001, 7, 0⟩ = .instr (.bySetByteSlice 30 31 7) := by decide

/-- SL-6. -/
theorem test_decode_slGetByteSlice : decode ⟨0x00490001, 0xA5, 0⟩ = .instr (.slGetByteSlice 9 2 0xA5) := by decide
/-- SL-12. -/
theorem test_decode_slSetByteSlice : decode ⟨0x00A20002, 0x5A, 0xF⟩ = .instr (.slSetByteSlice 2 5 0x5A 0xF) := by decide
/-- SL-20. -/
theorem test_decode_slGetShortSlice : decode ⟨0x021F0003, 0x1234, 0⟩ = .instr (.slGetShortSlice 31 16 0x1234) := by decide
/-- SL-25. -/
theorem test_decode_slGetIntSlice : decode ⟨0x03E00004, 0x12345678, 0⟩ = .instr (.slGetIntSlice 0 31 0x12345678) := by decide
/-- BY-I. -/
theorem test_decode_byInit : decode ⟨0x00000010, 0x100, 4⟩ = .instr (.byInit .decode 0x100 4) := by decide
/-- BY-F. -/
theorem test_decode_byForward : decode ⟨0x00000011, 0xFFFFFFFF, 0⟩ = .instr (.byForward 0xFFFFFFFF) := by decide
/-- BY-F. -/
theorem test_decode_byBack : decode ⟨0x00000012, 3, 0⟩ = .instr (.byBack 3) := by decide
/-- BY-E, operand words ignored. -/
theorem test_decode_byGetByte : decode ⟨0x00000013, 1, 0⟩ = .instr .byGetByte := by decide
/-- BY-G. -/
theorem test_decode_byGetWord : decode ⟨0x00000014, 0, 0⟩ = .instr .byGetWord := by decide
/-- BY-G. -/
theorem test_decode_byGetDword : decode ⟨0x00000015, 0, 0⟩ = .instr .byGetDword := by decide
/-- BY-S. -/
theorem test_decode_bySetByte : decode ⟨0x00000016, 0x1FF, 0⟩ = .instr (.bySetByte 0x1FF) := by decide
/-- BY-S. -/
theorem test_decode_bySetWord : decode ⟨0x00000017, 0x1234, 0⟩ = .instr (.bySetWord 0x1234) := by decide
/-- BY-SP. -/
theorem test_decode_bySetDword : decode ⟨0x00000018, 0xDEADBEEF, 0⟩ = .instr (.bySetDword 0xDEADBEEF) := by decide
/-- BY-S. -/
theorem test_decode_bySetByteSlice : decode ⟨0x00600019, 0xA, 0⟩ = .instr (.bySetByteSlice 0 3 0xA) := by decide
/-- BY-P. -/
theorem test_decode_byGetByteByPos : decode ⟨0x0000001A, 3, 0⟩ = .instr (.byGetByteByPos 3) := by decide
/-- BY-P. -/
theorem test_decode_byGetWordByPos : decode ⟨0x0000001B, 2, 0⟩ = .instr (.byGetWordByPos 2) := by decide
/-- BY-P. -/
theorem test_decode_byGetDwordByPos : decode ⟨0x0000001C, 1, 0⟩ = .instr (.byGetDwordByPos 1) := by decide
/-- BY-PS. -/
theorem test_decode_bySetByteByPos : decode ⟨0x0000001D, 3, 0x1FF⟩ = .instr (.bySetByteByPos 3 0x1FF) := by decide
/-- BY-PS. -/
theorem test_decode_bySetWordByPos : decode ⟨0x0000001E, 1, 0xBEEF⟩ = .instr (.bySetWordByPos 1 0xBEEF) := by decide
/-- BY-PS. -/
theorem test_decode_bySetDwordByPos : decode ⟨0x0000001F, 1, 0x01020304⟩ = .instr (.bySetDwordByPos 1 0x01020304) := by decide
/-- BY-H. -/
theorem test_decode_byGetBitStream : decode ⟨0x00000020, 2, 0⟩ = .instr (.byGetBitStream 2) := by decide
/-- BY-I. -/
theorem test_decode_byGetPos : decode ⟨0x00000021, 0, 0⟩ = .instr .byGetPos := by decide
/-- BY-I. -/
theorem test_decode_byGetError : decode ⟨0x00000022, 0, 0⟩ = .instr .byGetError := by decide
/-- BY-I. -/
theorem test_decode_byGetLength : decode ⟨0x00000023, 0, 0⟩ = .instr .byGetLength := by decide
/-- BY-I. -/
theorem test_decode_byGetBuffer : decode ⟨0x00000024, 0, 0⟩ = .instr .byGetBuffer := by decide
/-- S-L1-8. -/
theorem test_decode_btInit : decode ⟨0x04000030, 0x100, 4⟩ = .instr (.btInit .encode 0x100 4) := by decide
/-- BT-F2. -/
theorem test_decode_btForward : decode ⟨0x00000031, 0x10, 0⟩ = .instr (.btForward 0x10) := by decide
/-- BT-F5. -/
theorem test_decode_btBack : decode ⟨0x00000032, 0xD, 0⟩ = .instr (.btBack 0xD) := by decide
/-- BT-W. -/
theorem test_decode_btGetBit : decode ⟨0x00002133, 0, 0⟩ = .instr (.btGetBit 33) := by decide
/-- BT-S4. -/
theorem test_decode_btSetBit : decode ⟨0x00002034, 0xDEADBEEF, 0⟩ = .instr (.btSetBit 32 0xDEADBEEF) := by decide
/-- BT-G11. -/
theorem test_decode_btGetBitByPos : decode ⟨0x00000135, 0x17, 0⟩ = .instr (.btGetBitByPos 1 0x17) := by decide
/-- BT-S6. -/
theorem test_decode_btSetBitByPos : decode ⟨0x00001036, 4, 0⟩ = .instr (.btSetBitByPos 16 4 0) := by decide
/-- BT-X. -/
theorem test_decode_btGetPos : decode ⟨0x00000037, 0, 0⟩ = .instr .btGetPos := by decide
/-- BT-G6. -/
theorem test_decode_btGetBytePos : decode ⟨0x00000038, 0, 0⟩ = .instr .btGetBytePos := by decide
/-- S-L1-7. -/
theorem test_decode_btGetError : decode ⟨0x00000039, 0, 0⟩ = .instr .btGetError := by decide
/-- BY-H. -/
theorem test_decode_btGetLength : decode ⟨0x0000003A, 0, 0⟩ = .instr .btGetLength := by decide
/-- BY-H. -/
theorem test_decode_btGetBuffer : decode ⟨0x0000003B, 0, 0⟩ = .instr .btGetBuffer := by decide

/-- SL-36 and BY-E: an OP in no row (R96). -/
theorem test_decode_reserved_op :
    decode ⟨0x00000000, 0, 0⟩ = .illegal .reservedOp ∧ decode ⟨0x00000005, 0, 0⟩ = .illegal .reservedOp
    ∧ decode ⟨0x00000025, 0, 0⟩ = .illegal .reservedOp ∧ decode ⟨0x0000003C, 0, 0⟩ = .illegal .reservedOp := by decide

/-- SL-33 to SL-35, BY-E and BT-X: RSV or an unused field that is not 0 (R95). -/
theorem test_decode_reserved_field :
    decode ⟨0x00870101, 0xA5, 0⟩ = .illegal .reservedField ∧ decode ⟨0x04870001, 0xA5, 0⟩ = .illegal .reservedField
    ∧ decode ⟨0x08870001, 0xA5, 0⟩ = .illegal .reservedField ∧ decode ⟨0x00000111, 0, 0⟩ = .illegal .reservedField
    ∧ decode ⟨0x04000011, 0, 0⟩ = .illegal .reservedField ∧ decode ⟨0x00010013, 0, 0⟩ = .illegal .reservedField
    ∧ decode ⟨0x08000013, 0, 0⟩ = .illegal .reservedField ∧ decode ⟨0x04000133, 0, 0⟩ = .illegal .reservedField := by
  decide

/-- A row of spec/opcode_table.json with its operand words above CMD: BY_SETWORDBYPOS (R94; log 8). -/
theorem test_decodeTableWord :
    decodeTableWord 96 0x00001234_00000002_0000001E = some (.bySetWordByPos 2 0x1234)
    ∧ decodeTableWord 32 0x00001234_00000002_0000001E = some (.bySetWordByPos 0 0) := by decide

/-- The first step after reset runs the word placed (log 1): SL-1. -/
theorem test_withFetchWord :
    (nextOf (step (State.reset.withFetchWord 64 0x000000A5_00870001))).map (·.result) = some 0xA := by decide

/-! ### One command, one step -/

/-- SL-6: BEGIN clamped to 7. -/
theorem test_slGetByteSlice :
    (after 0x00490001 0xA5 0 State.reset).map (·.result) = some 0x29 := by decide
/-- SL-8: an empty range after the clamp. -/
theorem test_slGetByteSlice_empty :
    (after 0x01090001 0xA5 0 State.reset).map (·.result) = some 0 := by decide
/-- SL-16: clamp, value cut to 4 bits. -/
theorem test_slSetByteSlice :
    (after 0x008C0002 0 0xFFFF State.reset).map (·.result) = some 0xF0 := by decide
/-- SL-14: an empty range leaves the byte. -/
theorem test_slSetByteSlice_empty :
    (after 0x01090002 0xAB 0xFF State.reset).map (·.result) = some 0xAB := by decide
/-- SL-22: OPA[31:16] ignored. -/
theorem test_slGetShortSlice :
    (after 0x00070003 0xFFFF1234 0 State.reset).map (·.result) = some 0x34 := by decide
/-- SL-24. -/
theorem test_slGetIntSlice :
    (after 0x029B0004 0x12345678 0 State.reset).map (·.result) = some 0x23 := by decide
/-- BY-I3: a window past MEM is ILLEGAL. -/
theorem test_byInit :
    (after 0x00000010 0xFFE 3 State.reset).map (fun t => (t.byteCtx.valid, t.status)) = some (false, 3) := by decide
/-- BY-I: encode mode zero-fills the window only. -/
theorem test_byInit_encode :
    (after 0x04000010 0x100 4 (byState [0x11, 0x22, 0x33, 0x44, 0x55] 2)).map (fun t => (window 5 t, t.byteCtx))
    = some ([0, 0, 0, 0, 0x55], ⟨true, 0x100, 4, 0, 0⟩) := by decide
/-- BY-F: the exact sum does not wrap. -/
theorem test_byForward :
    (after 0x00000011 0xFFFFFFFF 0 (byState [1, 2, 3, 4] 3)).map byView = some (0, 3, 3) := by decide
/-- BY-F: L-1 is reached. -/
theorem test_byForward_below :
    (after 0x00000011 3 0 (byState [1, 2, 3, 4] 0)).map byView = some (0, 3, 0) := by decide
/-- BY-F. -/
theorem test_byBack :
    (after 0x00000012 3 0 (byState [1, 2, 3, 4] 3)).map byView = some (0, 0, 0) := by decide
/-- BY-F. -/
theorem test_byBack_past :
    (after 0x00000012 4 0 (byState [1, 2, 3, 4] 3)).map byView = some (0, 3, 3) := by decide
/-- S-L1-3: at L-1. -/
theorem test_byGetByte :
    (after 0x00000013 0 0 (byState [0, 0, 0, 0x77] 3 3)).map byView = some (0x77, 4, 3) := by decide
/-- BY-G: unaligned. -/
theorem test_byGetWord :
    (after 0x00000014 0 0 (byState [0xDE, 0xAD, 0xBE, 0xEF] 1)).map byView = some (0xADBE, 3, 0) := by decide
/-- BY-GP. -/
theorem test_byGetWord_past :
    (after 0x00000014 0 0 (byState [0xDE, 0xAD, 0xBE] 2)).map byView = some (0, 3, 1) := by decide
/-- BY-G. -/
theorem test_byGetDword :
    (after 0x00000015 0 0 (byState [0xDE, 0xAD, 0xBE, 0xEF] 0)).map byView = some (0xDEADBEEF, 4, 0) := by decide
/-- BY-S: OPA[31:8] ignored. -/
theorem test_bySetByte :
    (after 0x00000016 0x1FF 0 (byState [0x12, 0x34, 0xAA, 0xAA] 2)).map (fun t => (window 4 t, byView t))
    = some ([0x12, 0x34, 0xFF, 0xAA], 0, 3, 0) := by decide
/-- BY-SP: the byte that fits is written. -/
theorem test_bySetWord :
    (after 0x00000017 0x1234 0 (byState [0xAA, 0xAA, 0xAA] 2)).map (fun t => (window 4 t, byView t))
    = some ([0xAA, 0xAA, 0x12, 0], 0, 3, 2) := by decide
/-- BY-SP. -/
theorem test_bySetDword :
    (after 0x00000018 0xDEADBEEF 0 (byState [0xAA, 0xAA, 0xAA, 0xAA] 2)).map (fun t => (window 5 t, byView t))
    = some ([0xAA, 0xAA, 0xDE, 0xAD, 0], 0, 4, 2) := by decide
/-- BY-S: the byte before the cursor, swapped indices. -/
theorem test_bySetByteSlice :
    (after 0x00600019 0xA 0 (byState [0x12, 0x34, 0xF0, 0xAA] 3)).map (fun t => (window 4 t, byView t))
    = some ([0x12, 0x34, 0xFA, 0xAA], 0, 3, 0) := by decide
/-- BY-SL: no change at cursor 0. -/
theorem test_bySetByteSlice_start :
    (after 0x00070019 0 0 (byState [0x5A] 0)).map (fun t => (window 1 t, byView t)) = some ([0x5A], 0, 0, 0) := by decide
/-- BY-P: past the window. -/
theorem test_byGetByteByPos :
    (after 0x0000001A 4 0 (byState [0x12, 0x34, 0x56, 0x78] 1)).map byView = some (0, 1, 1) := by decide
/-- BY-P. -/
theorem test_byGetWordByPos :
    (after 0x0000001B 2 0 (byState [0x12, 0x34, 0x56, 0x78] 1 1)).map byView = some (0x5678, 1, 1) := by decide
/-- BY-P. -/
theorem test_byGetDwordByPos :
    (after 0x0000001C 0 0 (byState [0x12, 0x34, 0x56, 0x78] 1)).map byView = some (0x12345678, 1, 0) := by decide
/-- BY-PS. -/
theorem test_bySetByteByPos :
    (after 0x0000001D 3 0x1FF (byState [0xAA, 0xBE, 0xEF, 0] 1 2)).map (fun t => (window 4 t, byView t))
    = some ([0xAA, 0xBE, 0xEF, 0xFF], 0, 1, 2) := by decide
/-- BY-PS: no partial write. -/
theorem test_bySetWordByPos :
    (after 0x0000001E 3 0x1111 (byState [0xAA, 0xBE, 0xEF, 0] 1)).map (fun t => (window 4 t, byView t))
    = some ([0xAA, 0xBE, 0xEF, 0], 0, 1, 2) := by decide
/-- BY-PS. -/
theorem test_bySetDwordByPos :
    (after 0x0000001F 0 0x01020304 (byState [0xAA, 0xBE, 0xEF, 0xFF] 1)).map (fun t => (window 4 t, byView t))
    = some ([1, 2, 3, 4], 0, 1, 0) := by decide
/-- BY-H. -/
theorem test_byGetBitStream :
    (after 0x00000020 2 0 (byState [0xAB, 0xCD, 0xEF, 1] 1)).map (fun t => (t.bitCtx, t.byteCtx.cur))
    = some (⟨true, 0x101, 2, 0, 0⟩, 1) := by decide
/-- BY-H: ILLEGAL past the window. -/
theorem test_byGetBitStream_past :
    (after 0x00000020 4 0 (byState [0xAB, 0xCD, 0xEF, 1] 1)).map (fun t => (t.bitCtx.valid, t.status)) = some (false, 3) := by decide
/-- P2, step 11: the cursor. -/
theorem test_byGetPos :
    (after 0x00000021 0 0 (byState [1, 2, 3, 4, 5, 6] 6)).map byView = some (6, 6, 0) := by decide
/-- P4, step 6. -/
theorem test_byGetError :
    (after 0x00000022 0 0 (byState [1, 2, 3] 3 3)).map byView = some (3, 3, 3) := by decide
/-- BY-I. -/
theorem test_byGetLength :
    (after 0x00000023 0 0 (byState [0x11, 0x22, 0x33, 0x44] 0)).map byView = some (4, 0, 0) := by decide
/-- BY-I. -/
theorem test_byGetBuffer :
    (after 0x00000024 0 0 (byState [0x11, 0x22, 0x33, 0x44] 0)).map byView = some (0x100, 0, 0) := by decide
/-- BT-X: MAX_BIT_CAP alone. -/
theorem test_btInit :
    (after 0x00000030 0 0x20000000 hugeState).map (fun t => (t.bitCtx.valid, t.status)) = some (false, 3) := by decide
/-- BT-X: the largest capacity. -/
theorem test_btInit_largest :
    (after 0x00000030 0 0x1FFFFFFF hugeState).map (·.bitCtx) = some ⟨true, 0, 0x1FFFFFFF, 0, 0⟩ := by decide
/-- BT-F1: 8L-1 is reached. -/
theorem test_btForward :
    (after 0x00000031 0xF 0 (btState [0, 0] 0)).map btView = some (0, 15, 0) := by decide
/-- BT-F2: 8L is not. -/
theorem test_btForward_end :
    (after 0x00000031 0x10 0 (btState [0, 0] 0)).map btView = some (0, 0, 3) := by decide
/-- BT-F7: back from 8L. -/
theorem test_btBack :
    (after 0x00000032 16 0 (btState [0, 0] 16)).map btView = some (0, 0, 0) := by decide
/-- BT-G2: groups 4, 8, 4. -/
theorem test_btGetBit :
    (after 0x00001033 0 0 (btState [0xAB, 0xCD, 0xEF] 4)).map btView = some (0xBCDE, 20, 0) := by decide
/-- BT-W, row 8: width 0 before the bound. -/
theorem test_btGetBit_zero :
    (after 0x00000033 0 0 (btState [0, 0] 15)).map btView = some (0, 15, 4) := by decide
/-- BT-S1: a field over two bytes keeps the other bits. -/
theorem test_btSetBit :
    (after 0x00000434 0xF 0 (btState [0x5A, 0x5A] 6)).map (fun t => (window 2 t, btView t)) = some ([0x5B, 0xDA], 0, 10, 0) := by decide
/-- BT-S4: 32 bits over five bytes. -/
theorem test_btSetBit_wide :
    (after 0x00002034 0xDEADBEEF 0 (btState [0, 0, 0, 0, 0] 3)).map (fun t => (window 5 t, btView t))
    = some ([0x1B, 0xD5, 0xB7, 0xDD, 0xE0], 0, 35, 0) := by decide
/-- BT-G3: groups 7, 8, 7. -/
theorem test_btGetBitByPos :
    (after 0x00001635 1 0 (btState [0xAB, 0xCD, 0xEF] 24 1)).map btView = some (0x15E6F7, 24, 1) := by decide
/-- BT-G12. -/
theorem test_btGetBitByPos_past :
    (after 0x00000135 0x18 0 (btState [0xAB, 0xCD, 0xEF] 24)).map btView = some (0, 24, 1) := by decide
/-- BT-S6. -/
theorem test_btSetBitByPos :
    (after 0x00001036 4 0 (btState [0xFF, 0xFF, 0xFF] 0)).map (fun t => (window 3 t, btView t)) = some ([0xF0, 0, 0x0F], 0, 0, 0) := by decide
/-- BT-S7: no write. -/
theorem test_btSetBitByPos_past :
    (after 0x00001036 9 0xFFFF (btState [0xF0, 0, 0x0F] 0)).map (fun t => (window 3 t, btView t)) = some ([0xF0, 0, 0x0F], 0, 0, 2) := by decide
/-- P1, step 7. -/
theorem test_btGetPos :
    (after 0x00000037 0 0 (btState [0xBA, 0xBC, 0x7F] 24)).map btView = some (24, 24, 0) := by decide
/-- BT-G6. -/
theorem test_btGetBytePos :
    (after 0x00000038 0 0 (btState [0xAB, 0xCD, 0xEF] 24)).map btView = some (3, 24, 0) := by decide
/-- S-L1-7, row 4. -/
theorem test_btGetError :
    (after 0x00000039 0 0 (btState [0] 0 4)).map btView = some (4, 0, 4) := by decide
/-- BY-H, row 4. -/
theorem test_btGetLength :
    (after 0x0000003A 0 0 (btState [0xCD, 0xEF] 0)).map btView = some (2, 0, 0) := by decide
/-- R218: BASE. -/
theorem test_btGetBuffer :
    (after 0x0000003B 0 0 (btState [0xCD, 0xEF] 0)).map btView = some (0x100, 0, 0) := by decide
/-- R200: unbound. -/
theorem test_btGetBuffer_unbound :
    (after 0x0000003B 0 0 State.reset).map (fun t => (t.result, t.status)) = some (0, 3) := by decide

/-- P4, row 12: an accepted command after an ILLEGAL one clears ILL and keeps ILLS (R260). -/
theorem test_status_sticky :
    (after 0x0000001A 0 0 { byState [0xBA] 0 with status := 3 }).map (fun t => (t.result, t.status)) = some (0xBA, 2) := by
  decide

/-- R280: reset clears the registers, keeps MEM, and keeps the host's coming moves (log 7). -/
theorem test_reset_move :
    (nextOf (step { byState [0xBA] 1 with host := [.reset, .memWrite 0 1], status := 2 })).map
        (fun t => (t.status, t.byteCtx.valid, window 1 t, t.host)) = some (0, false, [0xBA], [.memWrite 0 1]) := by decide

/-- R74: the host reads back the byte it writes. -/
theorem test_host_write :
    (nextOf (step { State.reset with host := [.memWrite 0xFFF 0x5A] })).map (fun t => (hostRead t 0xFFF, hostRead t 0x1000))
      = some (some 0x5A, none) := by decide

/-- R100 and SL-29: `sl.sethi 0, 2, 3`; n = 9 and an index of 32 are refused (R99). -/
theorem test_assemble :
    (assembleLine "sl.sethi 0, 2, 3".toList).toOption.map encode = some ⟨0x00C70002, 0, 3⟩
    ∧ (assembleLine "sl.gethi 1, 9".toList).toOption = none
    ∧ (assembleLine "sl.getbyteslice 1, 32, 0".toList).toOption = none := by decide

/-! ### Witnesses: for each statement with hypotheses, states and operands that meet them, at the edges of each clause -/

theorem witness_DecodeOfEncodeIsInstruction :
    (Instr.slSetByteSlice 31 0 0xFFFFFFFF 0).wf = true ∧ (Instr.btSetBitByPos 255 0 0).wf = true
    ∧ (Instr.byInit .encode 0 0).wf = true := by decide

theorem witness_EachRowDecodesToItsInstruction : 31 < 32 ∧ 0 < 32 ∧ 255 < 256 ∧ 0 < 256 := by decide

theorem witness_DecodedCommandReencodes : decode ⟨0x00000133, 0xFFFF, 0xFFFF⟩ = .instr (.btGetBit 1) := by decide

/-- A listed opcode with clear fields, an unlisted one, and a listed one with a field it does not use. -/
theorem witness_DecodeAcceptsExactlyTheTable :
    (opListed (opNumber 0x0000FF33) ∧ unusedFieldsClear 0x0000FF33) ∧ ¬ opListed (opNumber 0x0000003C)
    ∧ (opListed (opNumber 0x00000111) ∧ ¬ unusedFieldsClear 0x00000111) := by decide

theorem witness_UnnamedOperandBitsMakeNoDifference :
    (0x1A5#32).toNat % 2 ^ 8 = (0xA5#32).toNat % 2 ^ 8 ∧ (0xFFFF1234#32).toNat % 2 ^ 16 = (0x1234#32).toNat % 2 ^ 16 := by
  decide

theorem witness_PseudoInstructionsExpand :
    (1 ≤ 1 ∧ 1 ≤ 8) ∧ (1 ≤ 8 ∧ 8 ≤ 8) ∧ ¬ (1 ≤ 0 ∧ 0 ≤ 8) ∧ ¬ (1 ≤ 9 ∧ 9 ≤ 8) := by decide

theorem witness_StepRunsTheDecodedCommand :
    decode ⟨0x00000013, 0, 0⟩ = .instr .byGetByte ∧ decode ⟨0x00000025, 0, 0⟩ = .illegal .reservedOp
    ∧ (presentCommand ⟨0x00000013, 0, 0⟩ (both 0 0)).host = .command ⟨0x00000013, 0, 0⟩ :: []
    ∧ decodeTableWord 64 0x00000003_00000011 = some (.byForward 3) := by decide

/-- Each of the causes I1 to I7 at its edge, and a command for which none holds. -/
theorem witness_CommandIsIllegalExactlyForTheListedCauses :
    (both 1 0).Inv ∧ State.reset.Inv
    ∧ illegalCause (both 1 0) ⟨0x00000005, 0, 0⟩ ∧ illegalCause (both 1 0) ⟨0x08000013, 0, 0⟩
    ∧ illegalCause State.reset ⟨0x00000024, 0, 0⟩ ∧ illegalCause State.reset ⟨0x00000031, 0, 0⟩
    ∧ illegalCause State.reset ⟨0x00000010, 0xFFE, 3⟩ ∧ ¬ illegalCause State.reset ⟨0x00000010, 0xFFD, 3⟩ := by
  refine ⟨?_, ?_, ?_, ?_, ?_, ?_, ?_, ?_⟩ <;> decide

theorem witness_CommandIsIllegalExactlyForTheListedCauses_capacity :
    hugeState.Inv ∧ illegalCause hugeState ⟨0x00000030, 0, 0x20000000⟩ ∧ ¬ illegalCause hugeState ⟨0x00000030, 0, 0x1FFFFFFF⟩
    ∧ illegalCause (both 1 0) ⟨0x00000020, 6, 0⟩ ∧ ¬ illegalCause (both 1 0) ⟨0x00000020, 5, 0⟩ := by
  refine ⟨?_, ?_, ?_, ?_, ?_⟩ <;> decide

theorem witness_ResetLeavesTheStatedValues :
    ({ both 2 3 with host := [.reset] }).host = .reset :: []
    ∧ (0x11 ≤ op (.byForward 0) ∧ op .byGetBuffer ≤ 0x24 ∧ State.reset.byteCtx.valid = false)
    ∧ (0x31 ≤ op (.btForward 0) ∧ op .btGetBuffer ≤ 0x3B ∧ State.reset.bitCtx.valid = false) := by decide

theorem witness_HostWriteChangesOneByte :
    (both 0 0).mem.wf ∧ ({ both 0 0 with host := [.memWrite 0xFFF 1] }).host = .memWrite 0xFFF 1 :: []
    ∧ (0xFFF#32).toNat < (both 0 0).mem.size ∧ ¬ (0x1000#32).toNat < (both 0 0).mem.size ∧ State.reset.host = [] := by
  decide

/-- Both ends of the range of n, each extraction and replacement taking some bits. -/
theorem witness_ConvenienceFunctionsTakeHighAndLowBits :
    (getHi 0xA5 1 = 1 ∧ getHi 0xA5 8 = 0xA5) ∧ (setLow 0xF0 1 3 = 0xF1 ∧ setLow 0xF0 8 3 = 3) := by decide

/-- Whole byte; an index above 7 clamped (C2); a bit below and a bit above the range. -/
theorem witness_SliceFunctionsRoundTrip :
    (7 < 8 ∧ 0 < 8) ∧ min 9 2 < 8 ∧ (getByteSlice (setByteSlice 0 9 2 0x1FF) 9 2).toNat = 0x1FF % 2 ^ 6
    ∧ (1 < min 5 2 ∨ min 7 (max 5 2) < 1) ∧ (6 < min 5 2 ∨ min 7 (max 5 2) < 6) := by decide

/-- A command on an unbound BY; and an accepted one after an ILLEGAL one, which clears ILL. -/
theorem witness_ByteStreamCommandsNeedTheirContextOnly :
    (0x10 ≤ op (.byInit .decode 0 0) ∧ op .byGetBuffer ≤ 0x24) ∧ (op .byGetPos ≠ 0x10 ∧ State.reset.byteCtx.valid = false)
    ∧ (nextOf (exec .byGetPos { both 2 0 with status := 3 })).map (fun t => (t.result, t.status)) = some (2, 2)
    ∧ op .byGetPos ≠ 0x20 := by decide

/-- A window that ends at MEM_BYTES, and one a byte longer. -/
theorem witness_ByInitBindsTheWindow :
    (0xFFD#32).toNat + (3#32).toNat ≤ State.reset.mem.size ∧ ¬ (0xFFE#32).toNat + (3#32).toNat ≤ State.reset.mem.size := by
  decide

/-- forward: L-1 and L; back: 0 and below. -/
theorem witness_ByteCursorMovesWithinItsBounds :
    (both 2 0).Inv ∧ (both 2 0).byteCtx.valid = true
    ∧ (both 2 0).byteCtx.cur.toNat + (3#32).toNat < (both 2 0).byteCtx.len.toNat
    ∧ ¬ (both 2 0).byteCtx.cur.toNat + (4#32).toNat < (both 2 0).byteCtx.len.toNat
    ∧ (2#32).toNat ≤ (both 2 0).byteCtx.cur.toNat ∧ ¬ (3#32).toNat ≤ (both 2 0).byteCtx.cur.toNat := by decide

/-- The last bytes exactly, and one byte too few. -/
theorem witness_SequentialGetsReadBigEndian :
    (both 2 0).Inv ∧ (both 3 0).Inv ∧ (both 2 0).byteCtx.valid = true ∧ (both 3 0).byteCtx.valid = true
    ∧ (both 2 0).byteCtx.cur.toNat + 4 ≤ (both 2 0).byteCtx.len.toNat
    ∧ ¬ (both 3 0).byteCtx.cur.toNat + 4 ≤ (both 3 0).byteCtx.len.toNat
    ∧ bigEndian (both 2 0).mem 0x102 4 = 0xBEEF1234 := by decide

theorem witness_SequentialSetsWriteBigEndian :
    (both 4 0).Inv ∧ (both 5 0).Inv ∧ (both 4 0).byteCtx.valid = true ∧ (both 5 0).byteCtx.valid = true
    ∧ (both 4 0).byteCtx.cur.toNat + 2 ≤ (both 4 0).byteCtx.len.toNat
    ∧ ¬ (both 5 0).byteCtx.cur.toNat + 2 ≤ (both 5 0).byteCtx.len.toNat := by decide

/-- The cursor at 0, at 1 and at L. -/
theorem witness_SetByteSlicePatchesTheByteBeforeTheCursor :
    (both 0 0).Inv ∧ (both 1 0).Inv ∧ (both 6 0).Inv ∧ (both 6 0).byteCtx.valid = true
    ∧ (both 0 0).byteCtx.cur.toNat = 0 ∧ (both 1 0).byteCtx.cur.toNat ≠ 0 := by decide

theorem witness_PositionalGetsReadBigEndian :
    (both 1 0).Inv ∧ (both 1 0).byteCtx.valid = true ∧ (2#32).toNat + 4 ≤ (both 1 0).byteCtx.len.toNat
    ∧ ¬ (3#32).toNat + 4 ≤ (both 1 0).byteCtx.len.toNat := by decide

theorem witness_PositionalSetsWriteBigEndian :
    (both 1 0).Inv ∧ (both 1 0).byteCtx.valid = true ∧ (5#32).toNat + 1 ≤ (both 1 0).byteCtx.len.toNat
    ∧ ¬ (6#32).toNat + 1 ≤ (both 1 0).byteCtx.len.toNat := by decide

/-- Every remaining byte, and one more; MAX_BIT_CAP, and one more; the address sum below 2^32. -/
theorem witness_HandoffBindsTheNextBytes :
    (both 1 0).Inv ∧ (both 1 0).byteCtx.valid = true
    ∧ ((both 1 0).byteCtx.cur.toNat + (5#32).toNat ≤ (both 1 0).byteCtx.len.toNat ∧ (5#32).toNat ≤ 2 ^ 29 - 1)
    ∧ (both 1 0).byteCtx.base.toNat + (both 1 0).byteCtx.cur.toNat < 2 ^ 32
    ∧ ¬ (both 1 0).byteCtx.cur.toNat + (6#32).toNat ≤ (both 1 0).byteCtx.len.toNat
    ∧ ({ hugeState with byteCtx := ⟨true, 0, 0x20000000, 0, 0⟩ } : State).Inv
    ∧ (0x1FFFFFFF#32).toNat ≤ 2 ^ 29 - 1 ∧ ¬ (0x20000000#32).toNat ≤ 2 ^ 29 - 1 := by decide

theorem witness_HandoffAtTheEndOfTheAddressSpaceBindsNothing :
    endState.Inv ∧ endState.byteCtx.valid = true
    ∧ endState.byteCtx.base.toNat + endState.byteCtx.cur.toNat = 2 ^ 32 ∧ (0#32).toNat = 0 ∧ (1#32).toNat ≠ 0 := by decide

theorem witness_ByteStreamQueriesAnswerTheContext : (both 2 0).byteCtx.valid = true := by decide

/-- A get that takes the cursor from L-1 to L, the state at L-1, and the state at L. -/
theorem witness_OnlyGetsAndSetsReachTheEnd :
    (both 5 0).Inv ∧ (both 5 0).byteCtx.valid = true ∧ op .byGetByte ≠ 0x10
    ∧ (both 5 0).byteCtx.cur.toNat < (both 5 0).byteCtx.len.toNat
    ∧ (nextOf (exec .byGetByte (both 5 0))).map (fun t => t.byteCtx.cur == t.byteCtx.len) = some true
    ∧ (both 5 0).byteCtx.cur.toNat + 1 = (both 5 0).byteCtx.len.toNat
    ∧ (both 6 0).Inv ∧ (both 6 0).byteCtx.cur = (both 6 0).byteCtx.len ∧ 0 < (both 6 0).byteCtx.len.toNat := by decide

/-- A command on an unbound BT; and a handoff that binds BT. -/
theorem witness_BitStreamCommandsNeedTheirContextOnly :
    (0x30 ≤ op (.btInit .decode 0 0) ∧ op .btGetBuffer ≤ 0x3B) ∧ op .btGetPos ≠ 0x30 ∧ State.reset.bitCtx.valid = false
    ∧ (byState [1] 0).bitCtx.valid = false
    ∧ (nextOf (exec (.byGetBitStream 1) (byState [1] 0))).map (·.bitCtx.valid) = some true
    ∧ (nextOf (exec (.btInit .decode 0 1) State.reset)).map (·.bitCtx.valid) = some true := by decide

theorem witness_BtInitBindsTheWindow :
    ((0#32).toNat + (0x1FFFFFFF#32).toNat ≤ hugeState.mem.size ∧ (0x1FFFFFFF#32).toNat ≤ 2 ^ 29 - 1)
    ∧ ((0#32).toNat + (0x20000000#32).toNat ≤ hugeState.mem.size ∧ ¬ (0x20000000#32).toNat ≤ 2 ^ 29 - 1)
    ∧ ¬ (0xFFE#32).toNat + (3#32).toNat ≤ State.reset.mem.size := by decide

/-- forward: 8L-1 and 8L; back: 0 and below. -/
theorem witness_BitCursorMovesWithinItsBounds :
    (both 0 12).Inv ∧ (both 0 12).bitCtx.valid = true
    ∧ (both 0 12).bitCtx.cur.toNat + (35#32).toNat < 8 * (both 0 12).bitCtx.len.toNat
    ∧ ¬ (both 0 12).bitCtx.cur.toNat + (36#32).toNat < 8 * (both 0 12).bitCtx.len.toNat
    ∧ (12#32).toNat ≤ (both 0 12).bitCtx.cur.toNat ∧ ¬ (13#32).toNat ≤ (both 0 12).bitCtx.cur.toNat := by decide

/-- A field that ends MEM: the last 32 bits of the last five bytes. -/
theorem witness_FieldAlgorithmIsBitSerial :
    (both 0 0).mem.wf ∧ 1 ≤ 32 ∧ 32 ≤ 32 ∧ 0xFFB + (8 + 32 + 7) / 8 ≤ (both 0 0).mem.size ∧ 1 ≤ 1
    ∧ fieldBits (both 0 0).mem 0x100 4 12 = 0xEAD := by decide

/-- Width 0; width 33 and a field one bit too long; a field that ends at 8L. -/
theorem witness_GetBitReadsTheFieldAtTheCursor :
    (both 0 40).Inv ∧ (both 0 40).bitCtx.valid = true ∧ 32 < 33
    ∧ 8 * (both 0 40).bitCtx.len.toNat ≤ (both 0 40).bitCtx.cur.toNat + 9 - 1
    ∧ ¬ (32 < 8 ∨ 8 * (both 0 40).bitCtx.len.toNat ≤ (both 0 40).bitCtx.cur.toNat + 8 - 1) := by decide

theorem witness_SetBitWritesTheFieldAtTheCursor :
    (both 0 40).Inv ∧ (both 0 40).bitCtx.valid = true ∧ 32 < 33
    ∧ 8 * (both 0 40).bitCtx.len.toNat < (both 0 40).bitCtx.cur.toNat + 9
    ∧ ¬ (32 < 8 ∨ 8 * (both 0 40).bitCtx.len.toNat < (both 0 40).bitCtx.cur.toNat + 8) := by decide

theorem witness_GetBitByPosReadsTheFieldAtAPosition :
    (both 0 0).Inv ∧ (both 0 0).bitCtx.valid = true ∧ 32 < 33
    ∧ 8 * (both 0 0).bitCtx.len.toNat < (17#32).toNat + 32
    ∧ ¬ (32 < 32 ∨ 8 * (both 0 0).bitCtx.len.toNat < (16#32).toNat + 32) := by decide

theorem witness_SetBitByPosWritesTheFieldAtAPosition :
    (both 0 0).Inv ∧ (both 0 0).bitCtx.valid = true ∧ 32 < 33
    ∧ 8 * (both 0 0).bitCtx.len.toNat < (48#32).toNat + 1
    ∧ ¬ (32 < 1 ∨ 8 * (both 0 0).bitCtx.len.toNat < (47#32).toNat + 1) := by decide

theorem witness_BitStreamQueriesAnswerTheContext : (both 0 12).bitCtx.valid = true := by decide

theorem witness_ForwardStopsOneBitShortOfTheEnd :
    (both 0 0).Inv ∧ (both 0 0).bitCtx.valid = true ∧ (both 0 0).bitCtx.cur = 0 ∧ 0 < (both 0 0).bitCtx.len.toNat
    ∧ (47#32).toNat = 8 * (both 0 0).bitCtx.len.toNat - 1 ∧ (48#32).toNat = 8 * (both 0 0).bitCtx.len.toNat := by decide

/-- The widest field at an odd offset, with the largest value; the narrowest at the last bit. -/
theorem witness_SetThenGetGivesTheValue :
    (both 0 13).Inv ∧ (both 0 13).bitCtx.valid = true ∧ (both 0 13).bitCtx.cur = 13
    ∧ (13#32).toNat + 32 ≤ 8 * (both 0 13).bitCtx.len.toNat ∧ (0xFFFFFFFF#32).toNat < 2 ^ 32 ∧ (32#32).toNat = 32
    ∧ (47#32).toNat + 1 ≤ 8 * (both 0 13).bitCtx.len.toNat ∧ (1#32).toNat < 2 ^ 1 ∧ (1#32).toNat = 1 := by decide

theorem witness_BothContextsSeeTheSameBytes :
    (both 0 0).Inv ∧ (both 0 0).byteCtx.valid = true ∧ (both 0 0).bitCtx.valid = true
    ∧ (both 0 0).bitCtx.base = (both 0 0).byteCtx.base ∧ (both 0 0).bitCtx.len = (both 0 0).byteCtx.len
    ∧ (4#32).toNat + 2 ≤ (both 0 0).byteCtx.len.toNat ∧ (5#32).toNat = (4#32).toNat + 1
    ∧ (32#32).toNat = 8 * (4#32).toNat := by decide

theorem witness_ResetMeetsTheInvariant : (both 0 0).mem.wf ∧ hugeState.mem.wf := by decide

/-- A step that changes a cursor, RESULT, ERR and STATUS, and one that writes MEM. -/
theorem witness_EveryStepKeepsTheInvariant :
    ({ both 5 0 with status := 3 } : State).Inv
    ∧ (after 0x00000014 0 0 { both 5 0 with status := 3 }).map byView = some (0, 6, 1)
    ∧ (after 0x00000017 0xABCD 0 (both 4 0)).map (window 6) = some [0xDE, 0xAD, 0xBE, 0xEF, 0xAB, 0xCD] := by decide

theorem witness_NoCommandTraps : (both 5 47).Inv ∧ endState.Inv := by decide

/-- The bytes on each side of the window, for a set that goes on. -/
theorem witness_CommandsWriteOnlyTheirWindow :
    (both 4 0).Inv ∧ (nextOf (exec (.bySetDword 1) (both 4 0))).isSome = true
    ∧ ¬ inWindow (.bySetDword 1) (both 4 0) 0xFF ∧ ¬ inWindow (.bySetDword 1) (both 4 0) 0x106 := by
  refine ⟨by decide, by decide, ?_, ?_⟩ <;> simp [inWindow, op, Instr.opcode, both, memOf, State.resetWith]

/-- A memory that differs outside the window only: at the byte before it. -/
theorem witness_CommandsReadOnlyTheirWindow :
    (both 2 0).Inv ∧ ((both 2 0).mem.write 0xFF 7).wf ∧ ((both 2 0).mem.write 0xFF 7).size = (both 2 0).mem.size
    ∧ (∀ a, inWindow .byGetWord (both 2 0) a → ((both 2 0).mem.write 0xFF 7).read a = (both 2 0).mem.read a)
    ∧ ((both 2 0).mem.write 0xFF 7).read 0xFF ≠ (both 2 0).mem.read 0xFF
    ∧ (nextOf (exec .byGetWord (both 2 0))).isSome = true := by
  refine ⟨by decide, by decide, rfl, fun a ha => ?_, by decide, by decide⟩
  rw [Memory.read_write (by decide), if_neg]
  have hb : (both 2 0).byteCtx.base.toNat = 0x100 := rfl
  simp only [inWindow, hb] at ha
  rcases ha with ha | ha
  · omega
  · exact absurd ha.1 (by decide)

/-- A command that changes RESULT and BY.CUR; one that changes BY.ERR; a handoff that changes BT; a set that changes MEM. -/
theorem witness_RegistersChangeOnlyByTheirCommands :
    (nextOf (exec .byGetByte (both 2 0))).map byView = some (0xBE, 3, 0)
    ∧ (nextOf (exec (.byForward 6) (both 2 0))).map byView = some (0, 2, 3)
    ∧ (nextOf (exec (.byGetBitStream 1) (both 2 9))).map (·.bitCtx) = some ⟨true, 0x102, 1, 0, 0⟩
    ∧ (nextOf (exec (.btSetBit 8 0) (both 2 0))).map (fun t => (window 2 t, t.bitCtx.cur)) = some ([0, 0xAD], 8)
    ∧ (nextOf (exec (.btGetBit 0) (both 2 0))).map btView = some (0, 0, 4)
    ∧ (nextOf (exec (.byInit .decode 0 9) (both 2 0))).map (·.byteCtx) = some ⟨true, 0, 9, 0, 0⟩ := by decide

/-- An error that a successful get leaves, and that an INIT and a handoff clear (BY-H2). -/
theorem witness_OnlyBindingClearsAnError :
    (nextOf (exec .byGetByte (byState [1, 2] 0 3))).map (·.byteCtx.err) = some 3
    ∧ (nextOf (exec (.byInit .decode 0x100 2) (byState [1, 2] 0 3))).map (·.byteCtx.err) = some 0
    ∧ (nextOf (exec (.byGetBitStream 2) { byState [1, 2] 0 3 with bitCtx := ⟨true, 0x200, 1, 0, 4⟩ })).map
        (fun t => (t.byteCtx.err, t.bitCtx.err)) = some (3, 0) := by decide

theorem witness_ErrorFieldsAreIndependent :
    (nextOf (exec (.byForward 9) (both 0 0))).map (fun t => (t.byteCtx.err, t.bitCtx.err)) = some (3, 0)
    ∧ (nextOf (exec (.btBack 9) (both 0 0))).map (fun t => (t.byteCtx.err, t.bitCtx.err)) = some (0, 3)
    ∧ (op (.byForward 9) ≤ 0x24 ∧ op (.byForward 9) ≠ 0x20) ∧ 0x30 ≤ op (.btBack 9)
    ∧ op (.slGetIntSlice 0 0 0) ≤ 4 := by decide

/-- A command with ILLS = 1, a reset, and an ILLEGAL command. -/
theorem witness_IllegalBitIsSticky :
    ({ both 0 0 with status := 2 } : State).ills = true
    ∧ (after 0x00000021 0 0 { both 0 0 with status := 2 }).map (fun t => (t.ill, t.ills)) = some (false, true)
    ∧ (nextOf (step { both 0 0 with status := 3, host := [.reset] })).map (fun t => (t.ill, t.ills)) = some (false, false)
    ∧ (after 0x00000025 0 0 (both 0 0)).map (fun t => (t.ill, t.ills)) = some (true, true) := by decide

theorem witness_ViewsKeepWhatTheyPromise :
    (both 2 12).Inv ∧ Instr.byGetByte.inputView = true ∧ (Instr.bySetByte 1).outputView = true
    ∧ (nextOf (exec .byGetByte (both 2 12))).isSome = true ∧ (nextOf (exec (.bySetByte 1) (both 2 12))).isSome = true := by
  decide

/-- A state whose two batch checks are OK, and the run of no step, are a safe run (R287, R258). -/
theorem witness_SafeRun : SafeRun 0 (both 0 0) (both 0 0) ∧ (both 0 0).batchOk := by
  exact ⟨⟨rfl, by decide⟩, by decide, by decide⟩

end Sys2Proof.Tests
end

/-! ### The software views (R7, R8): what their commands leave in place

MEM and the bindings follow from `Effect`, the cases of what a command can change. `Effect` leaves the cursor's new value
open, so the sets that move a cursor go through the lemmas of their shared operations. -/

namespace Sys2Proof.Machine

/-- What binding a context fixes: VALID, BASE and LEN (R35, R37). -/
def Context.binding (c : Context) : Bool × Word × Word := (c.valid, c.base, c.len)

@[simp] theorem Context.setErr_binding (c : Context) (k : ErrorKind) : (c.setErr k).binding = c.binding := rfl
@[simp] theorem Context.moveTo_binding (c : Context) (pos : Nat) : (c.moveTo pos).binding = c.binding := rfl

/-- No view issues a command that binds a context (R8). -/
theorem kind_ne_of_view {i : Instr} (h : i.inputView = true ∨ i.outputView = true) :
    i.kind ≠ .init ∧ i.kind ≠ .handoff := by
  constructor <;> intro hk <;> simp [Instr.inputView, Instr.outputView, hk] at h

/-- An Input view issues no command that can write MEM (R8). -/
theorem kind_ne_of_inputView {i : Instr} (h : i.inputView = true) : i.kind ≠ .set ∧ i.kind ≠ .init := by
  constructor <;> intro hk <;> simp [Instr.inputView, hk] at h

variable {i : Instr} {s t : State}

/-- Only the sets and the INITs write MEM (R46). -/
theorem Effect.mem_eq (h : Effect i s t) (hset : i.kind ≠ .set) (hinit : i.kind ≠ .init) : t.mem = s.mem := by
  cases i with
  | slGetByteSlice _ _ _ | slSetByteSlice _ _ _ _ | slGetShortSlice _ _ _ | slGetIntSlice _ _ _ =>
    obtain ⟨_, rfl⟩ := h; rfl
  | byInit _ _ _ | btInit _ _ _ => exact absurd rfl hinit
  | bySetByte _ | bySetWord _ | bySetDword _ | bySetByteSlice _ _ _ | bySetByteByPos _ _ | bySetWordByPos _ _
  | bySetDwordByPos _ _ | btSetBit _ _ | btSetBitByPos _ _ _ => exact absurd rfl hset
  | byGetBitStream _ => obtain rfl | ⟨_, _, rfl⟩ := h <;> rfl
  | byForward _ | byBack _ | btForward _ | btBack _ => obtain rfl | rfl | ⟨_, rfl, -⟩ := h <;> rfl
  | byGetByte | byGetWord | byGetDword => obtain rfl | ⟨_, _, rfl⟩ | ⟨_, rfl⟩ := h <;> rfl
  | byGetByteByPos _ | byGetWordByPos _ | byGetDwordByPos _ => obtain rfl | rfl | ⟨_, rfl⟩ := h <;> rfl
  | btGetBit _ => obtain rfl | ⟨_, -, rfl⟩ | ⟨_, _, rfl⟩ := h <;> rfl
  | btGetBitByPos _ _ => obtain rfl | ⟨_, -, rfl⟩ | ⟨_, rfl⟩ := h <;> rfl
  | byGetPos | byGetError | byGetLength | byGetBuffer
  | btGetPos | btGetBytePos | btGetError | btGetLength | btGetBuffer => obtain rfl | ⟨_, rfl⟩ := h <;> rfl

/-- Only the INITs and the handoff bind a context (R46). -/
theorem Effect.binding_eq (h : Effect i s t) (hinit : i.kind ≠ .init) (hhandoff : i.kind ≠ .handoff) :
    t.byteCtx.binding = s.byteCtx.binding ∧ t.bitCtx.binding = s.bitCtx.binding := by
  cases i with
  | slGetByteSlice _ _ _ | slSetByteSlice _ _ _ _ | slGetShortSlice _ _ _ | slGetIntSlice _ _ _ =>
    obtain ⟨_, rfl⟩ := h; simp
  | byInit _ _ _ | btInit _ _ _ => exact absurd rfl hinit
  | byGetBitStream _ => exact absurd rfl hhandoff
  | byForward _ | byBack _ | btForward _ | btBack _ => obtain rfl | rfl | ⟨_, rfl, -⟩ := h <;> simp
  | byGetByte | byGetWord | byGetDword => obtain rfl | ⟨_, _, rfl⟩ | ⟨_, rfl⟩ := h <;> simp
  | bySetByte _ | bySetWord _ | bySetDword _ => obtain rfl | ⟨_, _, rfl⟩ | ⟨_, _, rfl⟩ := h <;> simp
  | bySetByteSlice _ _ _ => obtain rfl | ⟨_, rfl⟩ := h <;> simp
  | byGetByteByPos _ | byGetWordByPos _ | byGetDwordByPos _ => obtain rfl | rfl | ⟨_, rfl⟩ := h <;> simp
  | bySetByteByPos _ _ | bySetWordByPos _ _ | bySetDwordByPos _ _ => obtain rfl | rfl | ⟨_, rfl⟩ := h <;> simp
  | btGetBit _ | btSetBit _ _ => obtain rfl | ⟨_, -, rfl⟩ | ⟨_, _, rfl⟩ := h <;> simp
  | btGetBitByPos _ _ | btSetBitByPos _ _ _ => obtain rfl | ⟨_, -, rfl⟩ | ⟨_, rfl⟩ := h <;> simp
  | byGetPos | byGetError | byGetLength | byGetBuffer
  | btGetPos | btGetBytePos | btGetError | btGetLength | btGetBuffer => obtain rfl | ⟨_, rfl⟩ := h <;> simp

/-! ### Cursors -/

/-- Neither cursor of t is behind that of s. -/
def CursorsAdvance (s t : State) : Prop :=
  s.byteCtx.cur.toNat ≤ t.byteCtx.cur.toNat ∧ s.bitCtx.cur.toNat ≤ t.bitCtx.cur.toNat

theorem CursorsAdvance.of_eq (hby : t.byteCtx.cur = s.byteCtx.cur) (hbt : t.bitCtx.cur = s.bitCtx.cur) :
    CursorsAdvance s t := ⟨by rw [hby], by rw [hbt]⟩

/-- A cursor moved forward to a position its register holds does not go back. -/
theorem Context.cur_le_moveTo {c : Context} {pos : Nat} (hle : c.cur.toNat ≤ pos) (hlt : pos < 2 ^ 32) :
    c.cur.toNat ≤ (c.moveTo pos).cur.toNat := by
  rwa [Context.moveTo_cur, zext32_toNat_of_lt hlt]

/-- SeqSet moves the byte cursor past what it writes, and to the window's end where that overruns (R158). -/
theorem seqSet_cursorsAdvance {k v : Nat} (hcur : s.byteCtx.cur.toNat ≤ s.byteCtx.len.toNat)
    (h : seqSet k v s = .next t) : CursorsAdvance s t := by
  have hlen := s.byteCtx.len.isLt
  obtain ⟨m, -, ⟨hk, rfl⟩ | ⟨-, rfl⟩⟩ := seqSet_next h
  · exact ⟨Context.cur_le_moveTo (Nat.le_add_right _ k) (by omega), le_rfl⟩
  · exact ⟨Context.cur_le_moveTo hcur hlen, le_rfl⟩

/-- A window of at most MAX_BIT_CAP bytes has a bit length that the 32 bits of CUR hold (R12). -/
theorem Context.bitLen_lt {c : Context} {n : Nat} (h : c.bitInv n) : c.bitLen < 2 ^ 32 := by
  obtain ⟨-, hcap, -⟩ := h
  simp only [Config.maxBitCap] at hcap
  simp only [Context.bitLen]
  omega

/-- BT_SETBIT moves the bit cursor past the field, or not at all (R211). -/
theorem bitSet_cursorsAdvance {n v : Nat} (hlen : s.bitCtx.bitLen < 2 ^ 32)
    (h : bitSet n s.bitCtx.cur.toNat v (s.bitCtx.moveTo (s.bitCtx.cur.toNat + n)) s = .next t) :
    CursorsAdvance s t := by
  obtain ⟨e, -, rfl⟩ | ⟨hpass, m, -, rfl⟩ := bitSet_next h
  · exact .of_eq rfl rfl
  · obtain ⟨-, -, hfit⟩ := setFailure_none.1 hpass
    exact ⟨le_rfl, Context.cur_le_moveTo (Nat.le_add_right _ n) (by omega)⟩

/-- A sequential byte set moves no cursor back (R159 to R161). -/
theorem requireBY_seqSet_cursorsAdvance {k v : Nat} (hcur : s.byteCtx.cur.toNat ≤ s.byteCtx.len.toNat)
    (h : requireBY s (seqSet k v) = .next t) : CursorsAdvance s t := by
  obtain ⟨-, h⟩ | ⟨-, rfl⟩ := requireBY_next h
  · exact seqSet_cursorsAdvance (s := s.accept) hcur h
  · exact .of_eq rfl rfl

/-- BT_SETBIT moves no cursor back, bound or not (R211). -/
theorem execBtSetBit_cursorsAdvance {n : Nat} {v : Word} (hlen : s.bitCtx.bitLen < 2 ^ 32)
    (h : execBtSetBit n v s = .next t) : CursorsAdvance s t := by
  obtain ⟨-, h⟩ | ⟨-, rfl⟩ := requireBT_next h
  · exact bitSet_cursorsAdvance (s := s.accept) hlen h
  · exact .of_eq rfl rfl

/-- A command of an Output view moves no cursor back: the sequential sets move forward, the others stay (R46). -/
theorem outputView_cursorsAdvance (hs : s.Inv) (h : exec i s = .next t) (hview : i.outputView = true) :
    CursorsAdvance s t := by
  obtain ⟨-, -, ⟨hcur, -⟩, hbit⟩ := hs
  have heff : Effect i s t := exec_effect h
  cases i with
  | slGetByteSlice _ _ _ | slSetByteSlice _ _ _ _ | slGetShortSlice _ _ _ | slGetIntSlice _ _ _
  | byInit _ _ _ | btInit _ _ _ | byForward _ | byBack _ | btForward _ | btBack _ | byGetByte | byGetWord | byGetDword
  | byGetByteByPos _ | byGetWordByPos _ | byGetDwordByPos _ | btGetBit _ | btGetBitByPos _ _ | byGetBitStream _ =>
    simp [Instr.outputView, Instr.kind] at hview
  | bySetByte _ | bySetWord _ | bySetDword _ => exact requireBY_seqSet_cursorsAdvance hcur h
  | btSetBit _ _ => exact execBtSetBit_cursorsAdvance (Context.bitLen_lt hbit) h
  | bySetByteSlice _ _ _ => obtain rfl | ⟨_, rfl⟩ := heff <;> exact .of_eq rfl rfl
  | bySetByteByPos _ _ | bySetWordByPos _ _ | bySetDwordByPos _ _ =>
    obtain rfl | rfl | ⟨_, rfl⟩ := heff <;> exact .of_eq rfl rfl
  | btSetBitByPos _ _ _ => obtain rfl | ⟨_, -, rfl⟩ | ⟨_, rfl⟩ := heff <;> exact .of_eq rfl rfl
  | byGetPos | byGetError | byGetLength | byGetBuffer
  | btGetPos | btGetBytePos | btGetError | btGetLength | btGetBuffer =>
    obtain rfl | ⟨_, rfl⟩ := heff <;> exact .of_eq rfl rfl

/-- Settles O50: MEM and the bindings by the effects of a view's commands, the cursors by the set rules. -/
theorem viewsKeepWhatTheyPromise : Obligations.ViewsKeepWhatTheyPromise := by
  intro i s t hs h
  have heff : Effect i s t := exec_effect h
  refine ⟨fun hin => ?_, outputView_cursorsAdvance hs h, fun hview => ?_⟩
  · obtain ⟨hset, hinit⟩ := kind_ne_of_inputView hin
    exact heff.mem_eq hset hinit
  · obtain ⟨hinit, hhandoff⟩ := kind_ne_of_view hview
    exact heff.binding_eq hinit hhandoff

end Sys2Proof.Machine

/-! ### The invariant (R32, R36, R39, U12): at reset, and kept by every step

`State.Inv` has one part per register. What a command does to a context after binding it, moving its cursor and recording
an error, is the same for BY and BT but for the cursor's limit (`Context.cursorInv`). A command keeps the invariant because
every shared operation it is made of does (`KeepsInv`). -/

namespace Sys2Proof.Machine

/-- A register holds at most the value put into it (R18). -/
theorem zext32_toNat_le (v : Nat) : (zext32 v).toNat ≤ v := by
  rw [zext32_toNat]
  exact Nat.mod_le v _

/-- Every error code is one of R251, so at most 5. -/
theorem ErrorKind.code_le (k : ErrorKind) : k.code.toNat ≤ 5 := by cases k <;> decide

/-! #### A context's cursor and error code -/

/-- The cursor is within a limit (BY: LEN, R36; BT: 8·LEN, R39), and ERR is a code of R251. -/
def Context.cursorInv (c : Context) (limit : Nat) : Prop := c.cur.toNat ≤ limit ∧ c.err.toNat ≤ 5

@[simp] theorem Context.forward_binding (c : Context) (limit : Nat) (n : Word) :
    (c.forward limit n).binding = c.binding := by
  obtain ⟨-, heq⟩ | ⟨-, heq⟩ := forward_cases c limit n <;> simp [heq]

@[simp] theorem Context.back_binding (c : Context) (n : Word) : (c.back n).binding = c.binding := by
  obtain ⟨-, heq⟩ | ⟨-, heq⟩ := back_cases c n <;> simp [heq]

section cursor

variable {c c' : Context} {limit memBytes : Nat}

theorem Context.cursorInv.setErr (h : c.cursorInv limit) (k : ErrorKind) : (c.setErr k).cursorInv limit :=
  ⟨h.1, k.code_le⟩

theorem Context.cursorInv.moveTo (h : c.cursorInv limit) {pos : Nat} (hpos : pos ≤ limit) :
    (c.moveTo pos).cursorInv limit :=
  ⟨(zext32_toNat_le pos).trans hpos, h.2⟩

/-- forward keeps the cursor within its limit (R152, R202). -/
theorem Context.cursorInv.forward (h : c.cursorInv limit) (n : Word) : (c.forward limit n).cursorInv limit := by
  obtain ⟨hlt, heq⟩ | ⟨-, heq⟩ := forward_cases c limit n
  · rw [heq]; exact h.moveTo hlt.le
  · rw [heq]; exact h.setErr _

/-- back keeps the cursor within its limit (R153, R203). -/
theorem Context.cursorInv.back (h : c.cursorInv limit) (n : Word) : (c.back n).cursorInv limit := by
  obtain ⟨-, heq⟩ | ⟨-, heq⟩ := back_cases c n
  · rw [heq]; exact h.moveTo ((Nat.sub_le _ _).trans h.1)
  · rw [heq]; exact h.setErr _

/-- BY's invariant stays where the binding does and the new cursor and code are in range. -/
theorem Context.byteInv.of_cursorInv (h : c.byteInv memBytes) (hcursor : c'.cursorInv c.len.toNat)
    (hbinding : c'.binding = c.binding) : c'.byteInv memBytes := by
  obtain ⟨-, -, hfit⟩ := h
  obtain ⟨hcur, herr⟩ := hcursor
  simp only [Context.binding, Prod.mk.injEq] at hbinding
  obtain ⟨hvalid, hbase, hlen⟩ := hbinding
  exact ⟨hlen ▸ hcur, herr, by rwa [hvalid, hbase, hlen]⟩

/-- BT's invariant stays where the binding does and the new cursor and code are in range. -/
theorem Context.bitInv.of_cursorInv (h : c.bitInv memBytes) (hcursor : c'.cursorInv c.bitLen)
    (hbinding : c'.binding = c.binding) : c'.bitInv memBytes := by
  obtain ⟨-, hcap, -, hfit⟩ := h
  obtain ⟨hcur, herr⟩ := hcursor
  simp only [Context.binding, Prod.mk.injEq] at hbinding
  obtain ⟨hvalid, hbase, hlen⟩ := hbinding
  exact ⟨by rwa [Context.bitLen, hlen], hlen ▸ hcap, herr, by rwa [hvalid, hbase, hlen]⟩

theorem Context.bound_byteInv {base len : Word} (hfit : base.toNat + len.toNat ≤ memBytes) :
    (Context.bound base len).byteInv memBytes :=
  ⟨Nat.zero_le _, Nat.zero_le _, fun _ => hfit⟩

theorem Context.bound_bitInv {base len : Word} (hfit : base.toNat + len.toNat ≤ memBytes)
    (hcap : len.toNat ≤ Config.maxBitCap) : (Context.bound base len).bitInv memBytes :=
  ⟨Nat.zero_le _, hcap, Nat.zero_le _, fun _ => hfit⟩

end cursor

/-! #### The parts of the invariant, and one register replaced -/

section replaced

variable {s : State} {c : Context}

theorem State.Inv.mem_wf (hs : s.Inv) : s.mem.wf := hs.1

theorem State.Inv.byteInv (hs : s.Inv) : s.byteCtx.byteInv s.mem.size := hs.2.2.1

theorem State.Inv.bitInv (hs : s.Inv) : s.bitCtx.bitInv s.mem.size := hs.2.2.2

theorem State.Inv.byteCursor (hs : s.Inv) : s.byteCtx.cursorInv s.byteCtx.len.toNat := by
  obtain ⟨hcur, herr, -⟩ := hs.byteInv
  exact ⟨hcur, herr⟩

theorem State.Inv.bitCursor (hs : s.Inv) : s.bitCtx.cursorInv s.bitCtx.bitLen := by
  obtain ⟨hcur, -, herr, -⟩ := hs.bitInv
  exact ⟨hcur, herr⟩

theorem State.Inv.setResult (hs : s.Inv) (r : Word) : State.Inv { s with result := r } := hs

theorem State.Inv.setMem (hs : s.Inv) {m : Memory} (hm : m.size = s.mem.size ∧ m.wf) :
    State.Inv { s with mem := m } := by
  obtain ⟨-, hstatus, hbyte, hbit⟩ := hs
  obtain ⟨hsize, hwf⟩ := hm
  exact ⟨hwf, hstatus, hsize.symm ▸ hbyte, hsize.symm ▸ hbit⟩

theorem State.Inv.setByteCtx (hs : s.Inv) (hc : c.byteInv s.mem.size) : State.Inv { s with byteCtx := c } := by
  obtain ⟨hmem, hstatus, -, hbit⟩ := hs
  exact ⟨hmem, hstatus, hc, hbit⟩

theorem State.Inv.setBitCtx (hs : s.Inv) (hc : c.bitInv s.mem.size) : State.Inv { s with bitCtx := c } := by
  obtain ⟨hmem, hstatus, hbyte, -⟩ := hs
  exact ⟨hmem, hstatus, hbyte, hc⟩

theorem State.Inv.setByteCursor (hs : s.Inv) (hcursor : c.cursorInv s.byteCtx.len.toNat)
    (hbinding : c.binding = s.byteCtx.binding := by simp) : State.Inv { s with byteCtx := c } :=
  hs.setByteCtx (hs.byteInv.of_cursorInv hcursor hbinding)

theorem State.Inv.setBitCursor (hs : s.Inv) (hcursor : c.cursorInv s.bitCtx.bitLen)
    (hbinding : c.binding = s.bitCtx.binding := by simp) : State.Inv { s with bitCtx := c } :=
  hs.setBitCtx (hs.bitInv.of_cursorInv hcursor hbinding)

/-- An accepted command sets no bit of STATUS and clears ILL (R260). -/
theorem State.Inv.accept (hs : s.Inv) : s.accept.Inv := by
  obtain ⟨hmem, ⟨hreserved, -⟩, hbyte, hbit⟩ := hs
  have hle : s.accept.status.toNat ≤ s.status.toNat := by
    rw [State.accept_status, BitVec.toNat_and]
    exact Nat.and_le_left
  exact ⟨hmem, ⟨hle.trans_lt hreserved, by simp⟩, hbyte, hbit⟩

/-- ILLEGAL sets ILL and ILLS together, and no reserved bit of STATUS (R258). -/
theorem State.Inv.illegal (hs : s.Inv) : s.illegal.Inv := by
  obtain ⟨hmem, ⟨hreserved, -⟩, hbyte, hbit⟩ := hs
  have hlt : s.illegal.status.toNat < 2 ^ 2 := by
    rw [State.illegal_status, BitVec.toNat_or]
    exact Nat.or_lt_two_pow hreserved (by decide)
  exact ⟨hmem, ⟨hlt, fun _ => State.illegal_ills s⟩, hbyte, hbit⟩

end replaced

/-! #### Reset -/

theorem State.resetWith_inv {m : Memory} (hm : m.wf) : (State.resetWith m).Inv := by
  refine ⟨hm, ⟨by simp, by simp [State.ill]⟩, ?_, ?_⟩ <;> simp [Context.unbound, Context.byteInv, Context.bitInv]

theorem State.Inv.applyReset {s : State} (hs : s.Inv) : (applyReset s).Inv := State.resetWith_inv hs.mem_wf

/-- Settles O41: `State.reset` is the case of its own memory. -/
theorem resetMeetsTheInvariant : Obligations.ResetMeetsTheInvariant :=
  ⟨State.resetWith_inv reset_mem_wf, fun _ hm => State.resetWith_inv hm⟩

/-! #### The shared operations -/

/-- Where the operation goes on from a state of the invariant, the next state meets it. -/
def KeepsInv (f : State → Out) : Prop := ∀ s t : State, s.Inv → f s = .next t → t.Inv

section operations

variable {f : State → Out}

/-- An operation that always goes on keeps the invariant where its update does. -/
theorem KeepsInv.next {g : State → State} (hg : ∀ s : State, s.Inv → (g s).Inv) : KeepsInv fun s => .next (g s) := by
  intro s t hs h
  rw [next_eq h]
  exact hg s hs

theorem KeepsInv.requireBY (hf : KeepsInv f) : KeepsInv fun s => requireBY s f := by
  intro s t hs h
  obtain ⟨-, h⟩ | ⟨-, rfl⟩ := requireBY_next h
  · exact hf _ _ hs.accept h
  · exact hs.illegal

theorem KeepsInv.requireBT (hf : KeepsInv f) : KeepsInv fun s => requireBT s f := by
  intro s t hs h
  obtain ⟨-, h⟩ | ⟨-, rfl⟩ := requireBT_next h
  · exact hf _ _ hs.accept h
  · exact hs.illegal

/-- A command with two outcomes, ILLEGAL and an update of the accepted state, keeps the invariant where the update
does. -/
theorem KeepsInv.ite_illegal {p : State → Prop} [DecidablePred p] {g : State → State}
    (hg : ∀ s : State, s.Inv → p s → (g s).Inv) : KeepsInv fun s => if p s then .next (g s) else .next s.illegal := by
  intro s t hs h
  dsimp only at h
  split at h
  · next hp => rw [next_eq h]; exact hg s hs hp
  · rw [next_eq h]; exact hs.illegal

/-- A command that changes at most RESULT, beside STATUS, keeps the invariant. -/
theorem keepsInv_of_result {i : Instr}
    (heff : ∀ s t, Effect i s t → t = s.illegal ∨ ∃ r, t = { s.accept with result := r }) : KeepsInv (exec i) := by
  intro s t hs h
  obtain rfl | ⟨r, rfl⟩ := heff s t (exec_effect h)
  · exact hs.illegal
  · exact hs.accept.setResult r

theorem seqGet_keepsInv (k : Nat) : KeepsInv (seqGet k) := by
  intro s t hs h
  obtain ⟨hk, bs, -, rfl⟩ | ⟨-, rfl⟩ := seqGet_next h
  · exact (hs.setByteCursor (hs.byteCursor.moveTo hk)).setResult _
  · exact (hs.setByteCursor ((hs.byteCursor.moveTo le_rfl).setErr _)).setResult _

theorem seqSet_keepsInv (k v : Nat) : KeepsInv (seqSet k v) := by
  intro s t hs h
  obtain ⟨m, hm, hcases⟩ := seqSet_next h
  have hmem := writeBytes_wf hs.mem_wf hm
  obtain ⟨hk, rfl⟩ | ⟨-, rfl⟩ := hcases
  · exact (hs.setByteCursor (hs.byteCursor.moveTo hk)).setMem hmem
  · exact (hs.setByteCursor ((hs.byteCursor.moveTo le_rfl).setErr _)).setMem hmem

theorem posGet_keepsInv (k pos : Nat) : KeepsInv (posGet k pos) := by
  intro s t hs h
  obtain ⟨-, rfl⟩ | ⟨-, bs, -, rfl⟩ := posGet_next h
  · exact (hs.setByteCursor (hs.byteCursor.setErr _)).setResult _
  · exact hs.setResult _

theorem posSet_keepsInv (k pos v : Nat) : KeepsInv (posSet k pos v) := by
  intro s t hs h
  obtain ⟨-, rfl⟩ | ⟨-, m, hm, rfl⟩ := posSet_next h
  · exact hs.setByteCursor (hs.byteCursor.setErr _)
  · exact hs.setMem (writeBytes_wf hs.mem_wf hm)

/-- A get of a field keeps the invariant where the context it leaves on success does. -/
theorem bitGet_inv {n p : Nat} {after : Context} {s t : State} (hs : s.Inv)
    (hafter : p + n ≤ s.bitCtx.bitLen → after.bitInv s.mem.size) (h : bitGet n p after s = .next t) : t.Inv := by
  obtain ⟨e, -, rfl⟩ | ⟨hpass, v, -, rfl⟩ := bitGet_next h
  · exact (hs.setBitCursor (hs.bitCursor.setErr e)).setResult _
  · obtain ⟨-, -, hfit⟩ := getFailure_none.1 hpass
    exact (hs.setBitCtx (hafter hfit)).setResult _

/-- A set of a field keeps the invariant where the context it leaves on success does. -/
theorem bitSet_inv {n p v : Nat} {after : Context} {s t : State} (hs : s.Inv)
    (hafter : p + n ≤ s.bitCtx.bitLen → after.bitInv s.mem.size) (h : bitSet n p v after s = .next t) : t.Inv := by
  obtain ⟨e, -, rfl⟩ | ⟨hpass, m, hm, rfl⟩ := bitSet_next h
  · exact hs.setBitCursor (hs.bitCursor.setErr e)
  · obtain ⟨-, -, hfit⟩ := setFailure_none.1 hpass
    exact (hs.setBitCtx (hafter hfit)).setMem (fieldSet_wf hs.mem_wf hm)

end operations

/-! #### The commands -/

theorem execByInit_keepsInv (mode : Mode) (base len : Word) : KeepsInv (execByInit mode base len) :=
  .ite_illegal fun _ hs hfits =>
    (hs.accept.setByteCtx (Context.bound_byteInv (of_decide_eq_true hfits))).setMem
      ⟨Memory.initWindow_size _ _ _ _, Memory.initWindow_wf hs.mem_wf _ _ _⟩

theorem execBtInit_keepsInv (mode : Mode) (base len : Word) : KeepsInv (execBtInit mode base len) :=
  .ite_illegal fun _ hs ⟨hfits, hcap⟩ =>
    (hs.accept.setBitCtx (Context.bound_bitInv (of_decide_eq_true hfits) hcap)).setMem
      ⟨Memory.initWindow_size _ _ _ _, Memory.initWindow_wf hs.mem_wf _ _ _⟩

/-- The BASE of a handoff is at most the address: equal to it below 2^32, and any 32-bit value from there on (log 10). -/
theorem bindBitStream_inv {s : State} (hs : s.Inv) {addr : Nat} {n : Word} (hfit : addr + n.toNat ≤ s.mem.size)
    (hcap : n.toNat ≤ Config.maxBitCap) : (bindBitStream addr n s).Inv := by
  obtain ⟨base, draws, heq, hbase⟩ := bindBitStream_eq addr n s
  have hle : base.toNat ≤ addr := by
    by_cases haddr : addr < 2 ^ 32
    · rw [(hbase haddr).1]; exact zext32_toNat_le addr
    · exact base.isLt.le.trans (not_lt.1 haddr)
  rw [heq]
  exact hs.setBitCtx (Context.bound_bitInv (by omega) hcap)

theorem execByGetBitStream_keepsInv (n : Word) : KeepsInv (execByGetBitStream n) :=
  .ite_illegal fun s hs ⟨hvalid, hlen, hcap⟩ => by
    obtain ⟨-, -, hfit⟩ := hs.byteInv
    have hwindow : byteAddr s s.byteCtx.cur.toNat + n.toNat ≤ s.mem.size := by
      have := hfit hvalid
      simp only [byteAddr]
      omega
    exact bindBitStream_inv hs.accept hwindow hcap

theorem execBySetByteSlice_keepsInv (b e : Nat) (v : Word) : KeepsInv (execBySetByteSlice b e v) := by
  refine KeepsInv.requireBY fun s t hs h => ?_
  split at h
  · rw [next_eq h]; exact hs
  · obtain ⟨m, hm, h⟩ := orFault_next h
    rw [next_eq h]
    exact hs.setMem (patchByte_wf hs.mem_wf hm)

theorem execBtGetBit_keepsInv (n : Nat) : KeepsInv (execBtGetBit n) :=
  .requireBT fun _ _ hs => bitGet_inv hs fun hfit => hs.bitInv.of_cursorInv (hs.bitCursor.moveTo hfit) rfl

theorem execBtSetBit_keepsInv (n : Nat) (v : Word) : KeepsInv (execBtSetBit n v) :=
  .requireBT fun _ _ hs => bitSet_inv hs fun hfit => hs.bitInv.of_cursorInv (hs.bitCursor.moveTo hfit) rfl

theorem execBtGetBitByPos_keepsInv (n : Nat) (pos : Word) : KeepsInv (execBtGetBitByPos n pos) :=
  .requireBT fun _ _ hs => bitGet_inv hs fun _ => hs.bitInv

theorem execBtSetBitByPos_keepsInv (n : Nat) (pos v : Word) : KeepsInv (execBtSetBitByPos n pos v) :=
  .requireBT fun _ _ hs => bitSet_inv hs fun _ => hs.bitInv

theorem exec_keepsInv (i : Instr) : KeepsInv (exec i) := by
  cases i with
  | slGetByteSlice _ _ _ | slSetByteSlice _ _ _ _ | slGetShortSlice _ _ _ | slGetIntSlice _ _ _ =>
    exact keepsInv_of_result fun _ _ h => .inr h
  | byInit _ _ _ => exact execByInit_keepsInv _ _ _
  | byForward n => exact .requireBY (.next fun s hs => hs.setByteCursor (hs.byteCursor.forward n))
  | byBack n => exact .requireBY (.next fun s hs => hs.setByteCursor (hs.byteCursor.back n))
  | byGetByte | byGetWord | byGetDword => exact (seqGet_keepsInv _).requireBY
  | bySetByte _ | bySetWord _ | bySetDword _ => exact (seqSet_keepsInv _ _).requireBY
  | bySetByteSlice _ _ _ => exact execBySetByteSlice_keepsInv _ _ _
  | byGetByteByPos _ | byGetWordByPos _ | byGetDwordByPos _ => exact (posGet_keepsInv _ _).requireBY
  | bySetByteByPos _ _ | bySetWordByPos _ _ | bySetDwordByPos _ _ => exact (posSet_keepsInv _ _ _).requireBY
  | byGetBitStream _ => exact execByGetBitStream_keepsInv _
  | byGetPos | byGetError | byGetLength | byGetBuffer
  | btGetPos | btGetBytePos | btGetError | btGetLength | btGetBuffer => exact keepsInv_of_result fun _ _ h => h
  | btInit _ _ _ => exact execBtInit_keepsInv _ _ _
  | btForward n => exact .requireBT (.next fun s hs => hs.setBitCursor (hs.bitCursor.forward n))
  | btBack n => exact .requireBT (.next fun s hs => hs.setBitCursor (hs.bitCursor.back n))
  | btGetBit _ => exact execBtGetBit_keepsInv _
  | btSetBit _ _ => exact execBtSetBit_keepsInv _ _
  | btGetBitByPos _ _ => exact execBtGetBitByPos_keepsInv _ _
  | btSetBitByPos _ _ _ => exact execBtSetBitByPos_keepsInv _ _ _

/-! #### A step -/

theorem runCommand_keepsInv (c : Command) : KeepsInv (runCommand c) := by
  intro s t hs h
  unfold runCommand at h
  split at h
  · exact exec_keepsInv _ s t hs h
  · rw [next_eq h]; exact hs.illegal

theorem hostWrite_keepsInv (addr : Word) (v : Byte) : KeepsInv (hostWrite addr v) := by
  intro s t hs h
  unfold hostWrite at h
  split at h
  · next ha =>
    rw [next_eq h]
    exact hs.setMem ⟨rfl, Memory.write_wf hs.mem_wf ha v⟩
  · cases h

theorem runMove_keepsInv (mv : HostMove) : KeepsInv (runMove mv) := by
  cases mv with
  | command c => exact runCommand_keepsInv c
  | memWrite addr v => exact hostWrite_keepsInv addr v
  | reset => exact .next fun _ hs => hs.applyReset

theorem step_keepsInv : KeepsInv step := by
  intro s t hs h
  unfold step at h
  split at h
  · rw [next_eq h]; exact hs
  · next mv rest _ => exact runMove_keepsInv mv { s with host := rest } t hs h

/-- Settles O42: every host move keeps the invariant, and taking a move off the list touches no part of it. -/
theorem everyStepKeepsTheInvariant : Obligations.EveryStepKeepsTheInvariant := step_keepsInv

end Sys2Proof.Machine

/-! ### STATUS and the registers of the access table (R32, R46), and the unbound contexts after reset (R45)

What a command changes follows from the cases of `Effect`: one line of each split per shape of effect. -/

namespace Sys2Proof.Machine

variable {i : Instr} {s t : State}

/-! #### STATUS -/

/-- STATUS of a command that goes on: that of ILLEGAL (R258), or that of an accepted command (R260). -/
theorem Effect.status_eq (h : Effect i s t) : t.status = s.illegal.status ∨ t.status = s.accept.status := by
  cases i with
  | slGetByteSlice _ _ _ | slSetByteSlice _ _ _ _ | slGetShortSlice _ _ _ | slGetIntSlice _ _ _ =>
    obtain ⟨_, rfl⟩ := h; exact .inr rfl
  | byGetBitStream _ => obtain rfl | ⟨_, _, rfl⟩ := h <;> simp
  | byForward _ | byBack _ | btForward _ | btBack _ => obtain rfl | rfl | ⟨_, rfl, -⟩ := h <;> simp
  | byGetByte | byGetWord | byGetDword => obtain rfl | ⟨_, _, rfl⟩ | ⟨_, rfl⟩ := h <;> simp
  | bySetByte _ | bySetWord _ | bySetDword _ => obtain rfl | ⟨_, _, rfl⟩ | ⟨_, _, rfl⟩ := h <;> simp
  | byGetByteByPos _ | byGetWordByPos _ | byGetDwordByPos _
  | bySetByteByPos _ _ | bySetWordByPos _ _ | bySetDwordByPos _ _ => obtain rfl | rfl | ⟨_, rfl⟩ := h <;> simp
  | btGetBit _ | btSetBit _ _ => obtain rfl | ⟨_, -, rfl⟩ | ⟨_, _, rfl⟩ := h <;> simp
  | btGetBitByPos _ _ | btSetBitByPos _ _ _ => obtain rfl | ⟨_, -, rfl⟩ | ⟨_, rfl⟩ := h <;> simp
  | byInit _ _ _ | btInit _ _ _ | bySetByteSlice _ _ _ | byGetPos | byGetError | byGetLength | byGetBuffer
  | btGetPos | btGetBytePos | btGetError | btGetLength | btGetBuffer => obtain rfl | ⟨_, rfl⟩ := h <;> simp

/-- A presented command leaves the STATUS of ILLEGAL or of an accepted command (R261). -/
theorem runCommand_status_eq {c : Command} (h : runCommand c s = .next t) :
    t.status = s.illegal.status ∨ t.status = s.accept.status := by
  unfold runCommand at h
  split at h
  · exact (exec_effect h).status_eq
  · exact .inl (congrArg State.status (next_eq h))

/-- ILL and ILLS are bits of STATUS (R32). -/
theorem State.ill_ills_congr {u : State} (h : t.status = u.status) : t.ill = u.ill ∧ t.ills = u.ills := by
  simp [State.ill, State.ills, h]

/-- A command sets ILL and ILLS together, or clears ILL and keeps ILLS (R258, R260). -/
theorem runCommand_ill_ills {c : Command} (h : runCommand c s = .next t) :
    (t.ill = true ∧ t.ills = true) ∨ (t.ill = false ∧ t.ills = s.ills) :=
  (runCommand_status_eq h).imp (fun h => by simpa using State.ill_ills_congr h)
    fun h => by simpa using State.ill_ills_congr h

/-- A host write leaves STATUS (R74). -/
theorem hostWrite_status_eq {addr : Word} {v : Byte} (h : hostWrite addr v s = .next t) : t.status = s.status := by
  unfold hostWrite at h
  split at h
  · rw [next_eq h]
  · cases h

theorem step_of_host_cons {mv : HostMove} {rest : List HostMove} (h : s.host = mv :: rest) :
    step s = runMove mv { s with host := rest } := by
  simp [step, h]

/-- Settles O49: by the kind of host move. -/
theorem illegalBitIsSticky : Obligations.IllegalBitIsSticky := by
  intro s t mv rest hhost h
  rw [step_of_host_cons hhost] at h
  cases mv with
  | command c =>
    obtain ⟨hill, hills⟩ | ⟨hill, hills⟩ := runCommand_ill_ills h
    · exact ⟨fun _ _ => hills, nofun, fun _ _ _ => hills⟩
    · exact ⟨fun _ hs => hills.trans hs, nofun, fun _ _ hone => absurd hone (by simp [hill])⟩
  | memWrite addr v =>
    have hills : t.ills = s.ills := (State.ill_ills_congr (hostWrite_status_eq h)).2
    exact ⟨fun _ hs => hills.trans hs, nofun, nofun⟩
  | reset =>
    rw [next_eq h]
    exact ⟨fun hne => absurd rfl hne, fun _ => by simp [State.ill, State.ills], nofun⟩

/-! #### The access table -/

/-- Settles O46: in each case of `Effect` a register is as it was, or the opcode is among those that write it. -/
theorem registersChangeOnlyByTheirCommands : Obligations.RegistersChangeOnlyByTheirCommands := by
  intro i s t h
  replace h : Effect i s t := exec_effect h
  cases i with
  | slGetByteSlice _ _ _ | slSetByteSlice _ _ _ _ | slGetShortSlice _ _ _ | slGetIntSlice _ _ _ =>
    obtain ⟨_, rfl⟩ := h; simp [op, Instr.opcode]
  | byGetBitStream _ => obtain rfl | ⟨_, _, rfl⟩ := h <;> simp [op, Instr.opcode]
  | byForward _ | byBack _ | btForward _ | btBack _ =>
    obtain rfl | rfl | ⟨_, rfl, -⟩ := h <;> simp [op, Instr.opcode]
  | byGetByte | byGetWord | byGetDword => obtain rfl | ⟨_, _, rfl⟩ | ⟨_, rfl⟩ := h <;> simp [op, Instr.opcode]
  | bySetByte _ | bySetWord _ | bySetDword _ =>
    obtain rfl | ⟨_, _, rfl⟩ | ⟨_, _, rfl⟩ := h <;> simp [op, Instr.opcode]
  | byGetByteByPos _ | byGetWordByPos _ | byGetDwordByPos _
  | bySetByteByPos _ _ | bySetWordByPos _ _ | bySetDwordByPos _ _ =>
    obtain rfl | rfl | ⟨_, rfl⟩ := h <;> simp [op, Instr.opcode]
  | btGetBit _ | btSetBit _ _ => obtain rfl | ⟨_, -, rfl⟩ | ⟨_, _, rfl⟩ := h <;> simp [op, Instr.opcode]
  | btGetBitByPos _ _ | btSetBitByPos _ _ _ =>
    obtain rfl | ⟨_, -, rfl⟩ | ⟨_, rfl⟩ := h <;> simp [op, Instr.opcode]
  | byInit _ _ _ | btInit _ _ _ | bySetByteSlice _ _ _ | byGetPos | byGetError | byGetLength | byGetBuffer
  | btGetPos | btGetBytePos | btGetError | btGetLength | btGetBuffer =>
    obtain rfl | ⟨_, rfl⟩ := h <;> simp [op, Instr.opcode]

/-! #### Reset and unbound contexts -/

/-- Every Byte Stream command but BY_INIT is ILLEGAL while BY is unbound: each checks VALID first (R150). -/
theorem exec_of_byteCtx_unbound (hop : 0x11 ≤ op i ∧ op i ≤ 0x24) (hunbound : s.byteCtx.valid = false) :
    exec i s = .next s.illegal := by
  cases i with
  | slGetByteSlice _ _ _ | slSetByteSlice _ _ _ _ | slGetShortSlice _ _ _ | slGetIntSlice _ _ _ | byInit _ _ _
  | btInit _ _ _ | btForward _ | btBack _ | btGetBit _ | btSetBit _ _ | btGetBitByPos _ _ | btSetBitByPos _ _ _
  | btGetPos | btGetBytePos | btGetError | btGetLength | btGetBuffer => simp [op, Instr.opcode] at hop
  | byForward _ | byBack _ | byGetByte | byGetWord | byGetDword | bySetByte _ | bySetWord _ | bySetDword _
  | bySetByteSlice _ _ _ | byGetByteByPos _ | byGetWordByPos _ | byGetDwordByPos _
  | bySetByteByPos _ _ | bySetWordByPos _ _ | bySetDwordByPos _ _
  | byGetBitStream _ | byGetPos | byGetError | byGetLength | byGetBuffer => exact if_neg (by simp [hunbound])

/-- Every Bit Stream command but BT_INIT is ILLEGAL while BT is unbound: each checks VALID first (R200). -/
theorem exec_of_bitCtx_unbound (hop : 0x31 ≤ op i ∧ op i ≤ 0x3B) (hunbound : s.bitCtx.valid = false) :
    exec i s = .next s.illegal := by
  cases i with
  | slGetByteSlice _ _ _ | slSetByteSlice _ _ _ _ | slGetShortSlice _ _ _ | slGetIntSlice _ _ _ | byInit _ _ _
  | byForward _ | byBack _ | byGetByte | byGetWord | byGetDword | bySetByte _ | bySetWord _ | bySetDword _
  | bySetByteSlice _ _ _ | byGetByteByPos _ | byGetWordByPos _ | byGetDwordByPos _
  | bySetByteByPos _ _ | bySetWordByPos _ _ | bySetDwordByPos _ _ | byGetBitStream _
  | byGetPos | byGetError | byGetLength | byGetBuffer | btInit _ _ _ => simp [op, Instr.opcode] at hop
  | btForward _ | btBack _ | btGetBit _ | btSetBit _ _ | btGetBitByPos _ _ | btSetBitByPos _ _ _
  | btGetPos | btGetBytePos | btGetError | btGetLength | btGetBuffer => exact if_neg (by simp [hunbound])

/-- Settles O10: the values by the reset state's own fields, the commands by their need of a bound context. -/
theorem resetLeavesTheStatedValues : Obligations.ResetLeavesTheStatedValues := by
  refine ⟨?values, State.resetWith_mem, ?move, ?commands⟩
  case values =>
    rintro t (rfl | ⟨m, rfl⟩ | ⟨s, rfl⟩) <;> exact ⟨rfl, rfl, rfl, rfl⟩
  case move => exact fun s rest hhost => ⟨step_of_host_cons hhost, applyReset_mem _⟩
  case commands =>
    rintro i s (⟨hlo, hhi, hunbound⟩ | ⟨hlo, hhi, hunbound⟩)
    · exact exec_of_byteCtx_unbound ⟨hlo, hhi⟩ hunbound
    · exact exec_of_bitCtx_unbound ⟨hlo, hhi⟩ hunbound

end Sys2Proof.Machine

/-! ### A command's window (R62): it writes no byte outside it, and depends on none

Both statements of R62 are one property of the command as a function of MEM (`OutConfined`), over the set W of the
window's addresses. It is proved of each memory operation (`ReadsWithin`, `Confined`) and put together along the
command. -/

namespace Sys2Proof.Machine

/-- The state over another memory. -/
def State.withMem (s : State) (m : Memory) : State := { s with mem := m }

@[simp] theorem State.withMem_bitCtx (s : State) (m : Memory) : (s.withMem m).bitCtx = s.bitCtx := rfl

/-- Two memories of one size, in canonical form, that hold the same bytes at the addresses of W. -/
structure Memory.Alike (W : Nat → Prop) (m m' : Memory) : Prop where
  wf : m.wf
  wf' : m'.wf
  size_eq : m'.size = m.size
  read_eq : ∀ a, W a → m'.read a = m.read a

/-- The value depends on no byte of MEM outside W. -/
def ReadsWithin {α : Type} (W : Nat → Prop) (r : Memory → α) : Prop := ∀ m m', Memory.Alike W m m' → r m' = r m

/-- The memory operation writes no byte outside W, and what it does inside W depends on no byte outside. -/
structure Confined (W : Nat → Prop) (g : Memory → Except Fault Memory) : Prop where
  keeps : ∀ {m m₁}, m.wf → g m = .ok m₁ → m₁.wf ∧ ∀ a, ¬ W a → m₁.read a = m.read a
  alike : ∀ {m m' m₁}, Memory.Alike W m m' → g m = .ok m₁ → ∃ m₁', g m' = .ok m₁' ∧ Memory.Alike W m₁ m₁'

/-- The outcome, as a function of MEM, leaves every byte outside W, and its registers and the bytes of W it leaves
depend on no byte outside. -/
structure OutConfined (W : Nat → Prop) (f : Memory → Out) : Prop where
  keeps : ∀ {m t}, m.wf → f m = .next t → ∀ a, ¬ W a → t.mem.read a = m.read a
  alike : ∀ {m m' t}, Memory.Alike W m m' → f m = .next t →
    ∃ t', f m' = .next t' ∧ t' = { t with mem := t'.mem } ∧ ∀ a, W a → t'.mem.read a = t.mem.read a

/-- The address is in the context's window (R61). -/
def Context.covers (c : Context) (a : Nat) : Prop := c.base.toNat ≤ a ∧ a < c.base.toNat + c.len.toNat

section window

variable {W : Nat → Prop}

/-! #### Memory operations -/

theorem memRead_readsWithin {a : Nat} (ha : W a) : ReadsWithin W (memRead · a) := by
  intro m m' hm
  simp only [memRead, hm.size_eq, hm.read_eq a ha]

theorem readBytes_readsWithin {a k : Nat} (hW : ∀ x, a ≤ x → x < a + k → W x) : ReadsWithin W (readBytes · a k) := by
  intro m m' hm
  induction k generalizing a with
  | zero => rfl
  | succ k ih =>
    have hfirst : memRead m' a = memRead m a := memRead_readsWithin (hW a (by omega) (by omega)) m m' hm
    have hrest : readBytes m' (a + 1) k = readBytes m (a + 1) k := ih fun x hlo hhi => hW x (by omega) (by omega)
    simp only [readBytes, hfirst, hrest]

/-- A field's bytes are those from the byte of its first bit to the byte of its last (R206). -/
theorem fieldGet_readsWithin {base p n : Nat} (hW : ∀ x, base + p / 8 ≤ x → x ≤ base + (p + n - 1) / 8 → W x)
    (hn : 1 ≤ n) : ReadsWithin W (fieldGet · base p n) := by
  intro m m' hm
  have hfirst := memRead_readsWithin (hW (base + p / 8) (by omega) (by omega)) m m' hm
  have hmiddle := readBytes_readsWithin (W := W) (a := base + p / 8 + 1) (k := (p + n - 1) / 8 - p / 8 - 1)
    (fun x hlo hhi => hW x (by omega) (by omega)) m m' hm
  have hlast := memRead_readsWithin (hW (base + (p + n - 1) / 8) (by omega) (by omega)) m m' hm
  simp only [fieldGet, hfirst, hmiddle, hlast]

theorem memWrite_confined {a : Nat} (ha : W a) (v : Byte) : Confined W (memWrite · a v) where
  keeps := by
    intro m m₁ hm h
    obtain ⟨hlt, rfl⟩ := memWrite_cases h
    refine ⟨Memory.write_wf hm hlt v, fun x hx => ?_⟩
    rw [Memory.read_write hm, if_neg (by rintro rfl; exact hx ha)]
  alike := by
    intro m m' m₁ hm h
    obtain ⟨hlt, rfl⟩ := memWrite_cases h
    have hlt' : a < m'.size := hm.size_eq ▸ hlt
    refine ⟨m'.write a v, memWrite_ok hlt' v,
      Memory.write_wf hm.wf hlt v, Memory.write_wf hm.wf' hlt' v, hm.size_eq, fun x hx => ?_⟩
    rw [Memory.read_write hm.wf, Memory.read_write hm.wf', hm.read_eq x hx]

theorem confined_ok : Confined W .ok where
  keeps := by rintro m _ hm ⟨⟩; exact ⟨hm, fun _ _ => rfl⟩
  alike := by rintro m m' _ hm ⟨⟩; exact ⟨m', rfl, hm⟩

theorem except_bind_ok {α β : Type} {x : Except Fault α} {k : α → Except Fault β} {b : β} (h : x >>= k = .ok b) :
    ∃ a, x = .ok a ∧ k a = .ok b := by
  cases x with
  | ok a => exact ⟨a, rfl, h⟩
  | error f => cases h

theorem Confined.bind {g k : Memory → Except Fault Memory} (hg : Confined W g) (hk : Confined W k) :
    Confined W fun m => g m >>= k where
  keeps := by
    intro m m₂ hm h
    obtain ⟨m₁, h₁, h₂⟩ := except_bind_ok h
    obtain ⟨hwf₁, hout₁⟩ := hg.keeps hm h₁
    obtain ⟨hwf₂, hout₂⟩ := hk.keeps hwf₁ h₂
    exact ⟨hwf₂, fun a ha => (hout₂ a ha).trans (hout₁ a ha)⟩
  alike := by
    intro m m' m₂ hm h
    obtain ⟨m₁, h₁, h₂⟩ := except_bind_ok h
    obtain ⟨m₁', h₁', hm₁⟩ := hg.alike hm h₁
    obtain ⟨m₂', h₂', hm₂⟩ := hk.alike hm₁ h₂
    exact ⟨m₂', by rw [h₁']; exact h₂', hm₂⟩

/-- A read inside W, and then an operation confined to W whatever was read. -/
theorem Confined.bindRead {α : Type} {r : Memory → Except Fault α} {k : α → Memory → Except Fault Memory}
    (hr : ReadsWithin W r) (hk : ∀ x, Confined W (k x)) : Confined W fun m => r m >>= fun x => k x m where
  keeps := by
    intro m m₁ hm h
    obtain ⟨x, -, hx⟩ := except_bind_ok h
    exact (hk x).keeps hm hx
  alike := by
    intro m m' m₁ hm h
    obtain ⟨x, hrx, hx⟩ := except_bind_ok h
    obtain ⟨m₁', hx', hm₁⟩ := (hk x).alike hm hx
    exact ⟨m₁', by rw [hr m m' hm, hrx]; exact hx', hm₁⟩

theorem writeBytes_confined {a : Nat} {bs : List Byte} (hW : ∀ x, a ≤ x → x < a + bs.length → W x) :
    Confined W (writeBytes · a bs) := by
  induction bs generalizing a with
  | nil => exact confined_ok
  | cons b bs ih =>
    rw [List.length_cons] at hW
    have hfirst : Confined W (memWrite · a b) := memWrite_confined (hW a (by omega) (by omega)) b
    exact hfirst.bind (ih fun x hlo hhi => hW x (by omega) (by omega))

theorem patchByte_confined {a : Nat} (ha : W a) (b e v : Nat) : Confined W (patchByte · a b e v) :=
  .bindRead (memRead_readsWithin ha) fun _ => memWrite_confined ha _

/-- A field's bytes are those from the byte of its first bit to the byte of its last (R206). -/
theorem fieldSet_confined {base p n : Nat} (hW : ∀ x, base + p / 8 ≤ x → x ≤ base + (p + n - 1) / 8 → W x)
    (hn : 1 ≤ n) (v : Nat) : Confined W (fieldSet · base p n v) := by
  have hfirst : W (base + p / 8) := hW _ (by omega) (by omega)
  have hlast : W (base + (p + n - 1) / 8) := hW _ (by omega) (by omega)
  unfold fieldSet
  dsimp only
  split
  · exact patchByte_confined hfirst _ _ _
  · refine (patchByte_confined hfirst _ _ _).bind (.bind (writeBytes_confined fun x hlo hhi => ?_)
      (patchByte_confined hlast _ _ _))
    rw [bytesBE_length] at hhi
    exact hW x (by omega) (by omega)

/-- Opening a window writes no byte outside it, and what it leaves inside is what was there or 0 (R79). -/
theorem initWindow_confined (mode : Mode) {base len : Word}
    (hW : ∀ a, W a ↔ base.toNat ≤ a ∧ a < base.toNat + len.toNat) :
    Confined W fun m => .ok (m.initWindow mode base len) := by
  cases mode with
  | decode => exact confined_ok
  | encode =>
    constructor
    · rintro m _ hm ⟨⟩
      refine ⟨Memory.zeroFill_wf hm _ _, fun a ha => ?_⟩
      rw [Memory.initWindow_encode, Memory.read_zeroFill, if_neg ((hW a).not.1 ha)]
    · rintro m m' _ hm ⟨⟩
      refine ⟨_, rfl, Memory.zeroFill_wf hm.wf _ _, Memory.zeroFill_wf hm.wf' _ _, hm.size_eq, fun a ha => ?_⟩
      simp only [Memory.initWindow_encode, Memory.read_zeroFill, hm.read_eq a ha]

/-! #### Outcomes -/

/-- Going on with MEM as it is and registers that do not depend on it. -/
theorem OutConfined.next {g : Memory → State} (hmem : ∀ m, (g m).mem = m := by exact fun _ => rfl)
    (hregs : ∀ m m', g m' = { g m with mem := m' } := by exact fun _ _ => rfl) :
    OutConfined W fun m => .next (g m) where
  keeps := by rintro m _ - ⟨⟩ a -; rw [hmem]
  alike := by
    rintro m m' _ hm ⟨⟩
    refine ⟨g m', rfl, by rw [hmem m']; exact hregs m m', fun a ha => ?_⟩
    rw [hmem, hmem, hm.read_eq a ha]

/-- A check that does not depend on MEM. -/
theorem OutConfined.ite {p : Prop} [Decidable p] {f g : Memory → Out} (hf : p → OutConfined W f)
    (hg : ¬ p → OutConfined W g) : OutConfined W fun m => if p then f m else g m := by
  by_cases hp : p
  · simpa only [hp, if_true] using hf hp
  · simpa only [hp, if_false] using hg hp

/-- A check of MEM's size, which is no byte of it. -/
theorem OutConfined.iteSize {p : Nat → Prop} [DecidablePred p] {f g : Memory → Out} (hf : OutConfined W f)
    (hg : OutConfined W g) : OutConfined W fun m => if p m.size then f m else g m where
  keeps := by
    intro m t hm h
    split at h
    · exact hf.keeps hm h
    · exact hg.keeps hm h
  alike := by
    intro m m' t hm h
    rw [hm.size_eq]
    split at h
    · next hp => rw [if_pos hp]; exact hf.alike hm h
    · next hp => rw [if_neg hp]; exact hg.alike hm h

/-- A read inside W, and then an outcome confined to W whatever was read. -/
theorem OutConfined.afterRead {α : Type} {r : Memory → Except Fault α} {k : α → Memory → Out} (hr : ReadsWithin W r)
    (hk : ∀ x, OutConfined W (k x)) : OutConfined W fun m => orFault (r m) fun x => k x m where
  keeps := by
    intro m t hm h
    obtain ⟨x, -, hx⟩ := orFault_next h
    exact (hk x).keeps hm hx
  alike := by
    intro m m' t hm h
    obtain ⟨x, hrx, hx⟩ := orFault_next h
    obtain ⟨t', hx', ht⟩ := (hk x).alike hm hx
    exact ⟨t', by rw [hr m m' hm, hrx]; exact hx', ht⟩

/-- A memory operation confined to W, and then an outcome confined to W that sees MEM only as the operation left it. -/
theorem OutConfined.afterWrite {g : Memory → Except Fault Memory} {k : Memory → Memory → Out} (hg : Confined W g)
    (hk : ∀ m, OutConfined W (k m)) (hold : ∀ m m', k m' = k m := by exact fun _ _ => rfl) :
    OutConfined W fun m => orFault (g m) (k m) where
  keeps := by
    intro m t hm h a ha
    obtain ⟨m₁, h₁, ht⟩ := orFault_next h
    obtain ⟨hwf, hout⟩ := hg.keeps hm h₁
    exact ((hk m).keeps hwf ht a ha).trans (hout a ha)
  alike := by
    intro m m' t hm h
    obtain ⟨m₁, h₁, ht⟩ := orFault_next h
    obtain ⟨m₁', h₁', hm₁⟩ := hg.alike hm h₁
    obtain ⟨t', ht', heq⟩ := (hk m).alike hm₁ ht
    exact ⟨t', by rw [h₁', hold m m']; exact ht', heq⟩

/-! #### The shared operations, on a state whose window lies in W -/

variable {s : State}

/-- A Byte Stream command is ILLEGAL, or goes on by its rule (R150): `requireBY` on a state over any memory. -/
theorem OutConfined.ifBY (s : State) {f : Memory → Out} (hf : OutConfined W f) :
    OutConfined W fun m => if s.byteCtx.valid = true then f m else .next (s.withMem m).illegal :=
  .ite (fun _ => hf) fun _ => .next

/-- A Bit Stream command is ILLEGAL, or goes on by its rule (R200): `requireBT` on a state over any memory. -/
theorem OutConfined.ifBT (s : State) {f : Memory → Out} (hf : OutConfined W f) :
    OutConfined W fun m => if s.bitCtx.valid = true then f m else .next (s.withMem m).illegal :=
  .ite (fun _ => hf) fun _ => .next

section byteStream

variable (hW : ∀ a, s.byteCtx.covers a → W a)
include hW

/-- The bytes of the window from an offset on, up to its end. -/
theorem covered_byteAddr {off k : Nat} (hfit : off + k ≤ s.byteCtx.len.toNat) (x : Nat) (hlo : byteAddr s off ≤ x)
    (hhi : x < byteAddr s off + k) : W x := by
  simp only [byteAddr] at hlo hhi
  exact hW x ⟨by omega, by omega⟩

theorem seqGet_confined (k : Nat) : OutConfined W fun m => seqGet k (s.withMem m) :=
  .ite (p := s.byteCtx.cur.toNat + k ≤ s.byteCtx.len.toNat)
    (fun hfit => .afterRead (readBytes_readsWithin (covered_byteAddr hW hfit)) fun _ => .next) fun _ => .next

theorem seqSet_confined (hcur : s.byteCtx.cur.toNat ≤ s.byteCtx.len.toNat) (k v : Nat) :
    OutConfined W fun m => seqSet k v (s.withMem m) := by
  have hlen : ((bytesBE k v).take (s.byteCtx.len.toNat - s.byteCtx.cur.toNat)).length
      ≤ s.byteCtx.len.toNat - s.byteCtx.cur.toNat := List.length_take_le _ _
  have hwrite : Confined W (writeBytes · (byteAddr s s.byteCtx.cur.toNat)
      ((bytesBE k v).take (s.byteCtx.len.toNat - s.byteCtx.cur.toNat))) :=
    writeBytes_confined (covered_byteAddr hW (by omega))
  exact .afterWrite hwrite fun _ =>
    .ite (p := s.byteCtx.cur.toNat + k ≤ s.byteCtx.len.toNat) (fun _ => .next) fun _ => .next

theorem posGet_confined (k pos : Nat) : OutConfined W fun m => posGet k pos (s.withMem m) :=
  .ite (p := s.byteCtx.len.toNat < pos + k) (fun _ => .next) fun hfit =>
    .afterRead (readBytes_readsWithin (covered_byteAddr hW (not_lt.1 hfit))) fun _ => .next

theorem posSet_confined (k pos v : Nat) : OutConfined W fun m => posSet k pos v (s.withMem m) :=
  .ite (p := s.byteCtx.len.toNat < pos + k) (fun _ => .next) fun hfit =>
    .afterWrite (writeBytes_confined (covered_byteAddr hW (by rw [bytesBE_length]; exact not_lt.1 hfit)))
      fun _ => .next

/-- The byte before a cursor that is not 0 is in the window (R162). -/
theorem execBySetByteSlice_confined (hcur : s.byteCtx.cur.toNat ≤ s.byteCtx.len.toNat) (b e : Nat) (v : Word) :
    OutConfined W fun m => execBySetByteSlice b e v (s.withMem m) := by
  refine .ifBY s (.ite (p := s.byteCtx.cur = 0) (fun _ => .next) fun hzero => ?_)
  have hpos : s.byteCtx.cur.toNat ≠ 0 := fun h => hzero (BitVec.eq_of_toNat_eq h)
  have hcovered : W (byteAddr s (s.byteCtx.cur.toNat - 1)) :=
    covered_byteAddr hW (k := 1) (by omega) _ le_rfl (by omega)
  exact .afterWrite (patchByte_confined hcovered b e v.toNat) fun _ => .next

end byteStream

section bitStream

variable (hW : ∀ a, s.bitCtx.covers a → W a)
include hW

/-- The bytes of a field that ends inside the window. -/
theorem covered_field {p n : Nat} (hn : 1 ≤ n) (hfit : p + n ≤ s.bitCtx.bitLen) (x : Nat)
    (hlo : s.bitCtx.base.toNat + p / 8 ≤ x) (hhi : x ≤ s.bitCtx.base.toNat + (p + n - 1) / 8) : W x := by
  simp only [Context.bitLen] at hfit
  exact hW x ⟨by omega, by omega⟩

theorem bitGet_confined (n p : Nat) (after : Context) : OutConfined W fun m => bitGet n p after (s.withMem m) := by
  unfold bitGet
  cases hcheck : getFailure n p s.bitCtx.bitLen with
  | some e => simp only [State.withMem_bitCtx, hcheck]; exact .next
  | none =>
    obtain ⟨hn, -, hfit⟩ := getFailure_none.1 hcheck
    simp only [State.withMem_bitCtx, hcheck]
    exact .afterRead (fieldGet_readsWithin (covered_field hW hn hfit) hn) fun _ => .next

theorem bitSet_confined (n p v : Nat) (after : Context) :
    OutConfined W fun m => bitSet n p v after (s.withMem m) := by
  unfold bitSet
  cases hcheck : setFailure n p s.bitCtx.bitLen with
  | some e => simp only [State.withMem_bitCtx, hcheck]; exact .next
  | none =>
    obtain ⟨hn, -, hfit⟩ := setFailure_none.1 hcheck
    simp only [State.withMem_bitCtx, hcheck]
    exact .afterWrite (fieldSet_confined (covered_field hW hn hfit) hn v) fun _ => .next

end bitStream

/-! #### The commands -/

/-- Going on with the new window opened, which is W, and registers that do not depend on MEM (R151, R201). -/
theorem next_initWindow_confined (mode : Mode) {base len : Word}
    (hW : ∀ a, W a ↔ base.toNat ≤ a ∧ a < base.toNat + len.toNat) (u : State) :
    OutConfined W fun m => .next { u with mem := m.initWindow mode base len } :=
  .afterWrite (initWindow_confined mode hW) (k := fun _ m₁ => .next { u with mem := m₁ }) fun _ => .next

theorem execByInit_confined (mode : Mode) (base len : Word) :
    OutConfined (inWindow (.byInit mode base len) s) fun m => execByInit mode base len (s.withMem m) :=
  .iteSize (p := fun size => decide (base.toNat + len.toNat ≤ size) = true)
    (next_initWindow_confined mode (fun _ => Iff.rfl) { s.accept with byteCtx := Context.bound base len }) .next

theorem execBtInit_confined (mode : Mode) (base len : Word) :
    OutConfined (inWindow (.btInit mode base len) s) fun m => execBtInit mode base len (s.withMem m) :=
  .iteSize (p := fun size => decide (base.toNat + len.toNat ≤ size) = true ∧ len.toNat ≤ Config.maxBitCap)
    (next_initWindow_confined mode (fun _ => Iff.rfl) { s.accept with bitCtx := Context.bound base len }) .next

/-- A handoff binds BT and touches no byte of MEM (R171). -/
theorem execByGetBitStream_confined (n : Word) : OutConfined W fun m => execByGetBitStream n (s.withMem m) := by
  have hbind (m : Memory) : bindBitStream (byteAddr s s.byteCtx.cur.toNat) n (s.withMem m).accept
      = (bindBitStream (byteAddr s s.byteCtx.cur.toNat) n s.accept).withMem m := by
    unfold bindBitStream
    split <;> rfl
  have hgo : OutConfined W fun m => .next (bindBitStream (byteAddr s s.byteCtx.cur.toNat) n (s.withMem m).accept) := by
    simp only [hbind]
    exact .next
  exact .ite (p := s.byteCtx.valid ∧ s.byteCtx.cur.toNat + n.toNat ≤ s.byteCtx.len.toNat ∧ n.toNat ≤ Config.maxBitCap)
    (fun _ => hgo) fun _ => .next

end window

variable {i : Instr} {s : State}

/-- The window of a Byte Stream command other than BY_INIT is BY's (R61). -/
theorem inWindow_of_byteCtx_covers (hop : 0x11 ≤ op i ∧ op i ≤ 0x24) {a : Nat}
    (ha : s.byteCtx.covers a) : inWindow i s a := by
  obtain ⟨hlo, hhi⟩ := hop
  unfold inWindow
  split
  · exact absurd hlo (by simp [op, Instr.opcode])
  · exact absurd hhi (by simp [op, Instr.opcode])
  · exact .inl ⟨hlo, hhi, ha⟩

/-- The window of a Bit Stream command other than BT_INIT is BT's (R61). -/
theorem inWindow_of_bitCtx_covers (hop : 0x31 ≤ op i ∧ op i ≤ 0x3B) {a : Nat}
    (ha : s.bitCtx.covers a) : inWindow i s a := by
  obtain ⟨hlo, hhi⟩ := hop
  unfold inWindow
  split
  · exact absurd hlo (by simp [op, Instr.opcode])
  · exact absurd hlo (by simp [op, Instr.opcode])
  · exact .inr ⟨hlo, hhi, ha⟩

/-- Every command is confined to its window (R62). -/
theorem exec_confined (i : Instr) (hs : s.Inv) : OutConfined (inWindow i s) fun m => exec i (s.withMem m) := by
  have hcur : s.byteCtx.cur.toNat ≤ s.byteCtx.len.toNat := hs.byteCursor.1
  have hby (hop : 0x11 ≤ op i ∧ op i ≤ 0x24 := by simp [op, Instr.opcode]) (a : Nat) (ha : s.byteCtx.covers a) :
    inWindow i s a := inWindow_of_byteCtx_covers hop ha
  have hbt (hop : 0x31 ≤ op i ∧ op i ≤ 0x3B := by simp [op, Instr.opcode]) (a : Nat) (ha : s.bitCtx.covers a) :
    inWindow i s a := inWindow_of_bitCtx_covers hop ha
  cases i with
  | slGetByteSlice _ _ _ | slSetByteSlice _ _ _ _ | slGetShortSlice _ _ _ | slGetIntSlice _ _ _ => exact .next
  | byInit _ _ _ => exact execByInit_confined _ _ _
  | btInit _ _ _ => exact execBtInit_confined _ _ _
  | byGetBitStream _ => exact execByGetBitStream_confined _
  | byForward _ | byBack _ | byGetPos | byGetError | byGetLength | byGetBuffer => exact .ifBY s .next
  | btForward _ | btBack _ | btGetPos | btGetBytePos | btGetError | btGetLength | btGetBuffer => exact .ifBT s .next
  | byGetByte | byGetWord | byGetDword =>
    exact .ifBY s (seqGet_confined (s := s.accept) hby _)
  | bySetByte _ | bySetWord _ | bySetDword _ =>
    exact .ifBY s (seqSet_confined (s := s.accept) hby hcur _ _)
  | bySetByteSlice _ _ _ => exact execBySetByteSlice_confined hby hcur _ _ _
  | byGetByteByPos _ | byGetWordByPos _ | byGetDwordByPos _ =>
    exact .ifBY s (posGet_confined (s := s.accept) hby _ _)
  | bySetByteByPos _ _ | bySetWordByPos _ _ | bySetDwordByPos _ _ =>
    exact .ifBY s (posSet_confined (s := s.accept) hby _ _ _)
  | btGetBit n =>
    exact .ifBT s (bitGet_confined (s := s.accept) hbt n s.bitCtx.cur.toNat
      (s.bitCtx.moveTo (s.bitCtx.cur.toNat + n)))
  | btSetBit n v =>
    exact .ifBT s (bitSet_confined (s := s.accept) hbt n s.bitCtx.cur.toNat v.toNat
      (s.bitCtx.moveTo (s.bitCtx.cur.toNat + n)))
  | btGetBitByPos _ _ => exact .ifBT s (bitGet_confined (s := s.accept) hbt _ _ _)
  | btSetBitByPos _ _ _ => exact .ifBT s (bitSet_confined (s := s.accept) hbt _ _ _ _)

/-- Settles O44: the write half of `exec_confined`. -/
theorem commandsWriteOnlyTheirWindow : Obligations.CommandsWriteOnlyTheirWindow := by
  intro i s t a hs h ha
  exact (exec_confined i hs).keeps hs.mem_wf h a ha

/-- Settles O45: the read half of `exec_confined`. -/
theorem commandsReadOnlyTheirWindow : Obligations.CommandsReadOnlyTheirWindow := by
  intro i s t m hs hm hsize hread h
  exact (exec_confined i hs).alike ⟨hs.mem_wf, hm, hsize, hread⟩ h

end Sys2Proof.Machine

/-! ### The host's write (R69, R74) -/

namespace Sys2Proof.Machine

/-- Settles O11: the host's write is a plain write of MEM. -/
theorem hostWriteChangesOneByte : Obligations.HostWriteChangesOneByte := by
  refine ⟨fun s addr v rest hmem hhost => ?_, fun s hidle => by simp [step, hidle]⟩
  have hstep : step s = hostWrite addr v { s with host := rest } := step_of_host_cons hhost
  split
  · next hin => exact ⟨_, hstep.trans (if_pos hin), rfl, fun a => Memory.read_write hmem addr.toNat a v⟩
  · next hout => exact hstep.trans (if_neg hout)

end Sys2Proof.Machine

/-! ### One word seen through both contexts (R65, R72)

A word set writes two bytes of MEM (`posSet_of_fits`); a byte get answers one of them (`posGet_byte_of_fits`), and an
aligned 16-bit field is both (`fieldGet_alignedWord`). -/

namespace Sys2Proof.Machine

variable {s : State}

/-- The bytes of BY's window are in MEM (R36). -/
theorem State.Inv.byteAddr_add_le (hs : s.Inv) (hvalid : s.byteCtx.valid = true) {pos k : Nat}
    (hfit : pos + k ≤ s.byteCtx.len.toNat) : byteAddr s pos + k ≤ s.mem.size := by
  obtain ⟨-, -, hwindow⟩ := hs.byteInv
  have := hwindow hvalid
  simp only [byteAddr]
  omega

/-- PosSet of a value that fits the window stores its k bytes from the position on (R63, R167). -/
theorem posSet_of_fits (hs : s.Inv) (hvalid : s.byteCtx.valid = true) {k pos : Nat}
    (hfit : pos + k ≤ s.byteCtx.len.toNat) (v : Nat) :
    ∃ m, posSet k pos v s = .next { s with mem := m } ∧ m.size = s.mem.size
      ∧ ∀ j < k, m.read (byteAddr s pos + j) = byteOf k v j := by
  obtain ⟨m, hwrite, hsize, -, hread⟩ := writeBytes_ok hs.mem_wf (a := byteAddr s pos) (bs := bytesBE k v)
    (by rw [bytesBE_length]; exact hs.byteAddr_add_le hvalid hfit)
  refine ⟨m, by rw [posSet, if_neg (by omega), hwrite]; rfl, hsize, fun j hj => ?_⟩
  rw [hread, dif_pos (by rw [bytesBE_length]; omega)]
  simp [bytesBE]

/-- PosGet of one byte of the window answers it (R164). -/
theorem posGet_byte_of_fits (hs : s.Inv) (hvalid : s.byteCtx.valid = true) {pos : Nat}
    (hfit : pos + 1 ≤ s.byteCtx.len.toNat) :
    posGet 1 pos s = .next { s with result := zext32 (s.mem.read (byteAddr s pos)).toNat } := by
  rw [posGet, if_neg (by omega), readBytes_ok (hs.byteAddr_add_le hvalid hfit)]
  simp [foldBE]

/-- GetByteSlice of all eight bits is the byte (R123). -/
theorem getByteSlice_whole (x : Byte) : getByteSlice x 7 0 = x := by
  refine BitVec.eq_of_toNat_eq ?_
  rw [getByteSlice_toNat, Nat.max_zero, Nat.min_self, Nat.min_zero, pow_zero, Nat.div_one]
  exact Nat.mod_eq_of_lt x.isLt

/-- A 16-bit field at a byte boundary is its two bytes, the first more significant (R207). -/
theorem fieldGet_alignedWord {m : Memory} {base o : Nat} (hin : base + o + 2 ≤ m.size) :
    fieldGet m base (8 * o) 16 = .ok ((m.read (base + o)).toNat * 256 + (m.read (base + o + 1)).toNat) := by
  have hfirst : 8 * o / 8 = o := by omega
  have hlast : (8 * o + 16 - 1) / 8 = o + 1 := by omega
  have hmod : 8 * o % 8 = 0 := by omega
  have hmod' : (8 * o + 16 - 1) % 8 = 7 := by omega
  have hor : (m.read (base + o)).toNat <<< 8 ||| (m.read (base + o + 1)).toNat
      = (m.read (base + o)).toNat * 256 + (m.read (base + o + 1)).toNat := by
    rw [← Nat.shiftLeft_add_eq_or_of_lt (m.read (base + o + 1)).isLt, Nat.shiftLeft_eq]
  rw [fieldGet, hfirst, hlast, hmod, hmod', memRead_ok (by omega), memRead_ok (by omega)]
  simpa [bind, Except.bind, pure, Except.pure, readBytes, foldBE, getByteSlice_whole, Nat.add_assoc] using hor

/-- A get of an aligned word inside BT's window answers its two bytes (R212). -/
theorem execBtGetBitByPos_alignedWord (hs : s.Inv) (hvalid : s.bitCtx.valid = true) {o : Nat} {q : Word}
    (hq : q.toNat = 8 * o) (hfit : o + 2 ≤ s.bitCtx.len.toNat) :
    ∃ u, execBtGetBitByPos 16 q s = .next u ∧ u.result.toNat
      = (s.mem.read (s.bitCtx.base.toNat + o)).toNat * 256 + (s.mem.read (s.bitCtx.base.toNat + o + 1)).toNat := by
  obtain ⟨-, -, -, hwindow⟩ := hs.bitInv
  have hin : s.bitCtx.base.toNat + o + 2 ≤ s.mem.size := by have := hwindow hvalid; omega
  have hpass : getFailure 16 (8 * o) s.bitCtx.bitLen = none :=
    getFailure_none.2 ⟨by decide, by decide, by simp only [Context.bitLen]; omega⟩
  have hlo := (s.mem.read (s.bitCtx.base.toNat + o)).isLt
  have hhi := (s.mem.read (s.bitCtx.base.toNat + o + 1)).isLt
  rw [execBtGetBitByPos, requireBT_of_valid hvalid, hq, bitGet, State.accept_bitCtx, hpass]
  simp only [State.accept_mem, fieldGet_alignedWord hin, orFault_ok]
  exact ⟨_, rfl, zext32_toNat_of_lt (by omega)⟩

/-- A get of one byte inside BY's window answers it (R164). -/
theorem execByGetByteByPos_of_fits (hs : s.Inv) (hvalid : s.byteCtx.valid = true) {pos : Word}
    (hfit : pos.toNat + 1 ≤ s.byteCtx.len.toNat) :
    ∃ u, execByGetByteByPos pos s = .next u ∧ u.result.toNat = (s.mem.read (byteAddr s pos.toNat)).toNat := by
  have hget := posGet_byte_of_fits hs.accept hvalid hfit
  rw [execByGetByteByPos, requireBY_of_valid hvalid, hget]
  exact ⟨_, rfl, zext32_toNat_of_lt ((BitVec.isLt _).trans (by decide))⟩

/-- The two bytes of a word, the more significant first (R63). -/
theorem byteOf_lowShort (v : Word) :
    (byteOf 2 (lowShort v).toNat 0).toNat = v.toNat / 256 % 256
      ∧ (byteOf 2 (lowShort v).toNat 1).toNat = v.toNat % 256 := by
  have hshort : (lowShort v).toNat = v.toNat % 2 ^ 16 := by simp [lowShort]
  simp only [byteOf, hshort, BitVec.toNat_ofNat, Nat.shiftRight_eq_div_pow]
  omega

/-- Settles O40: the two bytes the word set leaves in MEM are what both gets see. -/
theorem bothContextsSeeTheSameBytes : Obligations.BothContextsSeeTheSameBytes := by
  intro o o' q v s hs hby hbt hbase hlen hfit ho' hq
  obtain ⟨m, hset, -, hread⟩ := posSet_of_fits hs.accept hby hfit (lowShort v).toNat
  have hexec : exec (.bySetWordByPos o v) s = .next { s.accept with mem := m } :=
    (requireBY_of_valid hby _).trans hset
  have hinv : State.Inv { s.accept with mem := m } := exec_keepsInv _ _ _ hs hexec
  have hfirst : (m.read (s.byteCtx.base.toNat + o.toNat)).toNat = v.toNat / 256 % 256 :=
    (congrArg BitVec.toNat (hread 0 (by decide))).trans (byteOf_lowShort v).1
  have hsecond : (m.read (s.byteCtx.base.toNat + o.toNat + 1)).toNat = v.toNat % 256 :=
    (congrArg BitVec.toNat (hread 1 (by decide))).trans (byteOf_lowShort v).2
  refine ⟨_, hexec, ?high, ?low, ?field⟩
  case high =>
    obtain ⟨u, hu, hr⟩ := execByGetByteByPos_of_fits (pos := o) hinv hby (Nat.le_of_succ_le hfit)
    exact ⟨u, hu, hr.trans hfirst⟩
  case low =>
    obtain ⟨u, hu, hr⟩ := execByGetByteByPos_of_fits (pos := o') hinv hby (by rw [ho']; exact hfit)
    rw [ho'] at hr
    exact ⟨u, hu, hr.trans hsecond⟩
  case field =>
    obtain ⟨u, hu, hr⟩ := execBtGetBitByPos_alignedWord hinv hbt hq (by rw [← hlen] at hfit; exact hfit)
    simp only [State.accept_bitCtx, hbase, hfirst, hsecond] at hr
    exact ⟨u, hu, by omega⟩

end Sys2Proof.Machine

/-! ### The encoding (R91 to R98): the command word, its fields and its row

A command decodes by the row of its OP and by its other fields. Both directions rest on two facts: where RSV is 0 the
fields and the word determine each other (`cmdFields_packCmd`, `packCmd_cmdFields`), and what a row builds has the row's
opcode and just the fields the row uses (`build_opcode`, `build_fields`). -/

namespace Sys2Proof

/-- N, BEGIN, END and M of a command word together (R91). -/
def cmdFields (cmd : Word) : CmdFields := ⟨cmdN cmd, cmdBegin cmd, cmdEnd cmd, cmdMode cmd⟩

/-- The fields a row uses, the others 0 (R95). -/
def FieldUse.cut : FieldUse → CmdFields → CmdFields
  | .bare, _ => {}
  | .slice, f => { ixBegin := f.ixBegin, ixEnd := f.ixEnd }
  | .mode, f => { mode := f.mode }
  | .width, f => { n := f.n }

/-- The numbers fit the widths of N, BEGIN and END (R91). -/
def CmdFields.Fits (f : CmdFields) : Prop := f.n < 2 ^ 8 ∧ f.ixBegin < 2 ^ 5 ∧ f.ixEnd < 2 ^ 5

/-! #### The command word and its fields -/

theorem cmdFields_fits (cmd : Word) : (cmdFields cmd).Fits := ⟨BitVec.isLt _, BitVec.isLt _, BitVec.isLt _⟩

/-- Fields that fit are read back as they were packed (R91). -/
theorem cmdFields_packCmd (op : Byte) {f : CmdFields} (hf : f.Fits) : cmdFields (packCmd op f) = f := by
  obtain ⟨hn, hb, he⟩ := hf
  simp only [cmdFields, cmdN_packCmd, cmdBegin_packCmd, cmdEnd_packCmd, cmdMode_packCmd, Nat.mod_eq_of_lt hn,
    Nat.mod_eq_of_lt hb, Nat.mod_eq_of_lt he]

/-- Fields that fit weigh what their places in CMD say (R91). -/
theorem packCmd_eq_ofNat (op : Byte) {f : CmdFields} (hf : f.Fits) :
    packCmd op f = BitVec.ofNat 32
      (op.toNat + f.n * 2 ^ 8 + f.ixBegin * 2 ^ 16 + f.ixEnd * 2 ^ 21 + f.mode.bit.toNat * 2 ^ 26) := by
  obtain ⟨hn, hb, he⟩ := hf
  apply BitVec.eq_of_toNat_eq
  rw [BitVec.toNat_ofNat, packCmd_toNat]
  have := op.isLt
  have := f.mode.bit_lt
  omega

theorem cmdMode_bit (cmd : Word) : (cmdMode cmd).bit.toNat = cmd.toNat / 2 ^ 26 % 2 ^ 1 := by
  rw [cmdMode_eq]
  split
  · next h => exact h.symm
  · next h => exact (Nat.mod_two_ne_one.1 h).symm

/-- A command word with RSV = 0 is its OP and its fields packed again (R91). -/
theorem packCmd_cmdFields {cmd : Word} (hrsv : cmdRsv cmd = 0) : packCmd (cmdOp cmd) (cmdFields cmd) = cmd := by
  apply BitVec.eq_of_toNat_eq
  rw [cmdRsv_eq] at hrsv
  rw [packCmd_toNat]
  simp only [cmdFields, cmdOp_toNat, cmdN_eq, cmdBegin_eq, cmdEnd_eq, cmdMode_bit]
  have := cmd.isLt
  omega

/-- The check of R95: RSV is 0, and the word's fields are none but those the row uses. -/
theorem unusedFieldsZero_iff {uses : FieldUse} {cmd : Word} :
    unusedFieldsZero uses cmd = true ↔ cmdRsv cmd = 0 ∧ cmdFields cmd = uses.cut (cmdFields cmd) := by
  cases uses <;> simp [unusedFieldsZero, FieldUse.cut, cmdFields, and_assoc]

/-- The assembler's check on an instruction is that its fields fit (R91, R99). -/
theorem Instr.wf_iff_fits (i : Instr) : i.wf = true ↔ i.fields.Fits := by
  cases i <;> simp [Instr.wf, Instr.fields, CmdFields.Fits, indexFits, widthFits]

/-! #### From an instruction to its command and back -/

section packed

variable {op : Byte} {x y : Word} {i : Instr} {r : OpRow}

/-- Fields that fit, none of them unused, decode to what the row of their OP makes of them (R98). -/
theorem decode_packCmd {f : CmdFields} (hf : f.Fits) (hrow : rowOf op = some r) (hcut : f = r.uses.cut f)
    (hbuild : ∀ cmd, cmdFields cmd = f → r.build ⟨cmd, x, y⟩ = i) : decode ⟨packCmd op f, x, y⟩ = .instr i := by
  have hfields : cmdFields (packCmd op f) = f := cmdFields_packCmd op hf
  have hunused : unusedFieldsZero r.uses (packCmd op f) = true :=
    unusedFieldsZero_iff.2 ⟨cmdRsv_packCmd op f, by rwa [hfields]⟩
  rw [← hbuild _ hfields]
  exact decode_of_row (by rwa [cmdOp_packCmd]) hunused

/-- `decode_packCmd` for a row that uses BEGIN and END. -/
theorem decode_packCmd_slice {b e : Nat} (hf : CmdFields.Fits { ixBegin := b, ixEnd := e }) (hrow : rowOf op = some r)
    (huses : r.uses = .slice) (hbuild : ∀ cmd, cmdBegin cmd = b → cmdEnd cmd = e → r.build ⟨cmd, x, y⟩ = i) :
    decode ⟨packCmd op { ixBegin := b, ixEnd := e }, x, y⟩ = .instr i :=
  decode_packCmd hf hrow (by rw [huses]; rfl) fun cmd h =>
    hbuild cmd (congrArg CmdFields.ixBegin h) (congrArg CmdFields.ixEnd h)

/-- `decode_packCmd` for a row that uses N. -/
theorem decode_packCmd_width {n : Nat} (hf : CmdFields.Fits { n := n }) (hrow : rowOf op = some r)
    (huses : r.uses = .width) (hbuild : ∀ cmd, cmdN cmd = n → r.build ⟨cmd, x, y⟩ = i) :
    decode ⟨packCmd op { n := n }, x, y⟩ = .instr i :=
  decode_packCmd hf hrow (by rw [huses]; rfl) fun cmd h => hbuild cmd (congrArg CmdFields.n h)

end packed

/-- Settles O3: by the fields its row uses, the row of each instruction gives back the fields the encoder packed. -/
theorem decodeOfEncodeIsInstruction : Obligations.DecodeOfEncodeIsInstruction := by
  intro i hwf
  have hf : i.fields.Fits := i.wf_iff_fits.1 hwf
  cases i with
  | slGetByteSlice _ _ _ | slSetByteSlice _ _ _ _ | slGetShortSlice _ _ _ | slGetIntSlice _ _ _
  | bySetByteSlice _ _ _ => exact decode_packCmd_slice hf rfl rfl (by rintro _ rfl rfl; rfl)
  | btGetBit _ | btSetBit _ _ | btGetBitByPos _ _ | btSetBitByPos _ _ _ =>
    exact decode_packCmd_width hf rfl rfl (by rintro _ rfl; rfl)
  | byInit _ _ _ | btInit _ _ _ =>
    refine decode_packCmd hf rfl rfl fun _ h => ?_
    obtain ⟨-, -, -, rfl⟩ := CmdFields.mk.inj h
    rfl
  | byForward _ | byBack _ | byGetByte | byGetWord | byGetDword | bySetByte _ | bySetWord _ | bySetDword _
  | byGetByteByPos _ | byGetWordByPos _ | byGetDwordByPos _
  | bySetByteByPos _ _ | bySetWordByPos _ _ | bySetDwordByPos _ _
  | byGetBitStream _ | byGetPos | byGetError | byGetLength | byGetBuffer
  | btForward _ | btBack _ | btGetPos | btGetBytePos | btGetError | btGetLength | btGetBuffer =>
    exact decode_packCmd hf rfl rfl fun _ _ => rfl

/-- Settles O2: the words with free fields are packed ones; the others are literals, whose row and fields are computed. -/
theorem eachRowDecodesToItsInstruction : Obligations.EachRowDecodesToItsInstruction := by
  refine ⟨fun b e x y hb he => ?slices, fun x y => ?bytes, fun x y => ?bits, fun n x y hn => ?widths⟩
  case slices =>
    have hf : CmdFields.Fits { ixBegin := b, ixEnd := e } := ⟨Nat.two_pow_pos 8, hb, he⟩
    have hcmd (k : Nat) (hk : k < 256) :
        BitVec.ofNat 32 (k + b * 2 ^ 16 + e * 2 ^ 21) = packCmd (.ofNat 8 k) { ixBegin := b, ixEnd := e } := by
      simpa [Mode.bit, Nat.mod_eq_of_lt hk] using (packCmd_eq_ofNat (.ofNat 8 k) hf).symm
    rw [hcmd 0x01 (by decide), hcmd 0x02 (by decide), hcmd 0x03 (by decide), hcmd 0x04 (by decide),
      hcmd 0x19 (by decide)]
    refine ⟨?_, ?_, ?_, ?_, ?_⟩ <;> exact decode_packCmd_slice hf rfl rfl (by rintro _ rfl rfl; rfl)
  case widths =>
    have hf : CmdFields.Fits { n := n } := ⟨hn, Nat.two_pow_pos 5, Nat.two_pow_pos 5⟩
    have hcmd (k : Nat) (hk : k < 256) : BitVec.ofNat 32 (k + n * 2 ^ 8) = packCmd (.ofNat 8 k) { n := n } := by
      simpa [Mode.bit, Nat.mod_eq_of_lt hk] using (packCmd_eq_ofNat (.ofNat 8 k) hf).symm
    rw [hcmd 0x33 (by decide), hcmd 0x34 (by decide), hcmd 0x35 (by decide), hcmd 0x36 (by decide)]
    refine ⟨?_, ?_, ?_, ?_⟩ <;> exact decode_packCmd_width hf rfl rfl (by rintro _ rfl; rfl)
  case bytes => simp [decode, unusedFieldsZero, cmdOp, cmdN, cmdBegin, cmdEnd, cmdMode, cmdRsv]
  case bits => simp [decode, unusedFieldsZero, cmdOp, cmdN, cmdBegin, cmdEnd, cmdMode, cmdRsv]

/-! #### From a command to its instruction and back -/

section rows

variable {r : OpRow} (hr : r ∈ opTable) (c : Command)

include hr

theorem build_opcode : (r.build c).opcode = r.op := by
  revert r
  simp [opTable, sliceRows, byteRows, bitRows, Instr.opcode]

/-- A row takes the fields it uses from CMD (R94). -/
theorem build_fields : (r.build c).fields = r.uses.cut (cmdFields c.cmd) := by
  revert r
  simp [opTable, sliceRows, byteRows, bitRows, Instr.fields, FieldUse.cut, cmdFields]

/-- A row takes an operand word from the command, or names none, which encodes as 0 (R94, R99). -/
theorem build_operands : ((r.build c).operands.1 = c.opa ∨ (r.build c).operands.1 = 0)
    ∧ ((r.build c).operands.2 = c.opb ∨ (r.build c).operands.2 = 0) := by
  revert r
  simp [opTable, sliceRows, byteRows, bitRows, Instr.operands]

end rows

/-- Settles O4: the decoded instruction has the command's OP and all its fields, so packing them gives CMD again. -/
theorem decodedCommandReencodes : Obligations.DecodedCommandReencodes := by
  intro c i h
  obtain ⟨r, hrow, hunused, rfl⟩ := decode_instr h
  obtain ⟨hmem, hop⟩ := rowOf_some hrow
  obtain ⟨hrsv, hcut⟩ := unusedFieldsZero_iff.1 hunused
  have hopcode : (r.build c).opcode = cmdOp c.cmd := (build_opcode hmem c).trans hop
  have hfields : (r.build c).fields = cmdFields c.cmd := (build_fields hmem c).trans hcut.symm
  refine ⟨(Instr.wf_iff_fits _).2 (hfields ▸ cmdFields_fits c.cmd), ?_, build_operands hmem c⟩
  rw [encode, hopcode, hfields, packCmd_cmdFields hrsv]

end Sys2Proof

namespace Sys2Proof.Machine

/-! #### Where a command decodes (R95, R96) -/

/-- The opcodes of the table are the ranges of R93. -/
theorem opTable_ops : opTable.map (fun r => r.op.toNat)
    = List.range' 0x01 4 ++ List.range' 0x10 21 ++ List.range' 0x30 12 := rfl

/-- An OP has a row exactly where R93 lists it. -/
theorem rowOf_isSome_iff (op : Byte) : (rowOf op).isSome ↔ opListed op.toNat := by
  have hrow : (rowOf op).isSome ↔ op.toNat ∈ opTable.map (fun r => r.op.toNat) := by
    simp [rowOf, BitVec.toNat_inj]
  rw [hrow, opTable_ops]
  simp only [List.mem_append, List.mem_range'_1, opListed]
  omega

/-- The fields a row uses are those R94 gives its opcode. -/
theorem uses_iff : ∀ r ∈ opTable, (r.uses = .slice ↔ opUsesSlice r.op.toNat)
    ∧ (r.uses = .mode ↔ opUsesMode r.op.toNat) ∧ (r.uses = .width ↔ opUsesWidth r.op.toNat) := by decide

theorem opNumber_eq (cmd : Word) : opNumber cmd = (cmdOp cmd).toNat := (cmdOp_toNat cmd).symm

theorem cmdMode_eq_decode_iff (cmd : Word) : cmdMode cmd = .decode ↔ cmdField cmd 26 1 = 0 := by
  rw [cmdField, ← cmdMode_bit]
  cases cmdMode cmd <;> simp [Mode.bit]

/-- The check of a command's own row is the condition of R95. -/
theorem unusedFieldsZero_iff_clear {r : OpRow} {cmd : Word} (hrow : rowOf (cmdOp cmd) = some r) :
    unusedFieldsZero r.uses cmd = true ↔ unusedFieldsClear cmd := by
  obtain ⟨hmem, hop⟩ := rowOf_some hrow
  obtain ⟨hslice, hmode, hwidth⟩ := uses_iff r hmem
  rw [hop, ← opNumber_eq] at hslice hmode hwidth
  simp only [unusedFieldsZero, Bool.and_eq_true, Bool.or_eq_true, decide_eq_true_eq, hslice, hmode, hwidth,
    cmdMode_eq_decode_iff, cmdN_eq, cmdBegin_eq, cmdEnd_eq, cmdRsv_eq, and_assoc]

/-- Settles O5: no row, a row with its check passed, or a row with its check failed; each clause says which it is. -/
theorem decodeAcceptsExactlyTheTable : Obligations.DecodeAcceptsExactlyTheTable := by
  intro c
  have hlisted : (rowOf (cmdOp c.cmd)).isSome ↔ opListed (opNumber c.cmd) := by
    rw [rowOf_isSome_iff, opNumber_eq]
  cases hrow : rowOf (cmdOp c.cmd) with
  | none =>
    have hno : ¬ opListed (opNumber c.cmd) := by simpa [hrow] using hlisted
    have hdecode := decode_of_no_row hrow
    exact ⟨iff_of_false (by simp [hdecode]) fun h => hno h.1, iff_of_true hdecode hno,
      iff_of_false (by simp [hdecode]) fun h => hno h.1⟩
  | some r =>
    have hyes : opListed (opNumber c.cmd) := by simpa [hrow] using hlisted
    have hclear := unusedFieldsZero_iff_clear hrow
    cases hunused : unusedFieldsZero r.uses c.cmd with
    | true =>
      obtain ⟨hmem, hop⟩ := rowOf_some hrow
      have hopcode : op (r.build c) = opNumber c.cmd := by rw [op, build_opcode hmem, hop, opNumber_eq]
      have hdecode := decode_of_row hrow hunused
      exact ⟨iff_of_true ⟨_, hdecode, hopcode⟩ ⟨hyes, hclear.1 hunused⟩, iff_of_false (by simp [hdecode]) (· hyes),
        iff_of_false (by simp [hdecode]) fun h => h.2 (hclear.1 hunused)⟩
    | false =>
      have hused : ¬ unusedFieldsClear c.cmd := fun h => by simp [hclear.2 h] at hunused
      have hdecode := decode_of_used_field hrow hunused
      exact ⟨iff_of_false (by simp [hdecode]) fun h => hused h.2, iff_of_false (by simp [hdecode]) (· hyes),
        iff_of_true hdecode ⟨hyes, hused⟩⟩

/-! #### Operands of which a command names the low bits (R92) -/

theorem lowByte_toNat (w : Word) : (lowByte w).toNat = w.toNat % 2 ^ 8 := by simp [lowByte]

theorem lowShort_toNat (w : Word) : (lowShort w).toNat = w.toNat % 2 ^ 16 := by simp [lowShort]

/-- Settles O6: each of the seven commands reads the operand only through its low byte or its low short. -/
theorem unnamedOperandBitsMakeNoDifference : Obligations.UnnamedOperandBitsMakeNoDifference := by
  intro s b e pos v w x
  refine ⟨fun h => ?byte, fun h => ?short⟩
  case byte =>
    have hlow : lowByte v = lowByte w := BitVec.eq_of_toNat_eq (by simpa only [lowByte_toNat] using h)
    simp only [exec, execSlGetByteSlice, execSlSetByteSlice, execBySetByte, execBySetByteByPos, hlow, and_self]
  case short =>
    have hlow : lowShort v = lowShort w := BitVec.eq_of_toNat_eq (by simpa only [lowShort_toNat] using h)
    simp only [exec, execSlGetShortSlice, execBySetWord, execBySetWordByPos, hlow, and_self]

/-! #### The assembler (R99 to R102) -/

/-- Settles O1: four closed lines, assembled, encoded and decoded. -/
theorem workedLinesEncodeAsStated : Obligations.WorkedLinesEncodeAsStated := by
  unfold Obligations.WorkedLinesEncodeAsStated
  decide

/-- Two lines whose forms make the same of their operands assemble to the same. -/
theorem assemble_congr {m m' : String} {ops ops' : List Nat} {form form' : String × AsmForm}
    (hm : asmForms.find? (fun f => f.1 == m) = some form) (hm' : asmForms.find? (fun f => f.1 == m') = some form')
    (h : form.2 ops = form'.2 ops') : assemble m ops = assemble m' ops' := by
  simp only [assemble, hm, hm', h]

/-- A line is refused for the reason its form gives. -/
theorem assemble_error {m : String} {ops : List Nat} {form : String × AsmForm} {e : AsmError}
    (hm : asmForms.find? (fun f => f.1 == m) = some form) (h : form.2 ops = .error e) : assemble m ops = .error e := by
  simp only [assemble, hm, h]

/-- Settles O7: the forms agree; those of R100 first check n. -/
theorem pseudoInstructionsExpand : Obligations.PseudoInstructionsExpand := by
  refine ⟨fun x n v => ⟨fun hn => ?inRange, fun hn => ?outOfRange⟩, fun pos v => ?fixedWidth⟩
  case inRange => refine ⟨?_, ?_, ?_, ?_⟩ <;> exact assemble_congr rfl rfl (if_pos hn)
  case outOfRange => refine ⟨?_, ?_, ?_, ?_⟩ <;> exact assemble_error rfl (if_neg hn)
  case fixedWidth =>
    refine ⟨?_, ?_, ?_, ?_, ?_, ?_, ?_, ?_, ?_, ?_, ?_, ?_⟩ <;> exact assemble_congr rfl rfl rfl

end Sys2Proof.Machine

/-! ### Slice Arithmetic (R120 to R131)

The commands answer what the slice functions compute (`getByteSlice_toNat`, `setByteSlice_getLsbD`). A set followed by a
get, and a byte left outside the range, then fix the byte a set answers as a number (`setByteSlice_toNat`). -/

namespace Sys2Proof.Machine

/-- A byte extended to a word keeps its value (R19). -/
theorem zext32_byte_toNat (x : Byte) : (zext32 x.toNat).toNat = x.toNat :=
  zext32_toNat_of_lt (x.isLt.trans (by decide))

/-- Settles O12: the answer is the slice of the low byte, extended to a word. -/
theorem getByteSliceExtractsTheRange : Obligations.GetByteSliceExtractsTheRange := by
  intro b e x s
  have hlow : (lowByte x).toNat = x.toNat % 256 := lowByte_toNat x
  refine ⟨_, rfl, ?_⟩
  rw [zext32_byte_toNat, getByteSlice_toNat, hlow]

/-- Settles O13: the answer is the byte of `setByteSlice`, whose bits are known one by one. -/
theorem setByteSliceReplacesTheRange : Obligations.SetByteSliceReplacesTheRange := by
  intro b e x v s
  refine ⟨_, rfl, ?_, fun j hj => ?_⟩
  · rw [zext32_byte_toNat]
    exact BitVec.isLt _
  · have hlow : (lowByte x).getLsbD j = x.getLsbD j := by simp [lowByte, hj]
    have hrange : j ≤ min 7 (max b e) ↔ j ≤ max b e := by omega
    rw [← BitVec.testBit_toNat, zext32_byte_toNat, BitVec.testBit_toNat, setByteSlice_getLsbD _ _ _ _ hj, hlow,
      BitVec.testBit_toNat]
    simp only [hrange]

/-- Settles O14: the answers are the wide slices of the low short and of the whole word. -/
theorem wideSlicesExtractTheRange : Obligations.WideSlicesExtractTheRange := by
  intro b e x s
  refine ⟨⟨_, rfl, ?short⟩, ⟨_, rfl, getWideSlice_toNat x b e⟩⟩
  case short =>
    rw [zext32_toNat_of_lt ((BitVec.isLt _).trans (by decide)), getWideSlice_toNat, lowShort_toNat]

/-! #### Set then get (R130) -/

/-- The order of the indices makes no difference (R121). -/
theorem norm8_comm (b e : Nat) : norm8 b e = norm8 e b := by
  rw [norm8_eq, norm8_eq, max_comm b, min_comm b]

/-- The order of the indices makes no difference (R122). -/
theorem normW_comm (b e : Nat) : normW b e = normW e b := by
  rw [normW_eq, normW_eq, max_comm b, min_comm b]

theorem getByteSlice_comm (x : Byte) (b e : Nat) : getByteSlice x b e = getByteSlice x e b := by
  rw [getByteSlice, norm8_comm, getByteSlice]

theorem setByteSlice_comm (x : Byte) (b e v : Nat) : setByteSlice x b e v = setByteSlice x e b v := by
  rw [setByteSlice, norm8_comm, setByteSlice]

theorem getWideSlice_comm {w : Nat} (x : BitVec w) (b e : Nat) : getWideSlice x b e = getWideSlice x e b := by
  rw [getWideSlice, normW_comm, getWideSlice]

/-- A set keeps every bit outside the normalised range (R130). -/
theorem setByteSlice_getLsbD_outside (x : Byte) (b e v : Nat) {j : Nat} (hj : j < min b e ∨ min 7 (max b e) < j) :
    (setByteSlice x b e v).getLsbD j = x.getLsbD j := by
  by_cases hj8 : j < 8
  · rw [setByteSlice_getLsbD _ _ _ _ hj8, if_neg (by omega)]
  · rw [BitVec.getLsbD_of_ge _ _ (by omega), BitVec.getLsbD_of_ge _ _ (by omega)]

/-- A get after a set over the same range is the value cut to the range's width (R130). -/
theorem getByteSlice_setByteSlice (x : Byte) (b e v : Nat) (hlo : min b e < 8) :
    (getByteSlice (setByteSlice x b e v) b e).toNat = v % 2 ^ (min 7 (max b e) - min b e + 1) := by
  apply Nat.eq_of_testBit_eq
  intro j
  rw [BitVec.testBit_toNat, getByteSlice_getLsbD, Nat.testBit_mod_two_pow]
  by_cases hj : min b e + j ≤ min 7 (max b e)
  · have hwidth : j < min 7 (max b e) - min b e + 1 := by omega
    rw [setByteSlice_getLsbD _ _ _ _ (by omega), if_pos ⟨Nat.le_add_right _ _, hj⟩, Nat.add_sub_cancel_left,
      decide_eq_true hj, decide_eq_true hwidth]
  · have hwidth : ¬ j < min 7 (max b e) - min b e + 1 := by omega
    rw [decide_eq_false hj, decide_eq_false hwidth, Bool.false_and, Bool.false_and]

/-- Settles O15: two indices below 8 are a range that needs no clamp. -/
theorem sliceFunctionsRoundTrip : Obligations.SliceFunctionsRoundTrip := by
  refine ⟨fun x b e v hb he => ?unclamped, getByteSlice_setByteSlice, fun x y z b e v => ?order,
    fun x b e v j => setByteSlice_getLsbD_outside x b e v⟩
  case unclamped =>
    have hclamp : min 7 (max b e) = max b e := by omega
    rw [getByteSlice_setByteSlice x b e v (by omega), hclamp]
  case order =>
    exact ⟨getByteSlice_comm x b e, setByteSlice_comm x b e v, getWideSlice_comm y b e, getWideSlice_comm z b e⟩

/-! #### The convenience functions (R131) -/

/-- A number is its bits above hi, its bits hi down to lo and its bits below lo. -/
theorem split_at_range (n lo hi : Nat) (h : lo ≤ hi + 1) :
    n = n / 2 ^ (hi + 1) * 2 ^ (hi + 1) + n % 2 ^ (hi + 1) / 2 ^ lo * 2 ^ lo + n % 2 ^ lo := by
  have hlow : n % 2 ^ (hi + 1) % 2 ^ lo = n % 2 ^ lo := Nat.mod_mod_of_dvd n (pow_dvd_pow 2 h)
  rw [Nat.add_assoc, ← hlow, Nat.div_add_mod', Nat.div_add_mod']

/-- A set keeps the part of the byte above the range. -/
theorem setByteSlice_toNat_above (x : Byte) (b e v : Nat) :
    (setByteSlice x b e v).toNat / 2 ^ (min 7 (max b e) + 1) = x.toNat / 2 ^ (min 7 (max b e) + 1) := by
  apply Nat.eq_of_testBit_eq
  intro j
  rw [Nat.testBit_div_two_pow, Nat.testBit_div_two_pow, BitVec.testBit_toNat, BitVec.testBit_toNat,
    setByteSlice_getLsbD_outside _ _ _ _ (.inr (by omega))]

/-- A set keeps the part of the byte below the range. -/
theorem setByteSlice_toNat_below (x : Byte) (b e v : Nat) :
    (setByteSlice x b e v).toNat % 2 ^ min b e = x.toNat % 2 ^ min b e := by
  apply Nat.eq_of_testBit_eq
  intro j
  rw [Nat.testBit_mod_two_pow, Nat.testBit_mod_two_pow, BitVec.testBit_toNat, BitVec.testBit_toNat]
  by_cases hj : j < min b e
  · rw [setByteSlice_getLsbD_outside _ _ _ _ (.inl hj)]
  · rw [decide_eq_false hj, Bool.false_and, Bool.false_and]

/-- SetByteSlice as arithmetic (R124). -/
theorem setByteSlice_toNat (x : Byte) (b e v : Nat) (hlo : min b e < 8) :
    (setByteSlice x b e v).toNat = x.toNat / 2 ^ (min 7 (max b e) + 1) * 2 ^ (min 7 (max b e) + 1)
      + v % 2 ^ (min 7 (max b e) - min b e + 1) * 2 ^ min b e + x.toNat % 2 ^ min b e := by
  rw [split_at_range (setByteSlice x b e v).toNat (min b e) (min 7 (max b e)) (by omega), ← getByteSlice_toNat,
    getByteSlice_setByteSlice x b e v hlo, setByteSlice_toNat_above, setByteSlice_toNat_below]

section convenience

variable (x : Byte) {n : Nat} (hn : 1 ≤ n ∧ n ≤ 8)

include hn

theorem getHi_toNat : (getHi x n).toNat = x.toNat / 2 ^ (8 - n) := by
  have hhi : min 7 (max 7 (8 - n)) + 1 = 8 := by omega
  have hlo : min 7 (8 - n) = 8 - n := by omega
  rw [getHi, getByteSlice_toNat, hhi, hlo, Nat.mod_eq_of_lt x.isLt]

theorem getLow_toNat : (getLow x n).toNat = x.toNat % 2 ^ n := by
  have hhi : min 7 (max (n - 1) 0) + 1 = n := by omega
  rw [getLow, getByteSlice_toNat, hhi, Nat.min_zero, pow_zero, Nat.div_one]

theorem setHi_toNat (v : Nat) : (setHi x n v).toNat = v % 2 ^ n * 2 ^ (8 - n) + x.toNat % 2 ^ (8 - n) := by
  have hhi : min 7 (max 7 (8 - n)) = 7 := by omega
  have hlo : min 7 (8 - n) = 8 - n := by omega
  have hwidth : 7 - (8 - n) + 1 = n := by omega
  rw [setHi, setByteSlice_toNat _ _ _ _ (by omega), hhi, hlo, hwidth, Nat.div_eq_of_lt x.isLt, Nat.zero_mul,
    Nat.zero_add]

theorem setLow_toNat (v : Nat) : (setLow x n v).toNat = x.toNat / 2 ^ n * 2 ^ n + v % 2 ^ n := by
  have hhi : min 7 (max (n - 1) 0) = n - 1 := by omega
  have hwidth : n - 1 + 1 = n := by omega
  rw [setLow, setByteSlice_toNat _ _ _ _ (by omega), hhi, Nat.min_zero, Nat.sub_zero, hwidth, pow_zero, Nat.mul_one,
    Nat.mod_one, Nat.add_zero]

end convenience

/-- Settles O16: each function is its slice by definition, and the slice's value at n in 1..8 is the arithmetic one. -/
theorem convenienceFunctionsTakeHighAndLowBits : Obligations.ConvenienceFunctionsTakeHighAndLowBits := by
  refine ⟨fun x n v hn1 hn8 => ?values, by decide, by decide⟩
  have hn : 1 ≤ n ∧ n ≤ 8 := ⟨hn1, hn8⟩
  exact ⟨rfl, getHi_toNat x hn, rfl, getLow_toNat x hn, rfl, setHi_toNat x hn v, rfl, setLow_toNat x hn v⟩

end Sys2Proof.Machine

/-! ### Byte Stream (R150 to R176)

BT makes no difference to a command because it makes none to the operations the command is put together from
(`CommutesWith`). Bytes are read and written through two facts: what a get folds is the big-endian number at the address
(`readBytes_bigEndian`), and what a set writes are the leading bytes of its value (`writeBytes_storesLeading`). -/

namespace Sys2Proof.Machine

/-! #### BT makes no difference (R150) -/

/-- The operation neither reads what u replaces nor writes it. -/
def CommutesWith (u : State → State) (f : State → Out) : Prop := ∀ s, f (u s) = onNext u (f s)

/-- The state over another BT context. -/
def State.withBitCtx (c : Context) (s : State) : State := { s with bitCtx := c }

section commute

variable {u : State → State} {f g : State → Out}

theorem CommutesWith.next {g : State → State} (hg : ∀ s, g (u s) = u (g s) := by exact fun _ => rfl) :
    CommutesWith u fun s => .next (g s) :=
  fun s => congrArg Host.Outcome.next (hg s)

theorem CommutesWith.ite {p : State → Prop} [DecidablePred p] (hf : CommutesWith u f) (hg : CommutesWith u g)
    (hp : ∀ s, p (u s) = p s := by exact fun _ => rfl) : CommutesWith u fun s => if p s then f s else g s := by
  intro s
  by_cases h : p s
  · simpa only [hp, h, if_true] using hf s
  · simpa only [hp, h, if_false] using hg s

theorem CommutesWith.orFault {α : Type} {x : State → Except Fault α} {k : α → State → Out}
    (hk : ∀ a, CommutesWith u (k a)) (hx : ∀ s, x (u s) = x s := by exact fun _ => rfl) :
    CommutesWith u fun s => orFault (x s) fun a => k a s := by
  intro s
  dsimp only
  rw [hx]
  cases x s with
  | ok a => exact hk a s
  | error e => rfl

end commute

section bitCtx

variable {c : Context} {f : State → Out}

theorem CommutesWith.requireBY (hf : CommutesWith (State.withBitCtx c) f) :
    CommutesWith (State.withBitCtx c) fun s => requireBY s f :=
  .ite (p := fun s => s.byteCtx.valid = true) (fun s => hf s.accept) .next

theorem seqGet_commutes (k : Nat) : CommutesWith (State.withBitCtx c) (seqGet k) :=
  .ite (p := fun s => s.byteCtx.cur.toNat + k ≤ s.byteCtx.len.toNat) (.orFault fun _ => .next) .next

theorem seqSet_commutes (k v : Nat) : CommutesWith (State.withBitCtx c) (seqSet k v) :=
  .orFault fun _ => .ite (p := fun s => s.byteCtx.cur.toNat + k ≤ s.byteCtx.len.toNat) .next .next

theorem posGet_commutes (k pos : Nat) : CommutesWith (State.withBitCtx c) (posGet k pos) :=
  .ite (p := fun s => s.byteCtx.len.toNat < pos + k) .next (.orFault fun _ => .next)

theorem posSet_commutes (k pos v : Nat) : CommutesWith (State.withBitCtx c) (posSet k pos v) :=
  .ite (p := fun s => s.byteCtx.len.toNat < pos + k) .next (.orFault fun _ => .next)

theorem execBySetByteSlice_commutes (b e : Nat) (v : Word) :
    CommutesWith (State.withBitCtx c) (execBySetByteSlice b e v) :=
  .requireBY (.ite (p := fun s => s.byteCtx.cur = 0) .next
    (.orFault (x := fun s => patchByte s.mem (byteAddr s (s.byteCtx.cur.toNat - 1)) b e v.toNat) fun _ => .next))

/-- A Byte Stream command other than the handoff has nothing to do with BT (R150). -/
theorem exec_commutes_withBitCtx {i : Instr} (hlo : 0x10 ≤ op i) (hhi : op i ≤ 0x24) (hne : op i ≠ 0x20) :
    CommutesWith (State.withBitCtx c) (exec i) := by
  cases i with
  | slGetByteSlice _ _ _ | slSetByteSlice _ _ _ _ | slGetShortSlice _ _ _ | slGetIntSlice _ _ _ =>
    exact absurd hlo (by simp [op, Instr.opcode])
  | btInit _ _ _ | btForward _ | btBack _ | btGetBit _ | btSetBit _ _ | btGetBitByPos _ _ | btSetBitByPos _ _ _
  | btGetPos | btGetBytePos | btGetError | btGetLength | btGetBuffer =>
    exact absurd hhi (by simp [op, Instr.opcode])
  | byGetBitStream _ => exact absurd rfl hne
  | byInit mode base len => exact .ite (p := fun s => windowFits s.mem base len = true) .next .next
  | byForward _ | byBack _ | byGetPos | byGetError | byGetLength | byGetBuffer =>
    exact .ite (p := fun s => s.byteCtx.valid = true) .next .next
  | byGetByte | byGetWord | byGetDword => exact (seqGet_commutes _).requireBY
  | bySetByte _ | bySetWord _ | bySetDword _ => exact (seqSet_commutes _ _).requireBY
  | bySetByteSlice _ _ _ => exact execBySetByteSlice_commutes _ _ _
  | byGetByteByPos _ | byGetWordByPos _ | byGetDwordByPos _ => exact (posGet_commutes _ _).requireBY
  | bySetByteByPos _ _ | bySetWordByPos _ _ | bySetDwordByPos _ _ => exact (posSet_commutes _ _ _).requireBY

end bitCtx

/-- A command that goes on is ILLEGAL, or leaves ILL = 0 (R258, R260). -/
theorem Effect.eq_illegal_or_ill {i : Instr} {s t : State} (h : Effect i s t) : t = s.illegal ∨ t.ill = false := by
  cases i with
  | slGetByteSlice _ _ _ | slSetByteSlice _ _ _ _ | slGetShortSlice _ _ _ | slGetIntSlice _ _ _ =>
    obtain ⟨_, rfl⟩ := h; exact .inr s.accept_ill
  | byInit _ _ _ | btInit _ _ _ | bySetByteSlice _ _ _ | byGetPos | byGetError | byGetLength | byGetBuffer
  | btGetPos | btGetBytePos | btGetError | btGetLength | btGetBuffer =>
    exact h.imp_right fun ⟨_, h⟩ => h ▸ s.accept_ill
  | byGetBitStream _ => exact h.imp_right fun ⟨_, _, h⟩ => h ▸ s.accept_ill
  | byForward _ | byBack _ | btForward _ | btBack _ =>
    exact h.imp_right fun h => h.elim (· ▸ s.accept_ill) fun ⟨_, h, _⟩ => h ▸ s.accept_ill
  | byGetByteByPos _ | byGetWordByPos _ | byGetDwordByPos _
  | bySetByteByPos _ _ | bySetWordByPos _ _ | bySetDwordByPos _ _ =>
    exact h.imp_right fun h => h.elim (· ▸ s.accept_ill) fun ⟨_, h⟩ => h ▸ s.accept_ill
  | bySetByte _ | bySetWord _ | bySetDword _ | btGetBit _ | btSetBit _ _ =>
    exact h.imp_right fun h => h.elim (fun ⟨_, _, h⟩ => h ▸ s.accept_ill) fun ⟨_, _, h⟩ => h ▸ s.accept_ill
  | byGetByte | byGetWord | byGetDword | btGetBitByPos _ _ | btSetBitByPos _ _ _ =>
    exact h.imp_right fun h => h.elim (fun ⟨_, _, h⟩ => h ▸ s.accept_ill) fun ⟨_, h⟩ => h ▸ s.accept_ill

/-- Settles O17: by the check of VALID, the effects of a command, and the operations it is made of. -/
theorem byteStreamCommandsNeedTheirContextOnly : Obligations.ByteStreamCommandsNeedTheirContextOnly := by
  intro i s hlo hhi
  refine ⟨fun hne hunbound => ⟨exec_of_byteCtx_unbound ⟨by omega, hhi⟩ hunbound, rfl⟩,
    fun t h => (exec_effect h).eq_illegal_or_ill, fun hne c => exec_commutes_withBitCtx hlo hhi hne s⟩

/-! #### Construction and navigation (R151 to R153) -/

/-- Settles O18: the check is the one the rule states, and the memory is that of `Memory.initWindow`. -/
theorem byInitBindsTheWindow : Obligations.ByInitBindsTheWindow := by
  intro mode base len s
  split
  · next hfits =>
    refine ⟨s.mem.initWindow mode base len, if_pos (decide_eq_true hfits), ?decode, ?encode⟩
    case decode => rintro rfl; rfl
    case encode => rintro rfl; exact ⟨rfl, Memory.read_zeroFill _ _ _⟩
  · next hout => exact if_neg (by simpa [windowFits] using hout)

/-- Settles O19: the two cases of forward and of back. -/
theorem byteCursorMovesWithinItsBounds : Obligations.ByteCursorMovesWithinItsBounds := by
  intro n s hs hvalid
  have hcur : s.byteCtx.cur.toNat < 2 ^ 32 := s.byteCtx.cur.isLt
  have hlen : s.byteCtx.len.toNat < 2 ^ 32 := s.byteCtx.len.isLt
  have hforward : exec (.byForward n) s
      = .next { s.accept with byteCtx := s.byteCtx.forward s.byteCtx.len.toNat n } := if_pos hvalid
  have hback : exec (.byBack n) s = .next { s.accept with byteCtx := s.byteCtx.back n } := if_pos hvalid
  constructor
  · obtain ⟨hlt, heq⟩ | ⟨hge, heq⟩ := forward_cases s.byteCtx s.byteCtx.len.toNat n <;> rw [heq] at hforward
    · rw [if_pos hlt]; exact ⟨_, hforward, zext32_toNat_of_lt (by omega)⟩
    · rw [if_neg (by omega)]; exact hforward
  · obtain ⟨hle, heq⟩ | ⟨hgt, heq⟩ := back_cases s.byteCtx n <;> rw [heq] at hback
    · rw [if_pos hle]; exact ⟨_, hback, zext32_toNat_of_lt (by omega)⟩
    · rw [if_neg (by omega)]; exact hback

/-! #### Big-endian bytes (R63) -/

theorem foldBE_append_byte (acc : Nat) (bs : List Byte) (b : Byte) :
    foldBE acc (bs ++ [b]) = foldBE acc bs * 256 + b.toNat := by
  rw [foldBE, List.foldl_append]
  exact (Nat.shiftLeft_add_eq_or_of_lt b.isLt _).symm.trans (by rw [Nat.shiftLeft_eq, foldBE])

theorem bigEndian_succ (m : Memory) (a k : Nat) :
    bigEndian m a (k + 1) = bigEndian m a k * 256 + (m.read (a + k)).toNat := by
  have hweight : ∀ j ∈ List.range k, (m.read (a + j)).toNat * 256 ^ (k + 1 - 1 - j)
      = (m.read (a + j)).toNat * 256 ^ (k - 1 - j) * 256 := by
    intro j hj
    have hpow : k + 1 - 1 - j = k - 1 - j + 1 := by have := List.mem_range.1 hj; omega
    rw [hpow, pow_succ, Nat.mul_assoc]
  rw [bigEndian, List.range_succ, List.map_append, List.sum_append, List.map_congr_left hweight, List.sum_map_mul_right]
  simp [bigEndian]

/-- A number of k bytes is below 256^k. -/
theorem bigEndian_lt (m : Memory) (a k : Nat) : bigEndian m a k < 256 ^ k := by
  induction k with
  | zero => simp [bigEndian]
  | succ k ih =>
    have hlast := (m.read (a + k)).isLt
    rw [bigEndian_succ, pow_succ]
    omega

/-- A number of at most four bytes fits RESULT. -/
theorem zext32_bigEndian_toNat (m : Memory) (a : Nat) {k : Nat} (hk : k ≤ 4) :
    (zext32 (bigEndian m a k)).toNat = bigEndian m a k :=
  zext32_toNat_of_lt ((bigEndian_lt m a k).trans_le (Nat.pow_le_pow_right (by decide) hk))

/-- Inside MEM, the bytes a get folds are the big-endian number at the address (R63, R154). -/
theorem readBytes_bigEndian {m : Memory} {a k : Nat} (h : a + k ≤ m.size) :
    ∃ bs, readBytes m a k = .ok bs ∧ foldBE 0 bs = bigEndian m a k := by
  refine ⟨_, readBytes_ok h, ?_⟩
  clear h
  induction k with
  | zero => rfl
  | succ k ih => rw [List.range_succ, List.map_append, List.map_singleton, foldBE_append_byte, ih, bigEndian_succ]

/-- Byte j of a k-byte value is its digit in base 256 (R63). -/
theorem byteOf_eq (k v j : Nat) : byteOf k v j = BitVec.ofNat 8 (v / 256 ^ (k - 1 - j)) := by
  rw [byteOf, Nat.shiftRight_eq_div_pow, pow_mul]
  rfl

/-- Inside MEM, writing the first bytes of a value stores just these (R63, R158). -/
theorem writeBytes_storesLeading {m : Memory} (hm : m.wf) {a k r v : Nat} (h : a + min k r ≤ m.size) :
    ∃ m', writeBytes m a ((bytesBE k v).take r) = .ok m' ∧ storesLeading m m' a k (min k r) v := by
  have hlength : ((bytesBE k v).take r).length = min k r := by rw [List.length_take, bytesBE_length, min_comm]
  obtain ⟨m', hwrite, hsize, -, hread⟩ := writeBytes_ok hm (a := a) (bs := (bytesBE k v).take r) (by rwa [hlength])
  refine ⟨m', hwrite, hsize, fun x => ?_⟩
  rw [hread]
  simp only [hlength]
  split
  · simp [bytesBE, byteOf_eq]
  · rfl

/-! #### Sequential and positional gets and sets (R154 to R161, R163 to R170) -/

/-- A get or set that overruns leaves the cursor at the window's end (R154, R158). -/
theorem Context.moveTo_len_setErr (c : Context) (e : ErrorKind) :
    (c.moveTo c.len.toNat).setErr e = { c with cur := c.len, err := e.code } := by
  simp [Context.moveTo, Context.setErr]

section access

variable {s : State} {k pos : Nat}

theorem seqGet_of_fits (hs : s.Inv) (hvalid : s.byteCtx.valid = true)
    (hfit : s.byteCtx.cur.toNat + k ≤ s.byteCtx.len.toNat) :
    seqGet k s = .next { s with
      byteCtx := s.byteCtx.moveTo (s.byteCtx.cur.toNat + k)
      result := zext32 (bigEndian s.mem (byteAddr s s.byteCtx.cur.toNat) k) } := by
  obtain ⟨bs, hread, hvalue⟩ := readBytes_bigEndian (hs.byteAddr_add_le hvalid hfit)
  simp only [seqGet, if_pos hfit, hread, orFault_ok, hvalue]

theorem seqGet_of_overruns (hover : ¬ s.byteCtx.cur.toNat + k ≤ s.byteCtx.len.toNat) :
    seqGet k s = .next { s with byteCtx := { s.byteCtx with cur := s.byteCtx.len, err := 1 }, result := 0 } := by
  rw [seqGet, if_neg hover, Context.moveTo_len_setErr]
  rfl

/-- SeqSet stores what fits, then moves past the value or to the window's end. -/
theorem seqSet_eq (hs : s.Inv) (hvalid : s.byteCtx.valid = true) (k v : Nat) :
    ∃ m, storesLeading s.mem m (byteAddr s s.byteCtx.cur.toNat) k (min k (s.byteCtx.len.toNat - s.byteCtx.cur.toNat)) v
      ∧ seqSet k v s =
        if s.byteCtx.cur.toNat + k ≤ s.byteCtx.len.toNat then
          .next { s with byteCtx := s.byteCtx.moveTo (s.byteCtx.cur.toNat + k), mem := m }
        else .next { s with byteCtx := { s.byteCtx with cur := s.byteCtx.len, err := 2 }, mem := m } := by
  have hcur : s.byteCtx.cur.toNat ≤ s.byteCtx.len.toNat := hs.byteCursor.1
  obtain ⟨m, hwrite, hstores⟩ := writeBytes_storesLeading hs.mem_wf (v := v)
    (hs.byteAddr_add_le hvalid (pos := s.byteCtx.cur.toNat)
      (k := min k (s.byteCtx.len.toNat - s.byteCtx.cur.toNat)) (by omega))
  refine ⟨m, hstores, ?_⟩
  rw [seqSet, hwrite, orFault_ok, Context.moveTo_len_setErr]
  rfl

theorem posGet_of_fits (hs : s.Inv) (hvalid : s.byteCtx.valid = true) (hfit : pos + k ≤ s.byteCtx.len.toNat) :
    posGet k pos s = .next { s with result := zext32 (bigEndian s.mem (byteAddr s pos) k) } := by
  obtain ⟨bs, hread, hvalue⟩ := readBytes_bigEndian (hs.byteAddr_add_le hvalid hfit)
  rw [posGet, if_neg (not_lt.2 hfit), hread, orFault_ok, hvalue]

/-- A PosSet that fits stores its whole value and changes nothing else. -/
theorem posSet_storesLeading (hs : s.Inv) (hvalid : s.byteCtx.valid = true) (hfit : pos + k ≤ s.byteCtx.len.toNat)
    (v : Nat) : ∃ m, posSet k pos v s = .next { s with mem := m } ∧ storesLeading s.mem m (byteAddr s pos) k k v := by
  obtain ⟨m, hwrite, hstores⟩ := writeBytes_storesLeading hs.mem_wf (a := byteAddr s pos) (k := k) (r := k) (v := v)
    (by rw [min_self]; exact hs.byteAddr_add_le hvalid hfit)
  rw [List.take_of_length_le (bytesBE_length k v).le] at hwrite
  rw [min_self] at hstores
  exact ⟨m, by rw [posSet, if_neg (not_lt.2 hfit), hwrite, orFault_ok], hstores⟩

end access

section command

variable {i : Instr} {k : Nat}

theorem getsSequentially_of_seqGet (hi : ∀ s, exec i s = requireBY s (seqGet k)) (hk : k ≤ 4) :
    getsSequentially i k := by
  intro s hs hvalid
  rw [hi, requireBY_of_valid hvalid]
  split
  · next hfit =>
    exact ⟨_, _, seqGet_of_fits hs.accept hvalid hfit, zext32_toNat_of_lt (hfit.trans_lt (BitVec.isLt _)),
      zext32_bigEndian_toNat _ _ hk⟩
  · next hover => exact seqGet_of_overruns (s := s.accept) hover

theorem setsSequentially_of_seqSet {v : Nat} (hi : ∀ s, exec i s = requireBY s (seqSet k v)) :
    setsSequentially i k v := by
  intro s hs hvalid
  obtain ⟨m, hstores, hset⟩ := seqSet_eq hs.accept hvalid k v
  refine ⟨m, hstores, ?_⟩
  rw [hi, requireBY_of_valid hvalid, hset]
  split
  · next hfit => exact ⟨_, if_pos hfit, zext32_toNat_of_lt (hfit.trans_lt (BitVec.isLt _))⟩
  · next hover => exact if_neg hover

theorem getsAt_of_posGet {pos : Nat} (hi : ∀ s, exec i s = requireBY s (posGet k pos)) (hk : k ≤ 4) :
    getsAt i k pos := by
  intro s hs hvalid
  rw [hi, requireBY_of_valid hvalid]
  split
  · next hfit => exact ⟨_, posGet_of_fits hs.accept hvalid hfit, zext32_bigEndian_toNat _ _ hk⟩
  · next hover => exact if_pos (not_le.1 hover)

theorem setsAt_of_posSet {pos v : Nat} (hi : ∀ s, exec i s = requireBY s (posSet k pos v)) : setsAt i k pos v := by
  intro s hs hvalid
  rw [hi, requireBY_of_valid hvalid]
  split
  · next hfit => exact posSet_storesLeading hs.accept hvalid hfit v
  · next hover => exact if_pos (not_le.1 hover)

end command

/-- Settles O20: each command is SeqGet of its bytes. -/
theorem sequentialGetsReadBigEndian : Obligations.SequentialGetsReadBigEndian :=
  ⟨getsSequentially_of_seqGet (fun _ => rfl) (by decide), getsSequentially_of_seqGet (fun _ => rfl) (by decide),
    getsSequentially_of_seqGet (fun _ => rfl) (by decide)⟩

/-- Settles O21: each command is SeqSet of its operand, cut to its bytes (R92). -/
theorem sequentialSetsWriteBigEndian : Obligations.SequentialSetsWriteBigEndian := by
  intro v
  rw [← lowByte_toNat, ← lowShort_toNat]
  exact ⟨setsSequentially_of_seqSet fun _ => rfl, setsSequentially_of_seqSet fun _ => rfl,
    setsSequentially_of_seqSet fun _ => rfl⟩

/-- Settles O23: each command is PosGet of its bytes. -/
theorem positionalGetsReadBigEndian : Obligations.PositionalGetsReadBigEndian := fun _ =>
  ⟨getsAt_of_posGet (fun _ => rfl) (by decide), getsAt_of_posGet (fun _ => rfl) (by decide),
    getsAt_of_posGet (fun _ => rfl) (by decide)⟩

/-- Settles O24: each command is PosSet of its operand, cut to its bytes (R92). -/
theorem positionalSetsWriteBigEndian : Obligations.PositionalSetsWriteBigEndian := by
  intro pos v
  rw [← lowByte_toNat, ← lowShort_toNat]
  exact ⟨setsAt_of_posSet fun _ => rfl, setsAt_of_posSet fun _ => rfl, setsAt_of_posSet fun _ => rfl⟩

/-! #### The slice patch (R162) -/

/-- Past cursor 0 the byte before the cursor is in the window, so in MEM, and it alone is patched. -/
theorem exec_bySetByteSlice_of_cur_ne_zero {s : State} (hs : s.Inv) (hvalid : s.byteCtx.valid = true)
    (hne : s.byteCtx.cur.toNat ≠ 0) (b e : Nat) (v : Word) :
    exec (.bySetByteSlice b e v) s = .next { s.accept with
      mem := s.mem.write (byteAddr s (s.byteCtx.cur.toNat - 1))
        (setByteSlice (s.mem.read (byteAddr s (s.byteCtx.cur.toNat - 1))) b e v.toNat) } := by
  have hcur : s.byteCtx.cur.toNat ≤ s.byteCtx.len.toNat := hs.byteCursor.1
  have hin : byteAddr s (s.byteCtx.cur.toNat - 1) < s.mem.size := hs.byteAddr_add_le hvalid (k := 1) (by omega)
  have hpatch : exec (.bySetByteSlice b e v) s =
      orFault (patchByte s.mem (byteAddr s (s.byteCtx.cur.toNat - 1)) b e v.toNat)
        fun m => .next { s.accept with mem := m } :=
    (if_pos hvalid).trans (if_neg fun h => hne (congrArg BitVec.toNat h))
  rw [hpatch, patchByte_ok hin, orFault_ok]

/-- Settles O22: the patch is a write of one byte. -/
theorem setByteSlicePatchesTheByteBeforeTheCursor : Obligations.SetByteSlicePatchesTheByteBeforeTheCursor := by
  intro b e v s hs hvalid
  split
  · next hzero => exact (if_pos hvalid).trans (if_pos (BitVec.eq_of_toNat_eq hzero))
  · next hne =>
    have haddr : byteAddr s (s.byteCtx.cur.toNat - 1) = s.byteCtx.base.toNat + s.byteCtx.cur.toNat - 1 :=
      (Nat.add_sub_assoc (Nat.one_le_iff_ne_zero.2 hne) _).symm
    refine ⟨_, exec_bySetByteSlice_of_cur_ne_zero hs hvalid hne b e v, rfl, fun a => ?_⟩
    rw [Memory.read_write hs.mem_wf, haddr]
    split
    · next heq => rw [heq]
    · rfl

/-! #### Handoff (R171) -/

section handoff

variable {s : State} {n : Word}

/-- A handoff of bytes of the BY window, within MAX_BIT_CAP, is accepted (R171). -/
theorem byGetBitStream_of_fits (hvalid : s.byteCtx.valid = true)
    (hfit : s.byteCtx.cur.toNat + n.toNat ≤ s.byteCtx.len.toNat) (hcap : n.toNat ≤ 2 ^ 29 - 1) :
    exec (.byGetBitStream n) s = .next (bindBitStream (byteAddr s s.byteCtx.cur.toNat) n s.accept) :=
  if_pos ⟨hvalid, hfit, hcap⟩

/-- Any other handoff is ILLEGAL (cause I7). -/
theorem byGetBitStream_of_not_fits
    (h : ¬ (s.byteCtx.cur.toNat + n.toNat ≤ s.byteCtx.len.toNat ∧ n.toNat ≤ 2 ^ 29 - 1)) :
    exec (.byGetBitStream n) s = .next s.illegal :=
  if_neg fun hp => h hp.2

end handoff

/-- Settles O25: a BASE below 2^32 is held exactly. -/
theorem handoffBindsTheNextBytes : Obligations.HandoffBindsTheNextBytes := by
  intro n s _ hvalid
  split
  · next hfits =>
    obtain ⟨hfit, hcap⟩ := hfits
    intro haddr
    obtain ⟨b, d, heq, hbase⟩ := bindBitStream_eq (byteAddr s s.byteCtx.cur.toNat) n s.accept
    obtain ⟨rfl, rfl⟩ := hbase haddr
    exact ⟨_, (byGetBitStream_of_fits hvalid hfit hcap).trans (congrArg _ heq), zext32_toNat_of_lt haddr⟩
  · next hout => exact byGetBitStream_of_not_fits hout

/-- Settles O26: MEM ends at 2^32, so the cursor is at the end of the window and no byte is left. -/
theorem handoffAtTheEndOfTheAddressSpaceBindsNothing : Obligations.HandoffAtTheEndOfTheAddressSpaceBindsNothing := by
  intro n s hs hvalid hend
  obtain ⟨-, -, hwindow⟩ := hs.byteInv
  obtain ⟨-, hsize, -⟩ := hs.mem_wf
  have hcur : s.byteCtx.cur.toNat ≤ s.byteCtx.len.toNat := hs.byteCursor.1
  have hin := hwindow hvalid
  simp only [Config.memBytesMax] at hsize
  split
  · next hzero =>
    obtain ⟨b, d, heq, -⟩ := bindBitStream_eq (byteAddr s s.byteCtx.cur.toNat) n s.accept
    exact ⟨b, d, (byGetBitStream_of_fits hvalid (by omega) (by omega)).trans (congrArg _ heq)⟩
  · next hpos => exact byGetBitStream_of_not_fits (by omega)

/-! #### Inspection (R172 to R175) and the cursor at L (R176) -/

/-- Settles O27: a query answers a register of the bound context. -/
theorem byteStreamQueriesAnswerTheContext : Obligations.ByteStreamQueriesAnswerTheContext := by
  intro s hvalid
  rw [← BitVec.ofNat_toNat 32 s.byteCtx.err]
  exact ⟨if_pos hvalid, if_pos hvalid, if_pos hvalid, if_pos hvalid⟩

/-- A cursor below L that moves below L, or not past where it is, does not reach L (R152, R153). -/
theorem Context.moveTo_cur_ne_len {c : Context} (hlt : c.cur.toNat < c.len.toNat) {p : Nat}
    (hp : p < c.len.toNat ∨ p ≤ c.cur.toNat) : (c.moveTo p).cur ≠ (c.moveTo p).len := by
  intro h
  have hle := zext32_toNat_le p
  have heq : (zext32 p).toNat = c.len.toNat := congrArg BitVec.toNat h
  omega

/-- Among the commands that do not bind BY, only the sequential gets and sets take a cursor from below L to L (R176). -/
theorem Effect.op_of_cur_eq_len {i : Instr} {s t : State} (h : Effect i s t) (hne : op i ≠ 0x10)
    (hlt : s.byteCtx.cur.toNat < s.byteCtx.len.toNat) (hend : t.byteCtx.cur = t.byteCtx.len) :
    0x13 ≤ op i ∧ op i ≤ 0x18 := by
  have hstays : s.byteCtx.cur ≠ s.byteCtx.len := fun h => by simp [h] at hlt
  cases i with
  | byGetByte | byGetWord | byGetDword | bySetByte _ | bySetWord _ | bySetDword _ => simp [op, Instr.opcode]
  | byInit _ _ _ => exact absurd rfl hne
  | byForward _ | byBack _ =>
    obtain rfl | rfl | ⟨p, rfl, hp⟩ := h
    · exact absurd hend hstays
    · exact absurd hend hstays
    · exact absurd hend (Context.moveTo_cur_ne_len hlt hp)
  | slGetByteSlice _ _ _ | slSetByteSlice _ _ _ _ | slGetShortSlice _ _ _ | slGetIntSlice _ _ _ =>
    obtain ⟨_, rfl⟩ := h; exact absurd hend hstays
  | byGetBitStream _ => obtain rfl | ⟨_, _, rfl⟩ := h <;> exact absurd hend hstays
  | btForward _ | btBack _ => obtain rfl | rfl | ⟨_, rfl, -⟩ := h <;> exact absurd hend hstays
  | byGetByteByPos _ | byGetWordByPos _ | byGetDwordByPos _
  | bySetByteByPos _ _ | bySetWordByPos _ _ | bySetDwordByPos _ _ =>
    obtain rfl | rfl | ⟨_, rfl⟩ := h <;> exact absurd hend hstays
  | btGetBit _ | btSetBit _ _ => obtain rfl | ⟨_, -, rfl⟩ | ⟨_, _, rfl⟩ := h <;> exact absurd hend hstays
  | btGetBitByPos _ _ | btSetBitByPos _ _ _ =>
    obtain rfl | ⟨_, -, rfl⟩ | ⟨_, rfl⟩ := h <;> exact absurd hend hstays
  | btInit _ _ _ | bySetByteSlice _ _ _ | byGetPos | byGetError | byGetLength | byGetBuffer
  | btGetPos | btGetBytePos | btGetError | btGetLength | btGetBuffer =>
    obtain rfl | ⟨_, rfl⟩ := h <;> exact absurd hend hstays

/-- Settles O28: the opcodes by the cases of `Effect`, the rule's other clauses by the move and get rules. -/
theorem onlyGetsAndSetsReachTheEnd : Obligations.OnlyGetsAndSetsReachTheEnd := by
  refine ⟨fun i s t h => (exec_effect h).op_of_cur_eq_len, fun s hs hvalid => ⟨?forward, fun hlast => ?gets,
    fun hend hpos => ?back⟩⟩
  case forward =>
    have hmove := (byteCursorMovesWithinItsBounds s.byteCtx.len s hs hvalid).1
    rwa [if_neg (by omega)] at hmove
  case gets =>
    have hget := sequentialGetsReadBigEndian.1 s hs hvalid
    rw [if_pos hlast.le] at hget
    obtain ⟨c, r, hexec, hc, -⟩ := hget
    obtain rfl : c = s.byteCtx.len := BitVec.eq_of_toNat_eq (hc.trans hlast)
    have hagain := sequentialGetsReadBigEndian.1 _ (exec_keepsInv _ _ _ hs hexec) hvalid
    rw [if_neg (Nat.not_succ_le_self _)] at hagain
    exact ⟨_, hexec, rfl, _, hagain, rfl, rfl⟩
  case back =>
    have hmove := (byteCursorMovesWithinItsBounds 1 s hs hvalid).2
    rw [if_pos (by rw [hend]; exact hpos)] at hmove
    obtain ⟨c, hexec, hc⟩ := hmove
    refine ⟨_, hexec, ?_⟩
    rw [hend] at hc
    exact (congrArg (· + 1) hc).trans (Nat.sub_add_cancel hpos)

end Sys2Proof.Machine

/-! ### Bit Stream (R200 to R220)

A field is `fieldBits`, which its bits determine (`fieldBits_testBit`). Both directions of the field algorithm go group by
group (R206): a get joins the groups' values (`fieldBits_append`), a set joins the groups' writes (`fieldWritten.append`).
The commands follow from what `bitGet` and `bitSet` do where a check fails and where the field fits. -/

namespace Sys2Proof.Machine

/-! #### BT's need of its context, and BY (R200) -/

/-- The state over another BY context. -/
def State.withByteCtx (c : Context) (s : State) : State := { s with byteCtx := c }

@[simp] theorem State.withByteCtx_bitCtx (c : Context) (s : State) : (s.withByteCtx c).bitCtx = s.bitCtx := rfl
@[simp] theorem State.withByteCtx_mem (c : Context) (s : State) : (s.withByteCtx c).mem = s.mem := rfl

section byteCtx

variable {c : Context}

theorem bitGet_commutes (n p : Nat) (after : Context) : CommutesWith (State.withByteCtx c) (bitGet n p after) := by
  intro s
  unfold bitGet
  rw [State.withByteCtx_bitCtx, State.withByteCtx_mem]
  cases getFailure n p s.bitCtx.bitLen with
  | some e => rfl
  | none =>
    cases fieldGet s.mem s.bitCtx.base.toNat p n with
    | ok v => rfl
    | error e => rfl

theorem bitSet_commutes (n p v : Nat) (after : Context) : CommutesWith (State.withByteCtx c) (bitSet n p v after) := by
  intro s
  unfold bitSet
  rw [State.withByteCtx_bitCtx, State.withByteCtx_mem]
  cases setFailure n p s.bitCtx.bitLen with
  | some e => rfl
  | none =>
    cases fieldSet s.mem s.bitCtx.base.toNat p n v with
    | ok m => rfl
    | error e => rfl

/-- A Bit Stream command has nothing to do with BY (R200). -/
theorem exec_commutes_withByteCtx {i : Instr} (hlo : 0x30 ≤ op i) : CommutesWith (State.withByteCtx c) (exec i) := by
  cases i with
  | slGetByteSlice _ _ _ | slSetByteSlice _ _ _ _ | slGetShortSlice _ _ _ | slGetIntSlice _ _ _ | byInit _ _ _
  | byForward _ | byBack _ | byGetByte | byGetWord | byGetDword | bySetByte _ | bySetWord _ | bySetDword _
  | bySetByteSlice _ _ _ | byGetByteByPos _ | byGetWordByPos _ | byGetDwordByPos _
  | bySetByteByPos _ _ | bySetWordByPos _ _ | bySetDwordByPos _ _ | byGetBitStream _
  | byGetPos | byGetError | byGetLength | byGetBuffer => exact absurd hlo (by simp [op, Instr.opcode])
  | btInit mode base len =>
    exact .ite (p := fun s => windowFits s.mem base len = true ∧ len.toNat ≤ Config.maxBitCap) .next .next
  | btForward _ | btBack _ | btGetPos | btGetBytePos | btGetError | btGetLength | btGetBuffer =>
    exact .ite (p := fun s => s.bitCtx.valid = true) .next .next
  | btGetBit _ => exact .ite (p := fun s => s.bitCtx.valid = true) (fun s => bitGet_commutes _ _ _ s.accept) .next
  | btSetBit _ _ => exact .ite (p := fun s => s.bitCtx.valid = true) (fun s => bitSet_commutes _ _ _ _ s.accept) .next
  | btGetBitByPos _ _ =>
    exact .ite (p := fun s => s.bitCtx.valid = true) (fun s => bitGet_commutes _ _ _ s.accept) .next
  | btSetBitByPos _ _ _ =>
    exact .ite (p := fun s => s.bitCtx.valid = true) (fun s => bitSet_commutes _ _ _ _ s.accept) .next

end byteCtx

/-- Settles O29: by the check of VALID, the operations a command is made of, and the access table. -/
theorem bitStreamCommandsNeedTheirContextOnly : Obligations.BitStreamCommandsNeedTheirContextOnly := by
  refine ⟨fun i s hlo hhi => ⟨fun hne hunbound => ?unbound, fun c => exec_commutes_withByteCtx hlo s⟩,
    fun i s t h hunbound hbound => ?binds⟩
  case unbound => exact ⟨exec_of_bitCtx_unbound ⟨by omega, hhi⟩ hunbound, rfl⟩
  case binds =>
    obtain ⟨-, -, -, -, hbinding, -⟩ := registersChangeOnlyByTheirCommands i s t h
    exact hbinding fun heq => by simp [hunbound, hbound] at heq

/-! #### Construction, navigation and inspection (R201 to R203, R214 to R218) -/

/-- Settles O30: the check is the one the rule states, and the memory is that of `Memory.initWindow`. -/
theorem btInitBindsTheWindow : Obligations.BtInitBindsTheWindow := by
  intro mode base len s
  split
  · next hfits =>
    obtain ⟨hfits, hcap⟩ := hfits
    refine ⟨s.mem.initWindow mode base len, if_pos ⟨decide_eq_true hfits, hcap⟩, ?decode, ?encode⟩
    case decode => rintro rfl; rfl
    case encode => rintro rfl; exact ⟨rfl, Memory.read_zeroFill _ _ _⟩
  · next hout => exact if_neg (by simpa [windowFits, Config.maxBitCap] using hout)

/-- Settles O31: the two cases of forward and of back; a position in the window fits CUR. -/
theorem bitCursorMovesWithinItsBounds : Obligations.BitCursorMovesWithinItsBounds := by
  intro n s hs hvalid
  have hcur : s.bitCtx.cur.toNat < 2 ^ 32 := s.bitCtx.cur.isLt
  have hlen : s.bitCtx.bitLen < 2 ^ 32 := Context.bitLen_lt hs.bitInv
  have hforward : exec (.btForward n) s
      = .next { s.accept with bitCtx := s.bitCtx.forward (8 * s.bitCtx.len.toNat) n } := if_pos hvalid
  have hback : exec (.btBack n) s = .next { s.accept with bitCtx := s.bitCtx.back n } := if_pos hvalid
  constructor
  · obtain ⟨hlt, heq⟩ | ⟨hge, heq⟩ := forward_cases s.bitCtx (8 * s.bitCtx.len.toNat) n <;> rw [heq] at hforward
    · rw [if_pos hlt]; exact ⟨_, hforward, zext32_toNat_of_lt (hlt.trans hlen)⟩
    · rw [if_neg (not_lt.2 hge)]; exact hforward
  · obtain ⟨hle, heq⟩ | ⟨hgt, heq⟩ := back_cases s.bitCtx n <;> rw [heq] at hback
    · rw [if_pos hle]; exact ⟨_, hback, zext32_toNat_of_lt (by omega)⟩
    · rw [if_neg (not_le.2 hgt)]; exact hback

/-- Settles O37: a query answers a register of the bound context, or its byte position. -/
theorem bitStreamQueriesAnswerTheContext : Obligations.BitStreamQueriesAnswerTheContext := by
  intro s hvalid
  have hbytePos : zext32 (s.bitCtx.cur.toNat / 8) = s.bitCtx.cur / 8 := by
    rw [← zext32_toNat_word (s.bitCtx.cur / 8), BitVec.toNat_udiv]
    rfl
  rw [← BitVec.ofNat_toNat 32 s.bitCtx.err, ← hbytePos]
  exact ⟨if_pos hvalid, if_pos hvalid, if_pos hvalid, if_pos hvalid, if_pos hvalid⟩

/-! #### The bits of a field (R64, R209) -/

/-- One bit more at the end of a field is one bit more at the low end of its value. -/
theorem fieldBits_succ (m : Memory) (base p n : Nat) :
    fieldBits m base p (n + 1) = Nat.bit (readBit m base (p + n)) (fieldBits m base p n) := by
  have hweight : ∀ i ∈ List.range n, (readBit m base (p + i)).toNat <<< (n + 1 - 1 - i)
      = 2 * ((readBit m base (p + i)).toNat <<< (n - 1 - i)) := by
    intro i hi
    have hpow : n + 1 - 1 - i = n - 1 - i + 1 := by have := List.mem_range.1 hi; omega
    rw [hpow, Nat.shiftLeft_succ]
  rw [fieldBits, List.range_succ, List.map_append, List.sum_append, List.map_congr_left hweight, List.sum_map_mul_left,
    Nat.bit_val]
  simp [fieldBits]

/-- Bit j of a field's value is the field's bit j from its end. -/
theorem fieldBits_testBit (m : Memory) (base p n j : Nat) :
    (fieldBits m base p n).testBit j = (decide (j < n) && readBit m base (p + (n - 1 - j))) := by
  induction n generalizing j with
  | zero => simp [fieldBits]
  | succ n ih =>
    rw [fieldBits_succ]
    cases j with
    | zero => simp
    | succ j =>
      have hpos : n + 1 - 1 - (j + 1) = n - 1 - j := by omega
      rw [Nat.testBit_bit_succ, ih, hpos]
      simp

/-- A field of n bits is a number below 2^n. -/
theorem fieldBits_lt (m : Memory) (base p n : Nat) : fieldBits m base p n < 2 ^ n :=
  Nat.lt_pow_two_of_testBit _ fun j hj => by
    rw [fieldBits_testBit, decide_eq_false (not_lt.2 hj), Bool.false_and]

/-- Two adjoining fields are one field, whose value has the second one's as its low bits. -/
theorem fieldBits_append (m : Memory) (base p k n : Nat) :
    fieldBits m base p (k + n) = fieldBits m base p k <<< n ||| fieldBits m base (p + k) n := by
  apply Nat.eq_of_testBit_eq
  intro j
  rw [Nat.testBit_or, Nat.testBit_shiftLeft, fieldBits_testBit, fieldBits_testBit, fieldBits_testBit]
  by_cases hj : j < n
  · have hpos : p + (k + n - 1 - j) = p + k + (n - 1 - j) := by omega
    simp [hj, hpos, Nat.lt_add_left k hj]
  · have hpos : k + n - 1 - j = k - 1 - (j - n) := by omega
    have hin : j < k + n ↔ j - n < k := by omega
    simp [hj, hpos, hin, not_lt.1 hj]

/-! #### The groups of a field (R206), read -/

/-- A field inside one byte is a slice of that byte (R207). -/
theorem getByteSlice_fieldBits (m : Memory) (base : Nat) {q n : Nat} (hn : 1 ≤ n) (hin : q % 8 + n ≤ 8) :
    (getByteSlice (m.read (base + q / 8)) (7 - q % 8) (8 - (q % 8 + n))).toNat = fieldBits m base q n := by
  apply Nat.eq_of_testBit_eq
  intro j
  rw [BitVec.testBit_toNat, getByteSlice_getLsbD, fieldBits_testBit, readBit]
  by_cases hj : j < n
  · have hbyte : (q + (n - 1 - j)) / 8 = q / 8 := by omega
    have hbit : 7 - (q + (n - 1 - j)) % 8 = min (7 - q % 8) (8 - (q % 8 + n)) + j := by omega
    rw [hbyte, hbit, decide_eq_true hj, decide_eq_true (by omega)]
  · rw [decide_eq_false hj, decide_eq_false (by omega), Bool.false_and, Bool.false_and]

/-- The bits of a byte from a position of the stream to the byte's end: a field's first group (R206). -/
theorem getByteSlice_firstGroup (m : Memory) (base p : Nat) :
    (getByteSlice (m.read (base + p / 8)) (7 - p % 8) 0).toNat = fieldBits m base p (8 - p % 8) := by
  have hend : 8 - (p % 8 + (8 - p % 8)) = 0 := by omega
  rw [← getByteSlice_fieldBits m base (by omega) (by omega), hend]

/-- The first n bits of a byte: a field's last group (R206). -/
theorem getByteSlice_lastGroup (m : Memory) (base o : Nat) {n : Nat} (hn : 1 ≤ n) (hn8 : n ≤ 8) :
    (getByteSlice (m.read (base + o)) 7 (8 - n)).toNat = fieldBits m base (8 * o) n := by
  have hbyte : 8 * o / 8 = o := by omega
  have hbit : 8 * o % 8 = 0 := by omega
  rw [← getByteSlice_fieldBits m base hn (by omega), hbyte, hbit, Nat.zero_add]

/-- A byte is the field of its eight bits. -/
theorem read_toNat_eq_fieldBits (m : Memory) (base o : Nat) :
    (m.read (base + o)).toNat = fieldBits m base (8 * o) 8 := by
  rw [← getByteSlice_lastGroup m base o (by decide) le_rfl, Nat.sub_self, getByteSlice_whole]

/-- Whole bytes folded after a field that ends at a byte boundary make the field longer (R207). -/
theorem foldBE_fieldBits (m : Memory) (base p : Nat) {w o : Nat} (hend : p + w = 8 * o) (k : Nat) :
    foldBE (fieldBits m base p w) ((List.range k).map fun j => m.read (base + o + j))
      = fieldBits m base p (w + 8 * k) := by
  induction k with
  | zero => rfl
  | succ k ih =>
    have hpos : p + (w + 8 * k) = 8 * (o + k) := by omega
    have hwidth : w + 8 * (k + 1) = w + 8 * k + 8 := by omega
    have hbyte := read_toNat_eq_fieldBits m base (o + k)
    rw [← Nat.add_assoc] at hbyte
    rw [List.range_succ, List.map_append, List.map_singleton, foldBE_append_byte, ih, hwidth,
      fieldBits_append m base p (w + 8 * k) 8, hpos, ← hbyte, ← Nat.shiftLeft_add_eq_or_of_lt (BitVec.isLt _),
      Nat.shiftLeft_eq]

/-- The groups of a field of more than one byte (R206): the first ends at a byte boundary, whole bytes follow up to the last
byte, and the widths make n. -/
theorem field_groups {p n : Nat} (hn : 1 ≤ n) (hmore : p / 8 ≠ (p + n - 1) / 8) :
    p + (8 - p % 8) = 8 * (p / 8 + 1)
      ∧ p + (8 - p % 8 + 8 * ((p + n - 1) / 8 - p / 8 - 1)) = 8 * ((p + n - 1) / 8)
      ∧ 8 - p % 8 + 8 * ((p + n - 1) / 8 - p / 8 - 1) + ((p + n - 1) % 8 + 1) = n := by
  omega

/-- FieldGet answers the bits of the field, where its bytes are in MEM (R207, R209). -/
theorem fieldGet_eq {m : Memory} {base p n : Nat} (hn : 1 ≤ n) (hin : base + (p + n + 7) / 8 ≤ m.size) :
    fieldGet m base p n = .ok (fieldBits m base p n) := by
  rw [fieldGet, memRead_ok (by omega)]
  simp only [bind, Except.bind, pure, Except.pure]
  split
  · next hone =>
    have hend : 7 - (p + n - 1) % 8 = 8 - (p % 8 + n) := by omega
    rw [hend, getByteSlice_fieldBits m base hn (by omega)]
  · next hmore =>
    obtain ⟨hfirst, hlast, hwidth⟩ := field_groups hn hmore
    rw [readBytes_ok (by omega), memRead_ok (by omega)]
    dsimp only
    rw [getByteSlice_firstGroup, Nat.add_assoc base, foldBE_fieldBits m base p hfirst,
      getByteSlice_lastGroup m base _ (Nat.le_add_left 1 _) (by omega), ← hlast, ← fieldBits_append, hwidth]

/-! #### The groups of a field (R206), written -/

/-- The bits of a window that holds a written field, by their stream positions (R17). -/
theorem fieldWritten.readBit_eq {m m' : Memory} {base p n v : Nat} (h : fieldWritten m m' base p n v) (q : Nat) :
    readBit m' base q = if p ≤ q ∧ q < p + n then v.testBit (n - 1 - (q - p)) else readBit m base q := by
  have hpos : streamPos base (base + q / 8) (7 - q % 8) = q := by simp only [streamPos]; omega
  rw [readBit, h.2 _ _ (by omega), hpos, readBit]
  simp

/-- The field read back is the value, cut to the field's width. -/
theorem fieldWritten.fieldBits_eq {m m' : Memory} {base p n v : Nat} (h : fieldWritten m m' base p n v) :
    fieldBits m' base p n = v % 2 ^ n := by
  apply Nat.eq_of_testBit_eq
  intro j
  rw [fieldBits_testBit, Nat.testBit_mod_two_pow, h.readBit_eq]
  by_cases hj : j < n
  · have hpos : n - 1 - (p + (n - 1 - j) - p) = j := by omega
    rw [if_pos (by omega), hpos]
  · rw [decide_eq_false hj, Bool.false_and, Bool.false_and]

/-- Only the low n bits of a value are written. -/
theorem fieldWritten.of_trunc {m m' : Memory} {base p n v : Nat} (h : fieldWritten m m' base p n (trunc n v)) :
    fieldWritten m m' base p n v := by
  refine ⟨h.1, fun a j hj => ?_⟩
  rw [h.2 a j hj]
  split
  · rw [trunc, Nat.testBit_mod_two_pow, decide_eq_true (by omega), Bool.true_and]
  · rfl

/-- Two adjoining fields written are one field written, whose value has the second one's as its low bits. -/
theorem fieldWritten.append {m m₁ m₂ : Memory} {base p k n v : Nat} (h₁ : fieldWritten m m₁ base p k (v >>> n))
    (h₂ : fieldWritten m₁ m₂ base (p + k) n v) : fieldWritten m m₂ base p (k + n) v := by
  refine ⟨h₂.1.trans h₁.1, fun a j hj => ?_⟩
  rw [h₂.2 a j hj, h₁.2 a j hj, Nat.testBit_shiftRight]
  generalize streamPos base a j = q
  by_cases hsecond : base ≤ a ∧ p + k ≤ q ∧ q < p + k + n
  · have hbit : n - 1 - (q - (p + k)) = k + n - 1 - (q - p) := by omega
    rw [if_pos hsecond, if_pos (by omega), hbit]
  · rw [if_neg hsecond]
    by_cases hfirst : base ≤ a ∧ p ≤ q ∧ q < p + k
    · have hbit : n + (k - 1 - (q - p)) = k + n - 1 - (q - p) := by omega
      rw [if_pos hfirst, if_pos (by omega), hbit]
    · rw [if_neg hfirst, if_neg (by omega)]

/-- A field inside one byte is written by patching a slice of that byte (R208). -/
theorem patchByte_fieldWritten {m : Memory} (hm : m.wf) {base q n : Nat} (hn : 1 ≤ n) (hin : q % 8 + n ≤ 8)
    (hmem : base + q / 8 < m.size) (v : Nat) :
    ∃ m', patchByte m (base + q / 8) (7 - q % 8) (8 - (q % 8 + n)) v = .ok m' ∧ fieldWritten m m' base q n v := by
  refine ⟨_, patchByte_ok hmem _ _ _, rfl, fun a j hj => ?_⟩
  rw [Memory.read_write hm]
  split
  · next ha =>
    have hpos : streamPos base a j = 8 * (q / 8) + (7 - j) := by simp only [streamPos]; omega
    rw [setByteSlice_getLsbD _ _ _ _ hj, hpos, ha]
    by_cases hj' : min (7 - q % 8) (8 - (q % 8 + n)) ≤ j ∧ j ≤ min 7 (max (7 - q % 8) (8 - (q % 8 + n)))
    · have hbit : j - min (7 - q % 8) (8 - (q % 8 + n)) = n - 1 - (8 * (q / 8) + (7 - j) - q) := by omega
      rw [if_pos hj', if_pos (by omega), hbit]
    · rw [if_neg hj', if_neg (by omega)]
  · next ha => rw [if_neg (by simp only [streamPos]; omega)]

/-- A field's first group is written by patching the end of a byte (R208). -/
theorem patchByte_firstGroup {m : Memory} (hm : m.wf) {base p : Nat} (hmem : base + p / 8 < m.size) (v : Nat) :
    ∃ m', patchByte m (base + p / 8) (7 - p % 8) 0 v = .ok m' ∧ fieldWritten m m' base p (8 - p % 8) v := by
  have hend : 8 - (p % 8 + (8 - p % 8)) = 0 := by omega
  have hpatch := patchByte_fieldWritten hm (q := p) (n := 8 - p % 8) (by omega) (by omega) hmem v
  rwa [hend] at hpatch

/-- A field's last group is written by patching the beginning of a byte (R208). -/
theorem patchByte_lastGroup {m : Memory} (hm : m.wf) {base o n : Nat} (hn : 1 ≤ n) (hn8 : n ≤ 8)
    (hmem : base + o < m.size) (v : Nat) :
    ∃ m', patchByte m (base + o) 7 (8 - n) (trunc n v) = .ok m' ∧ fieldWritten m m' base (8 * o) n v := by
  have hbyte : 8 * o / 8 = o := by omega
  have hbit : 8 * o % 8 = 0 := by omega
  obtain ⟨m', hpatch, hw⟩ := patchByte_fieldWritten hm (base := base) (q := 8 * o) hn (by omega) (by rwa [hbyte])
    (trunc n v)
  rw [hbyte, hbit, Nat.zero_add] at hpatch
  exact ⟨m', hpatch, hw.of_trunc⟩

/-- The value's bytes, stored from a byte boundary on, are a field of whole bytes (R63). -/
theorem storesLeading.fieldWritten {m m' : Memory} {base o k v : Nat} (h : storesLeading m m' (base + o) k k v) :
    fieldWritten m m' base (8 * o) (8 * k) v := by
  refine ⟨h.1, fun a j hj => ?_⟩
  rw [h.2, streamPos]
  by_cases ha : base + o ≤ a ∧ a < base + o + k
  · have hbit : 8 * (k - 1 - (a - (base + o))) + j = 8 * k - 1 - (8 * (a - base) + (7 - j) - 8 * o) := by omega
    have hpow : 256 ^ (k - 1 - (a - (base + o))) = 2 ^ (8 * (k - 1 - (a - (base + o)))) := by rw [pow_mul]; rfl
    rw [if_pos ha, if_pos (by omega), hpow, BitVec.getLsbD_ofNat, Nat.testBit_div_two_pow, decide_eq_true hj,
      Bool.true_and, Nat.add_comm, hbit]
  · rw [if_neg ha, if_neg (by omega)]

/-- A field's middle groups are written by storing the value's bytes (R208). -/
theorem writeBytes_middleGroups {m : Memory} (hm : m.wf) {base o k : Nat} (hmem : base + o + k ≤ m.size) (v : Nat) :
    ∃ m', writeBytes m (base + o) (bytesBE k v) = .ok m' ∧ fieldWritten m m' base (8 * o) (8 * k) v := by
  obtain ⟨m', hwrite, hstores⟩ := writeBytes_storesLeading hm (a := base + o) (k := k) (r := k) (v := v)
    (by rwa [min_self])
  rw [List.take_of_length_le (bytesBE_length k v).le] at hwrite
  rw [min_self] at hstores
  exact ⟨m', hwrite, hstores.fieldWritten⟩

/-- FieldSet writes the field, where its bytes are in MEM, and no other bit (R208, R209). -/
theorem fieldSet_fieldWritten {m : Memory} (hm : m.wf) {base p n : Nat} (hn : 1 ≤ n)
    (hin : base + (p + n + 7) / 8 ≤ m.size) (v : Nat) :
    ∃ m', fieldSet m base p n v = .ok m' ∧ fieldWritten m m' base p n v := by
  suffices h : ∃ m', fieldSet m base p n v = .ok m' ∧ fieldWritten m m' base p n (trunc n v) by
    obtain ⟨m', hset, hw⟩ := h
    exact ⟨m', hset, hw.of_trunc⟩
  unfold fieldSet
  dsimp only
  generalize trunc n v = v
  split
  · next hone =>
    have hend : 7 - (p + n - 1) % 8 = 8 - (p % 8 + n) := by omega
    rw [hend]
    exact patchByte_fieldWritten hm hn (by omega) (by omega) v
  · next hmore =>
    obtain ⟨hfirst, hlast, hwidth⟩ := field_groups hn hmore
    obtain ⟨m₁, hpatch₁, hw₁⟩ := patchByte_firstGroup hm (base := base) (p := p) (by omega)
      (v >>> ((p + n - 1) % 8 + 1 + 8 * ((p + n - 1) / 8 - p / 8 - 1)))
    obtain ⟨hsize₁, hwf₁⟩ := patchByte_wf hm hpatch₁
    obtain ⟨m₂, hwrite₂, hw₂⟩ := writeBytes_middleGroups hwf₁ (base := base) (o := p / 8 + 1)
      (k := (p + n - 1) / 8 - p / 8 - 1) (by omega) (v >>> ((p + n - 1) % 8 + 1))
    obtain ⟨hsize₂, hwf₂⟩ := writeBytes_wf hwf₁ hwrite₂
    obtain ⟨m₃, hpatch₃, hw₃⟩ := patchByte_lastGroup hwf₂ (base := base) (o := (p + n - 1) / 8)
      (Nat.le_add_left 1 ((p + n - 1) % 8)) (by omega) (by omega) v
    rw [Nat.shiftRight_add] at hw₁
    rw [← hfirst] at hw₂
    rw [← hlast] at hw₃
    refine ⟨m₃, ?_, hwidth ▸ (hw₁.append hw₂).append hw₃⟩
    rw [hpatch₁]
    simp only [bind, Except.bind, Nat.add_assoc base, hwrite₂]
    exact hpatch₃

/-- Settles O32: both directions of the field algorithm, at any width from 1 on. -/
theorem fieldAlgorithmIsBitSerial : Obligations.FieldAlgorithmIsBitSerial := by
  intro m base p n hm hn _ hin
  exact ⟨fieldGet_eq hn hin, fieldSet_fieldWritten hm hn hin⟩

/-! #### Gets and sets (R204, R205, R210 to R213) -/

theorem getFailure_of_zero {n p bits : Nat} (hzero : n = 0) : getFailure n p bits = some .getZeroWidth := if_pos hzero

theorem setFailure_of_zero {n p bits : Nat} (hzero : n = 0) : setFailure n p bits = some .setZeroWidth := if_pos hzero

/-- A width above 32 and a field past the window are one failure (R204, R205). -/
theorem getFailure_of_over {n p bits : Nat} (hpos : n ≠ 0) (hover : 32 < n ∨ bits < p + n) :
    getFailure n p bits = some .getOverrun := by
  rw [getFailure, if_neg hpos]
  split
  · rfl
  · next hle => exact if_pos (hover.resolve_left hle)

/-- A width above 32 and a field past the window are one failure (R204, R205). -/
theorem setFailure_of_over {n p bits : Nat} (hpos : n ≠ 0) (hover : 32 < n ∨ bits < p + n) :
    setFailure n p bits = some .setOverrun := by
  rw [setFailure, if_neg hpos]
  split
  · rfl
  · next hle => exact if_pos (hover.resolve_left hle)

section field

variable {s : State} {n p : Nat}

theorem bitGet_of_failure {e : ErrorKind} (he : getFailure n p s.bitCtx.bitLen = some e) (after : Context) :
    bitGet n p after s = .next { s with bitCtx := s.bitCtx.setErr e, result := 0 } := by
  rw [bitGet, he]

theorem bitSet_of_failure {e : ErrorKind} (he : setFailure n p s.bitCtx.bitLen = some e) (v : Nat) (after : Context) :
    bitSet n p v after s = .next { s with bitCtx := s.bitCtx.setErr e } := by
  rw [bitSet, he]

/-- The bytes of a field inside BT's window are in MEM (R39). -/
theorem State.Inv.field_le (hs : s.Inv) (hvalid : s.bitCtx.valid = true) (hfit : p + n ≤ s.bitCtx.bitLen) :
    s.bitCtx.base.toNat + (p + n + 7) / 8 ≤ s.mem.size := by
  obtain ⟨-, -, -, hwindow⟩ := hs.bitInv
  have := hwindow hvalid
  simp only [Context.bitLen] at hfit
  omega

/-- A get whose field fits answers the field. -/
theorem bitGet_of_fits (hs : s.Inv) (hvalid : s.bitCtx.valid = true) (hn : 1 ≤ n) (hn32 : n ≤ 32)
    (hfit : p + n ≤ s.bitCtx.bitLen) (after : Context) :
    bitGet n p after s =
      .next { s with bitCtx := after, result := zext32 (fieldBits s.mem s.bitCtx.base.toNat p n) } := by
  rw [bitGet, getFailure_none.2 ⟨hn, hn32, hfit⟩, fieldGet_eq hn (hs.field_le hvalid hfit)]
  rfl

/-- A set whose field fits writes the field. -/
theorem bitSet_of_fits (hs : s.Inv) (hvalid : s.bitCtx.valid = true) (hn : 1 ≤ n) (hn32 : n ≤ 32)
    (hfit : p + n ≤ s.bitCtx.bitLen) (v : Nat) (after : Context) :
    ∃ m, bitSet n p v after s = .next { s with bitCtx := after, mem := m }
      ∧ fieldWritten s.mem m s.bitCtx.base.toNat p n v := by
  obtain ⟨m, hset, hw⟩ := fieldSet_fieldWritten hs.mem_wf hn (hs.field_le hvalid hfit) v
  exact ⟨m, by rw [bitSet, setFailure_none.2 ⟨hn, hn32, hfit⟩, hset]; rfl, hw⟩

end field

/-- A field of a width of up to 32 fits RESULT. -/
theorem zext32_fieldBits_toNat (m : Memory) (base p : Nat) {n : Nat} (hn : n ≤ 32) :
    (zext32 (fieldBits m base p n)).toNat = fieldBits m base p n :=
  zext32_toNat_of_lt ((fieldBits_lt m base p n).trans_le (Nat.pow_le_pow_right (by decide) hn))

/-- Settles O33: the get at the cursor; past the field the cursor is still within 8L. -/
theorem getBitReadsTheFieldAtTheCursor : Obligations.GetBitReadsTheFieldAtTheCursor := by
  intro n s hs hvalid
  have hexec : exec (.btGetBit n) s
      = bitGet n s.bitCtx.cur.toNat (s.bitCtx.moveTo (s.bitCtx.cur.toNat + n)) s.accept := requireBT_of_valid hvalid _
  have hlen : 8 * s.bitCtx.len.toNat < 2 ^ 32 := Context.bitLen_lt hs.bitInv
  rw [hexec]
  split
  · next hzero => exact bitGet_of_failure (getFailure_of_zero hzero) _
  · next hpos =>
    split
    · next hover =>
      have hover : 32 < n ∨ 8 * s.bitCtx.len.toNat < s.bitCtx.cur.toNat + n := by omega
      exact bitGet_of_failure (s := s.accept) (getFailure_of_over hpos hover) _
    · next hin =>
      have hn32 : n ≤ 32 := by omega
      have hfit : s.bitCtx.cur.toNat + n ≤ 8 * s.bitCtx.len.toNat := by omega
      exact ⟨_, _, bitGet_of_fits hs.accept hvalid (Nat.one_le_iff_ne_zero.2 hpos) hn32 hfit _,
        zext32_toNat_of_lt (hfit.trans_lt hlen), zext32_fieldBits_toNat _ _ _ hn32⟩

/-- Settles O34: the set at the cursor; past the field the cursor is still within 8L. -/
theorem setBitWritesTheFieldAtTheCursor : Obligations.SetBitWritesTheFieldAtTheCursor := by
  intro n v s hs hvalid
  have hexec : exec (.btSetBit n v) s
      = bitSet n s.bitCtx.cur.toNat v.toNat (s.bitCtx.moveTo (s.bitCtx.cur.toNat + n)) s.accept :=
    requireBT_of_valid hvalid _
  have hlen : 8 * s.bitCtx.len.toNat < 2 ^ 32 := Context.bitLen_lt hs.bitInv
  rw [hexec]
  split
  · next hzero => exact bitSet_of_failure (setFailure_of_zero hzero) _ _
  · next hpos =>
    split
    · next hover => exact bitSet_of_failure (s := s.accept) (setFailure_of_over hpos hover) _ _
    · next hin =>
      have hfit : s.bitCtx.cur.toNat + n ≤ 8 * s.bitCtx.len.toNat := by omega
      obtain ⟨m, hset, hw⟩ := bitSet_of_fits hs.accept hvalid (Nat.one_le_iff_ne_zero.2 hpos) (by omega) hfit v.toNat
        (s.bitCtx.moveTo (s.bitCtx.cur.toNat + n))
      exact ⟨_, m, hset, zext32_toNat_of_lt (hfit.trans_lt hlen), hw⟩

/-- Settles O35: the get at the position, which leaves the context as it is. -/
theorem getBitByPosReadsTheFieldAtAPosition : Obligations.GetBitByPosReadsTheFieldAtAPosition := by
  intro n pos s hs hvalid
  have hexec : exec (.btGetBitByPos n pos) s = bitGet n pos.toNat s.bitCtx s.accept := requireBT_of_valid hvalid _
  rw [hexec]
  split
  · next hzero => exact bitGet_of_failure (getFailure_of_zero hzero) _
  · next hpos =>
    split
    · next hover => exact bitGet_of_failure (s := s.accept) (getFailure_of_over hpos hover) _
    · next hin =>
      have hn32 : n ≤ 32 := by omega
      have hfit : pos.toNat + n ≤ 8 * s.bitCtx.len.toNat := by omega
      exact ⟨_, bitGet_of_fits hs.accept hvalid (Nat.one_le_iff_ne_zero.2 hpos) hn32 hfit _,
        zext32_fieldBits_toNat _ _ _ hn32⟩

/-- Settles O36: the set at the position, which leaves the context as it is. -/
theorem setBitByPosWritesTheFieldAtAPosition : Obligations.SetBitByPosWritesTheFieldAtAPosition := by
  intro n pos v s hs hvalid
  have hexec : exec (.btSetBitByPos n pos v) s = bitSet n pos.toNat v.toNat s.bitCtx s.accept :=
    requireBT_of_valid hvalid _
  rw [hexec]
  split
  · next hzero => exact bitSet_of_failure (setFailure_of_zero hzero) _ _
  · next hpos =>
    split
    · next hover => exact bitSet_of_failure (s := s.accept) (setFailure_of_over hpos hover) _ _
    · next hin =>
      have hfit : pos.toNat + n ≤ 8 * s.bitCtx.len.toNat := by omega
      exact bitSet_of_fits hs.accept hvalid (Nat.one_le_iff_ne_zero.2 hpos) (by omega) hfit v.toNat s.bitCtx

/-! #### The end of the window (R219) and set then get (R220) -/

/-- Settles O38: by the rules of the move and of the get. -/
theorem forwardStopsOneBitShortOfTheEnd : Obligations.ForwardStopsOneBitShortOfTheEnd := by
  intro n s hs hvalid hcur hpos
  have hzero : s.bitCtx.cur.toNat = 0 := by rw [hcur]; rfl
  have hmove := (bitCursorMovesWithinItsBounds n s hs hvalid).1
  refine ⟨fun hn => ?short, fun hn => ?full⟩
  case short =>
    rw [if_pos (by omega)] at hmove
    obtain ⟨c, hforward, hc⟩ := hmove
    obtain rfl : c = n := BitVec.eq_of_toNat_eq (by omega)
    have hget := getBitReadsTheFieldAtTheCursor 1 _ (exec_keepsInv _ _ _ hs hforward) hvalid
    rw [if_neg (by decide), if_neg (by dsimp only; omega)] at hget
    obtain ⟨d, r, hget, hd, -⟩ := hget
    exact ⟨_, hforward, rfl, _, hget, by dsimp only at hd ⊢; omega, rfl⟩
  case full => rwa [if_neg (by omega)] at hmove

/-- Settles O39: the field written is the field read, at the position and where back returns to it. -/
theorem setThenGetGivesTheValue : Obligations.SetThenGetGivesTheValue := by
  intro n p v k s hs hvalid hn hn32 hfit hv hk
  have hn0 : n ≠ 0 := by omega
  refine ⟨?positional, fun hcur => ?cursor⟩
  case positional =>
    have hset := setBitByPosWritesTheFieldAtAPosition n p v s hs hvalid
    rw [if_neg hn0, if_neg (by omega)] at hset
    obtain ⟨m, hset, hw⟩ := hset
    have hget := getBitByPosReadsTheFieldAtAPosition n p _ (exec_keepsInv _ _ _ hs hset) hvalid
    rw [if_neg hn0, if_neg (by dsimp only [State.accept_bitCtx]; omega)] at hget
    obtain ⟨r, hget, hr⟩ := hget
    refine ⟨_, _, hset, hget, BitVec.eq_of_toNat_eq ?_, rfl⟩
    exact hr.trans (hw.fieldBits_eq.trans (Nat.mod_eq_of_lt hv))
  case cursor =>
    subst hcur
    have hset := setBitWritesTheFieldAtTheCursor n v s hs hvalid
    rw [if_neg hn0, if_neg (by omega)] at hset
    obtain ⟨c, m, hset, hc, hw⟩ := hset
    have hinv := exec_keepsInv _ _ _ hs hset
    have hback := (bitCursorMovesWithinItsBounds k _ hinv hvalid).2
    rw [if_pos (by dsimp only; omega)] at hback
    obtain ⟨d, hback, hd⟩ := hback
    obtain rfl : d = s.bitCtx.cur := BitVec.eq_of_toNat_eq (by dsimp only at hd; omega)
    have hget := getBitReadsTheFieldAtTheCursor n _ (exec_keepsInv _ _ _ hinv hback) hvalid
    rw [if_neg hn0, if_neg (by dsimp only [State.accept_bitCtx]; omega)] at hget
    obtain ⟨e, r, hget, he, hr⟩ := hget
    obtain rfl : e = c := BitVec.eq_of_toNat_eq (he.trans hc.symm)
    refine ⟨_, _, _, hset, hback, hget, BitVec.eq_of_toNat_eq ?_, rfl⟩
    exact hr.trans (hw.fieldBits_eq.trans (Nat.mod_eq_of_lt hv))

end Sys2Proof.Machine

/-! ### Causes, errors and the step (R250 to R262)

A command that decodes is ILLEGAL for the causes I3 to I7, which its opcode and its operands decide (`State.rejects`). A
rejected command changes STATUS only (`exec_of_rejects`); from every state of the invariant any other one goes on and
leaves the STATUS of an accepted command (`exec_proceeds`). I1 and I2 are the commands that do not decode. -/

namespace Sys2Proof.Machine

variable {i : Instr} {s t : State} {c : Command}

/-! #### A step (R261) -/

theorem runCommand_of_decode (h : decode c = .instr i) : runCommand c s = exec i s := by rw [runCommand, h]

theorem runCommand_of_not_decode {e : DecodeError} (h : decode c = .illegal e) : runCommand c s = .next s.illegal := by
  rw [runCommand, h]

theorem step_of_decode {rest : List HostMove} (hhost : s.host = .command c :: rest) (h : decode c = .instr i) :
    step s = exec i { s with host := rest } :=
  (step_of_host_cons hhost).trans (runCommand_of_decode h)

theorem decode_of_decodeTableWord {nbits w : Nat} (h : decodeTableWord nbits w = some i) :
    decode (commandOfBits nbits w) = .instr i := by
  unfold decodeTableWord at h
  split at h
  · next hdecode => rw [hdecode, Option.some.inj h]
  · cases h

/-- Settles O8: a step of a command is `runCommand`, and withFetchWord puts the command in front of the host's moves. -/
theorem stepRunsTheDecodedCommand : Obligations.StepRunsTheDecodedCommand := by
  refine ⟨fun s c rest i => step_of_decode, fun s c rest e hhost hdecode => ?illegal, fun s nbits w i h => ?placed⟩
  case illegal =>
    exact ⟨_, (step_of_host_cons hhost).trans (runCommand_of_not_decode hdecode), rfl, State.illegal_ill _,
      State.illegal_ills _⟩
  case placed => exact step_of_decode (s := s.withFetchWord nbits w) rfl (decode_of_decodeTableWord h)

/-! #### Going on (R62, R262) -/

/-- The operation, begun in s, goes on; it keeps STATUS, the host's pending moves and the size of MEM. -/
def Proceeds (o : Out) (s : State) : Prop :=
  ∃ t, o = .next t ∧ t.status = s.status ∧ t.host = s.host ∧ t.mem.size = s.mem.size

theorem Proceeds.next
    (h : t.status = s.status ∧ t.host = s.host ∧ t.mem.size = s.mem.size := by exact ⟨rfl, rfl, rfl⟩) :
    Proceeds (.next t) s := ⟨t, rfl, h⟩

/-- A Byte Stream command on a bound BY proceeds as its rule does (R150). -/
theorem Proceeds.requireBY {k : State → Out} (hvalid : s.byteCtx.valid = true) (hk : Proceeds (k s.accept) s.accept) :
    Proceeds (requireBY s k) s.accept := by
  rwa [requireBY_of_valid hvalid]

/-- A Bit Stream command on a bound BT proceeds as its rule does (R200). -/
theorem Proceeds.requireBT {k : State → Out} (hvalid : s.bitCtx.valid = true) (hk : Proceeds (k s.accept) s.accept) :
    Proceeds (requireBT s k) s.accept := by
  rwa [requireBT_of_valid hvalid]

section byteStream

variable (hs : s.Inv) (hvalid : s.byteCtx.valid = true)
include hs hvalid

theorem seqGet_proceeds (k : Nat) : Proceeds (seqGet k s) s := by
  by_cases hfit : s.byteCtx.cur.toNat + k ≤ s.byteCtx.len.toNat
  · rw [seqGet_of_fits hs hvalid hfit]; exact .next
  · rw [seqGet_of_overruns hfit]; exact .next

theorem seqSet_proceeds (k v : Nat) : Proceeds (seqSet k v s) s := by
  obtain ⟨m, ⟨hsize, -⟩, hset⟩ := seqSet_eq hs hvalid k v
  rw [hset]
  split <;> exact .next ⟨rfl, rfl, hsize⟩

theorem posGet_proceeds (k pos : Nat) : Proceeds (posGet k pos s) s := by
  by_cases hfit : pos + k ≤ s.byteCtx.len.toNat
  · rw [posGet_of_fits hs hvalid hfit]; exact .next
  · rw [posGet, if_pos (not_le.1 hfit)]; exact .next

theorem posSet_proceeds (k pos v : Nat) : Proceeds (posSet k pos v s) s := by
  by_cases hfit : pos + k ≤ s.byteCtx.len.toNat
  · obtain ⟨m, hset, hsize, -⟩ := posSet_storesLeading hs hvalid hfit v
    rw [hset]; exact .next ⟨rfl, rfl, hsize⟩
  · rw [posSet, if_pos (not_le.1 hfit)]; exact .next

theorem exec_bySetByteSlice_proceeds (b e : Nat) (v : Word) : Proceeds (exec (.bySetByteSlice b e v) s) s.accept := by
  have hpatch := setByteSlicePatchesTheByteBeforeTheCursor b e v s hs hvalid
  split at hpatch
  · rw [hpatch]; exact .next
  · obtain ⟨m, hexec, hsize, -⟩ := hpatch
    rw [hexec]; exact .next ⟨rfl, rfl, hsize⟩

end byteStream

section bitStream

variable (hs : s.Inv) (hvalid : s.bitCtx.valid = true)
include hs hvalid

theorem bitGet_proceeds (n p : Nat) (after : Context) : Proceeds (bitGet n p after s) s := by
  cases hcheck : getFailure n p s.bitCtx.bitLen with
  | some e => rw [bitGet_of_failure hcheck]; exact .next
  | none =>
    obtain ⟨hn, hn32, hfit⟩ := getFailure_none.1 hcheck
    rw [bitGet_of_fits hs hvalid hn hn32 hfit]; exact .next

theorem bitSet_proceeds (n p v : Nat) (after : Context) : Proceeds (bitSet n p v after s) s := by
  cases hcheck : setFailure n p s.bitCtx.bitLen with
  | some e => rw [bitSet_of_failure hcheck]; exact .next
  | none =>
    obtain ⟨hn, hn32, hfit⟩ := setFailure_none.1 hcheck
    obtain ⟨m, hset, hsize, -⟩ := bitSet_of_fits hs hvalid hn hn32 hfit v after
    rw [hset]; exact .next ⟨rfl, rfl, hsize⟩

end bitStream

/-! #### The causes that a decoded command can have (R259) -/

/-- A cause I3 to I7 holds of the instruction. -/
def State.rejects (s : State) (i : Instr) : Prop :=
  (0x11 ≤ op i ∧ op i ≤ 0x24 ∧ s.byteCtx.valid = false)
    ∨ (0x31 ≤ op i ∧ op i ≤ 0x3B ∧ s.bitCtx.valid = false)
    ∨ (opUsesMode (op i) ∧ s.mem.size < i.operands.1.toNat + i.operands.2.toNat)
    ∨ (op i = 0x30 ∧ 2 ^ 29 - 1 < i.operands.2.toNat)
    ∨ (op i = 0x20
        ∧ (s.byteCtx.len.toNat < s.byteCtx.cur.toNat + i.operands.1.toNat ∨ 2 ^ 29 - 1 < i.operands.1.toNat))

/-- The commands that bind a context, by their opcodes (R94). -/
theorem eq_of_op_binds (i : Instr) : (op i = 0x10 → ∃ mode base len, i = .byInit mode base len)
    ∧ (op i = 0x30 → ∃ mode base len, i = .btInit mode base len) ∧ (op i = 0x20 → ∃ n, i = .byGetBitStream n) := by
  cases i <;> simp [op, Instr.opcode]

/-- A rejected command is ILLEGAL. -/
theorem exec_of_rejects (h : s.rejects i) : exec i s = .next s.illegal := by
  obtain ⟨hbyInit, hbtInit, hhandoff⟩ := eq_of_op_binds i
  obtain ⟨hlo, hhi, hunbound⟩ | ⟨hlo, hhi, hunbound⟩ | ⟨hop | hop, hout⟩ | ⟨hop, hcap⟩ | ⟨hop, hout⟩ := h
  · exact exec_of_byteCtx_unbound ⟨hlo, hhi⟩ hunbound
  · exact exec_of_bitCtx_unbound ⟨hlo, hhi⟩ hunbound
  · obtain ⟨mode, base, len, rfl⟩ := hbyInit hop
    exact if_neg fun hfits => absurd (of_decide_eq_true hfits) (not_le.2 hout)
  · obtain ⟨mode, base, len, rfl⟩ := hbtInit hop
    exact if_neg fun hfits => absurd (of_decide_eq_true hfits.1) (not_le.2 hout)
  · obtain ⟨mode, base, len, rfl⟩ := hbtInit hop
    exact if_neg fun hfits => absurd hfits.2 (not_le.2 hcap)
  · obtain ⟨n, rfl⟩ := hhandoff hop
    exact byGetBitStream_of_not_fits fun hfits => hout.elim (not_lt.2 hfits.1) (not_lt.2 hfits.2)

/-- A command that is not rejected is accepted: it proceeds from `s.accept` (R260, R262). -/
theorem exec_proceeds (hs : s.Inv) (h : ¬ s.rejects i) : Proceeds (exec i s) s.accept := by
  simp only [State.rejects, not_or] at h
  obtain ⟨hunboundBY, hunboundBT, hwindow, hcap, hhandoff⟩ := h
  have hby (hop : 0x11 ≤ op i ∧ op i ≤ 0x24 := by simp [op, Instr.opcode]) : s.byteCtx.valid = true :=
    Bool.of_not_eq_false fun hv => hunboundBY ⟨hop.1, hop.2, hv⟩
  have hbt (hop : 0x31 ≤ op i ∧ op i ≤ 0x3B := by simp [op, Instr.opcode]) : s.bitCtx.valid = true :=
    Bool.of_not_eq_false fun hv => hunboundBT ⟨hop.1, hop.2, hv⟩
  cases i with
  | slGetByteSlice _ _ _ | slSetByteSlice _ _ _ _ | slGetShortSlice _ _ _ | slGetIntSlice _ _ _ => exact .next
  | byInit mode base len =>
    have hfits : windowFits s.mem base len = true := decide_eq_true (not_lt.1 fun hout => hwindow ⟨.inl rfl, hout⟩)
    exact ⟨_, if_pos hfits, rfl, rfl, Memory.initWindow_size _ _ _ _⟩
  | btInit mode base len =>
    have hfits : windowFits s.mem base len = true := decide_eq_true (not_lt.1 fun hout => hwindow ⟨.inr rfl, hout⟩)
    have hsmall : len.toNat ≤ Config.maxBitCap := not_lt.1 fun hover => hcap ⟨rfl, hover⟩
    exact ⟨_, if_pos ⟨hfits, hsmall⟩, rfl, rfl, Memory.initWindow_size _ _ _ _⟩
  | byGetBitStream n =>
    obtain ⟨hfit, hsmall⟩ := not_or.1 fun hout => hhandoff ⟨rfl, hout⟩
    obtain ⟨base, draws, heq, -⟩ := bindBitStream_eq (byteAddr s s.byteCtx.cur.toNat) n s.accept
    rw [byGetBitStream_of_fits (n := n) hby (not_lt.1 hfit) (not_lt.1 hsmall), heq]
    exact .next
  | byForward _ | byBack _ | byGetPos | byGetError | byGetLength | byGetBuffer =>
    exact ⟨_, if_pos hby, rfl, rfl, rfl⟩
  | btForward _ | btBack _ | btGetPos | btGetBytePos | btGetError | btGetLength | btGetBuffer =>
    exact ⟨_, if_pos hbt, rfl, rfl, rfl⟩
  | byGetByte | byGetWord | byGetDword => exact .requireBY hby (seqGet_proceeds hs.accept hby _)
  | bySetByte _ | bySetWord _ | bySetDword _ => exact .requireBY hby (seqSet_proceeds hs.accept hby _ _)
  | bySetByteSlice b e v => exact exec_bySetByteSlice_proceeds hs hby b e v
  | byGetByteByPos _ | byGetWordByPos _ | byGetDwordByPos _ =>
    exact .requireBY hby (posGet_proceeds hs.accept hby _ _)
  | bySetByteByPos _ _ | bySetWordByPos _ _ | bySetDwordByPos _ _ =>
    exact .requireBY hby (posSet_proceeds hs.accept hby _ _ _)
  | btGetBit _ | btGetBitByPos _ _ => exact .requireBT hbt (bitGet_proceeds hs.accept hbt _ _ _)
  | btSetBit _ _ | btSetBitByPos _ _ _ => exact .requireBT hbt (bitSet_proceeds hs.accept hbt _ _ _ _)

/-- Settles O43: a rejected command is ILLEGAL, which changes STATUS only, and any other proceeds. -/
theorem noCommandTraps : Obligations.NoCommandTraps := by
  intro i s hs
  by_cases hrej : s.rejects i
  · exact ⟨s.illegal, exec_of_rejects hrej, rfl, rfl⟩
  · obtain ⟨t, hexec, -, hhost, hsize⟩ := exec_proceeds hs hrej
    exact ⟨t, hexec, hhost, hsize⟩

/-! #### The causes of a command (R259, R260) -/

/-- An INIT has both operand words of its command, and a handoff the first (R94). -/
theorem operands_of_binds (h : decode c = .instr i) :
    (opUsesMode (op i) → i.operands = (c.opa, c.opb)) ∧ (op i = 0x20 → i.operands.1 = c.opa) := by
  obtain ⟨r, hrow, -, rfl⟩ := decode_instr h
  have hmem := (rowOf_some hrow).1
  clear hrow h
  revert r
  simp [opTable, sliceRows, byteRows, bitRows, op, Instr.opcode, Instr.operands]

theorem op_of_decode (h : decode c = .instr i) : op i = opNumber c.cmd := by
  obtain ⟨r, hrow, -, rfl⟩ := decode_instr h
  obtain ⟨hmem, hop⟩ := rowOf_some hrow
  rw [op, build_opcode hmem, hop, opNumber_eq]

/-- The causes of a command that decodes are those of its instruction (R259). -/
theorem illegalCause_iff_rejects (h : decode c = .instr i) : illegalCause s c ↔ s.rejects i := by
  have hop := op_of_decode h
  obtain ⟨hlisted, hclear⟩ := (decodeAcceptsExactlyTheTable c).1.1 ⟨i, h, hop⟩
  obtain ⟨hinit, hhandoff⟩ := operands_of_binds h
  rw [hop] at hinit hhandoff
  rw [State.rejects, hop]
  refine (or_iff_right (not_not.2 hlisted)).trans ((or_iff_right (not_not.2 hclear)).trans ?_)
  refine or_congr_right (or_congr_right (or_congr ?window (or_congr ?capacity ?handoff)))
  case window => exact and_congr_right fun huses => by rw [hinit huses]
  case capacity => exact and_congr_right fun hbtInit => by rw [hinit (.inr hbtInit)]
  case handoff => exact and_congr_right fun hop => by rw [hhandoff hop]

/-- A command with a cause I1 to I7 is ILLEGAL (R259). -/
theorem runCommand_of_illegalCause (h : illegalCause s c) : runCommand c s = .next s.illegal := by
  cases hdecode : decode c with
  | instr i => exact (runCommand_of_decode hdecode).trans (exec_of_rejects ((illegalCause_iff_rejects hdecode).1 h))
  | illegal e => exact runCommand_of_not_decode hdecode

/-- A command without a cause is accepted, from every state of the invariant (R260). -/
theorem runCommand_proceeds (hs : s.Inv) (h : ¬ illegalCause s c) : Proceeds (runCommand c s) s.accept := by
  obtain ⟨hlisted, hrest⟩ := not_or.1 h
  obtain ⟨i, hdecode, -⟩ := (decodeAcceptsExactlyTheTable c).1.2
    ⟨not_not.1 hlisted, not_not.1 fun hused => hrest (.inl hused)⟩
  rw [runCommand_of_decode hdecode]
  exact exec_proceeds hs fun hrej => h ((illegalCause_iff_rejects hdecode).2 hrej)

/-- A reserved bit of STATUS is in neither ILL's nor ILLS's place (R32). -/
theorem getLsbD_eq_false_of_reserved {v b : Nat} (hv : v < 2 ^ 2) (hb : 2 ≤ b) :
    (BitVec.ofNat 32 v).getLsbD b = false := by
  rw [BitVec.getLsbD_ofNat, Nat.testBit_lt_two_pow (hv.trans_le (Nat.pow_le_pow_right (by decide) hb)), Bool.and_false]

/-- The reserved bits of STATUS stay, ILLEGAL or accepted (R32). -/
theorem State.reserved_stay (s : State) {b : Nat} (hb : 2 ≤ b) :
    s.illegal.status.getLsbD b = s.status.getLsbD b ∧ s.accept.status.getLsbD b = s.status.getLsbD b := by
  have hset : (3#32).getLsbD b = false := getLsbD_eq_false_of_reserved (by decide) hb
  have hclear : (1#32).getLsbD b = false := getLsbD_eq_false_of_reserved (by decide) hb
  constructor
  · rw [State.illegal_status, BitVec.getLsbD_or, hset, Bool.or_false]
  · rw [State.accept_status, BitVec.getLsbD_and, BitVec.getLsbD_not, hclear, Bool.not_false, Bool.and_true]
    exact Bool.and_eq_left_iff_imp.2 fun h => decide_eq_true (BitVec.lt_of_getLsbD h)

/-- Settles O9: ILLEGAL with a cause (`runCommand_of_illegalCause`), accepted without one (`runCommand_proceeds`). -/
theorem commandIsIllegalExactlyForTheListedCauses : Obligations.CommandIsIllegalExactlyForTheListedCauses := by
  intro s c rest hs hhost
  rw [step_of_host_cons hhost]
  by_cases hcause : illegalCause s c
  · exact ⟨_, runCommand_of_illegalCause (s := { s with host := rest }) hcause,
      fun _ => ⟨rfl, State.illegal_ill _, State.illegal_ills _⟩, fun hno => absurd hcause hno,
      fun _ hb => (State.reserved_stay _ hb).1⟩
  · obtain ⟨t, hrun, hstatus, -⟩ := runCommand_proceeds (s := { s with host := rest }) hs hcause
    refine ⟨t, hrun, fun h => absurd h hcause, fun _ => ?_, fun b hb => ?_⟩
    · obtain ⟨hill, hills⟩ := State.ill_ills_congr hstatus
      exact ⟨hill.trans (State.accept_ill _), hills.trans (State.accept_ills _)⟩
    · rw [hstatus]; exact (State.reserved_stay _ hb).2

/-! #### ERR (R254, R257) -/

/-- Where c holds an error so does c', the same one or another. -/
def Context.KeepsError (c c' : Context) : Prop := c.err ≠ 0 → c'.err ≠ 0

@[simp] theorem Context.keepsError_self (c : Context) : c.KeepsError c := id
@[simp] theorem Context.keepsError_moveTo (c : Context) (pos : Nat) : c.KeepsError (c.moveTo pos) := id

/-- Every code but OK is an error (R251). -/
@[simp] theorem Context.keepsError_setErr (c c' : Context) {k : ErrorKind} (hk : k ≠ .ok) :
    c.KeepsError (c'.setErr k) := by
  intro _
  cases k with
  | ok => exact absurd rfl hk
  | getOverrun | setOverrun | moveOverrun | getZeroWidth | setZeroWidth => simp [ErrorKind.code]

/-- A command that does not bind a context keeps an error recorded in it (R254). -/
theorem Effect.keepsError (h : Effect i s t) : (op i ≠ 0x10 → s.byteCtx.KeepsError t.byteCtx)
    ∧ (op i ≠ 0x30 → op i ≠ 0x20 → s.bitCtx.KeepsError t.bitCtx) := by
  cases i with
  | slGetByteSlice _ _ _ | slSetByteSlice _ _ _ _ | slGetShortSlice _ _ _ | slGetIntSlice _ _ _ =>
    obtain ⟨_, rfl⟩ := h; simp
  | byInit _ _ _ => exact ⟨fun hne => absurd rfl hne, fun _ _ => by obtain rfl | ⟨_, rfl⟩ := h <;> simp⟩
  | btInit _ _ _ => exact ⟨fun _ => by obtain rfl | ⟨_, rfl⟩ := h <;> simp, fun hne => absurd rfl hne⟩
  | byGetBitStream _ => exact ⟨fun _ => by obtain rfl | ⟨_, _, rfl⟩ := h <;> simp, fun _ hne => absurd rfl hne⟩
  | byForward _ | byBack _ | btForward _ | btBack _ => obtain rfl | rfl | ⟨_, rfl, -⟩ := h <;> simp
  | byGetByte | byGetWord | byGetDword => obtain rfl | ⟨_, _, rfl⟩ | ⟨_, rfl⟩ := h <;> simp
  | bySetByte _ | bySetWord _ | bySetDword _ => obtain rfl | ⟨_, _, rfl⟩ | ⟨_, _, rfl⟩ := h <;> simp
  | byGetByteByPos _ | byGetWordByPos _ | byGetDwordByPos _
  | bySetByteByPos _ _ | bySetWordByPos _ _ | bySetDwordByPos _ _ => obtain rfl | rfl | ⟨_, rfl⟩ := h <;> simp
  | btGetBit _ | btSetBit _ _ => obtain rfl | ⟨_, rfl | rfl, rfl⟩ | ⟨_, _, rfl⟩ := h <;> simp
  | btGetBitByPos _ _ | btSetBitByPos _ _ _ => obtain rfl | ⟨_, rfl | rfl, rfl⟩ | ⟨_, rfl⟩ := h <;> simp
  | bySetByteSlice _ _ _ | byGetPos | byGetError | byGetLength | byGetBuffer
  | btGetPos | btGetBytePos | btGetError | btGetLength | btGetBuffer => obtain rfl | ⟨_, rfl⟩ := h <;> simp

/-- Settles O47: a command that does not bind a context keeps its error, and a context just bound has ERR = OK. -/
theorem onlyBindingClearsAnError : Obligations.OnlyBindingClearsAnError := by
  intro i s t h
  replace h : Effect i s t := exec_effect h
  obtain ⟨hby, hbt⟩ := h.keepsError
  obtain ⟨hbyInit, hbtInit, hhandoff⟩ := eq_of_op_binds i
  refine ⟨fun herr hok => ?onlyBY, fun herr hok => ?onlyBT, fun hop => ?clearsBY, fun hop => ?clearsBT⟩
  case onlyBY => exact of_not_not fun hne => hby hne herr hok
  case onlyBT => exact of_not_not fun hne => hbt (hne ∘ .inl) (hne ∘ .inr) herr hok
  case clearsBY =>
    obtain ⟨mode, base, len, rfl⟩ := hbyInit hop
    exact h.imp_right fun ⟨m, ht⟩ => by rw [ht, Context.bound_err]
  case clearsBT =>
    obtain hop | hop := hop
    · obtain ⟨mode, base, len, rfl⟩ := hbtInit hop
      exact h.imp_right fun ⟨m, ht⟩ => by rw [ht, Context.bound_err]
    · obtain ⟨n, rfl⟩ := hhandoff hop
      exact h.imp_right fun ⟨base, draws, ht⟩ => by rw [ht, Context.bound_err]

/-- Settles O48: no command it names is among those that write the ERR (R46). -/
theorem errorFieldsAreIndependent : Obligations.ErrorFieldsAreIndependent := by
  intro i s t h
  obtain ⟨-, -, -, hby, -, -, hbt, -⟩ := registersChangeOnlyByTheirCommands i s t h
  exact ⟨fun hhi hne => of_not_not fun hchanged => by have := hbt hchanged; omega,
    fun hop => of_not_not fun hchanged => by have := hby hchanged; omega⟩

end Sys2Proof.Machine
